-- ==== Sys2Proof/Word.lean ====
section
/-! DEFINITION. The three unsigned types of 00_scope.md rule R9 and nothing else. The arithmetic of
40_common.md (rules R100 to R105) is in Machine/Numeric.lean. -/

namespace Sys2Proof

/-- u8 (rule R9). -/
abbrev Byte := BitVec 8

/-- u32, the word width of rule R7. Host registers and command words are words. -/
abbrev Word := BitVec 32

/-- u64, the Salsa20 block counter (rule R199) and the g-function's square (rule R105). -/
abbrev DWord := BitVec 64

end Sys2Proof
end

