-- ==== Sys2Proof/Syntax.lean ====
section
/-! DEFINITION. The commands of the engine, one constructor per row of spec/opcode_table.json
(30_encoding.md rule R83). A command has no operand field: rule R82, "A command word carries no register
numbers and no immediates". -/

namespace Sys2Proof

/-- The fifteen commands of rule R83. -/
inductive Instr where
  /-- NOP, rule R108 -/
  | nop
  /-- ZEROIZE, rule R109 -/
  | zeroize
  /-- RC4_KSA, rule R134 -/
  | rc4Ksa
  /-- RC4_PRGA, rule R135 -/
  | rc4Prga
  /-- RC4_CRYPT, rule R136 -/
  | rc4Crypt
  /-- RC4W_CRYPT, rule R138 -/
  | rc4wCrypt
  /-- CHACHA_BLOCK, rule R169 -/
  | chachaBlock
  /-- CHACHA_CRYPT, rule R171 -/
  | chachaCrypt
  /-- SALSA_BLOCK, rule R200 -/
  | salsaBlock
  /-- SALSA_CRYPT, rule R202 -/
  | salsaCrypt
  /-- RABBIT_INIT, rule R234 -/
  | rabbitInit
  /-- RABBIT_INIT_IV, rule R235 -/
  | rabbitInitIv
  /-- RABBIT_NEXT, rule R236 -/
  | rabbitNext
  /-- RABBIT_EXTRACT, rule R237 -/
  | rabbitExtract
  /-- RABBIT_CRYPT, rule R240 -/
  | rabbitCrypt
  deriving DecidableEq, Repr

end Sys2Proof
end

