-- ==== Sys2Proof/Decode.lean ====
section
/-! DEFINITION. The decoder of 30_encoding.md rule R89, total on 32-bit words and rejecting by name, and the
encoder written from the table of rule R83. -/

namespace Sys2Proof

/-- Why a command word is ILLEGAL (rule R84). -/
inductive Illegal where
  /-- bits 31:8 are not zero -/
  | mbzNotZero
  /-- OP is reserved -/
  | reservedOp (op : Nat)
  deriving DecidableEq, Repr

/-- OP, bits 7:0 (rule R81). -/
def opField (w : Word) : BitVec 8 := w.extractLsb' 0 8

/-- MBZ, bits 31:8 (rule R81). -/
def mbzField (w : Word) : BitVec 24 := w.extractLsb' 8 24

/-- The opcode map of rule R83, read from OP. -/
def decodeOp (op : Nat) : Except Illegal Instr :=
  match op with
  | 0x00 => .ok .nop
  | 0x01 => .ok .zeroize
  | 0x10 => .ok .rc4Ksa
  | 0x11 => .ok .rc4Prga
  | 0x12 => .ok .rc4Crypt
  | 0x13 => .ok .rc4wCrypt
  | 0x20 => .ok .chachaBlock
  | 0x21 => .ok .chachaCrypt
  | 0x30 => .ok .salsaBlock
  | 0x31 => .ok .salsaCrypt
  | 0x40 => .ok .rabbitInit
  | 0x41 => .ok .rabbitInitIv
  | 0x42 => .ok .rabbitNext
  | 0x43 => .ok .rabbitExtract
  | 0x44 => .ok .rabbitCrypt
  | _ => .error (.reservedOp op)

/-- `decode(w)` of rule R89. No register changes it (rule R86). -/
def decode (w : Word) : Except Illegal Instr :=
  if mbzField w = 0 then decodeOp (opField w).toNat else .error .mbzNotZero

/-- OP of a command, from the table of rule R83. -/
def opOf : Instr → Byte
  | .nop => 0x00
  | .zeroize => 0x01
  | .rc4Ksa => 0x10
  | .rc4Prga => 0x11
  | .rc4Crypt => 0x12
  | .rc4wCrypt => 0x13
  | .chachaBlock => 0x20
  | .chachaCrypt => 0x21
  | .salsaBlock => 0x30
  | .salsaCrypt => 0x31
  | .rabbitInit => 0x40
  | .rabbitInitIv => 0x41
  | .rabbitNext => 0x42
  | .rabbitExtract => 0x43
  | .rabbitCrypt => 0x44

/-- The word of a command: "`0x000000` followed by OP" (rule R83). -/
def encode (i : Instr) : Word := (0 : BitVec 24) ++ opOf i

/-- What the decoder reads from the table's bits `w`, of which the row gives `nbits`. Every command is one
32-bit word (rule R80). -/
def decodeTableWord (nbits w : Nat) : Option Instr :=
  (decode (BitVec.ofNat 32 (w % 2 ^ nbits))).toOption

end Sys2Proof
end

