-- ==== Sys2Proof/Machine/Numeric.lean ====
section
/-! DEFINITION. The numeric helpers of 40_common.md rules R100 to R105, and reading and writing one element of
a fixed-size array. -/

namespace Sys2Proof.Machine

/-- Element `n` of an array (rule R11). Every rule reads inside the array; past its end the reader is total and
gives 0, which no rule uses. -/
def elt {w n : Nat} (A : Vector (BitVec w) n) (k : Nat) : BitVec w := A.toArray.toList.getD k 0

/-- `A[k] <- v` (rule R11). A write past the end changes nothing. -/
def put {w n : Nat} (A : Vector (BitVec w) n) (k : Nat) (v : BitVec w) : Vector (BitVec w) n :=
  ⟨⟨A.toArray.toList.set k v⟩, by simp⟩

/-- The array whose element `k` is `f k`. -/
def build {w : Nat} (n : Nat) (f : Nat → BitVec w) : Vector (BitVec w) n :=
  ⟨⟨(List.range n).map f⟩, by simp⟩

/-- `f` applied `n` times ("repeat n times"). -/
def repeatN {α : Type} (f : α → α) : Nat → α → α
  | 0, a => a
  | n + 1, a => repeatN f n (f a)

/-- `add32` (rule R100): addition modulo 2^32, the carry out discarded. -/
def add32 (a b : Word) : Word := a + b

/-- `rotl32` (rule R101). Amounts of 32 and more never occur; the rule lets a model take them modulo 32 (log 14). -/
def rotl32 (x : Word) (n : Nat) : Word :=
  let r := n % 32
  (x <<< r) ||| (x >>> (32 - r))

/-- Byte `q` of a word, counted from the least significant (rules R62, R64). -/
def byteOf (w : Word) (q : Nat) : Byte := w.extractLsb' (8 * q) 8

/-- The word of four bytes in increasing index (rules R62, R64). -/
def wordOfBytes (b0 b1 b2 b3 : Byte) : Word :=
  b0.setWidth 32 ||| (b1.setWidth 32 <<< 8) ||| (b2.setWidth 32 <<< 16) ||| (b3.setWidth 32 <<< 24)

/-- `le32(B, o)` (rule R103). -/
def le32 {n : Nat} (B : Vector Byte n) (o : Nat) : Word :=
  wordOfBytes (elt B o) (elt B (o + 1)) (elt B (o + 2)) (elt B (o + 3))

/-- `st32(w)` (rule R104). -/
def st32 (w : Word) : List Byte := [byteOf w 0, byteOf w 1, byteOf w 2, byteOf w 3]

/-- `ser(W)` (rule R104): byte `k` of the concatenation of the words' `st32` is byte `k mod 4` of word
`k / 4`. -/
def ser {n : Nat} (W : Vector Word n) : Vector Byte (4 * n) :=
  build (4 * n) fun k => byteOf (elt W (k / 4)) (k % 4)

/-- Word-wise `add32` of two 16-word states, the last step of a block function (rules R166, R196). -/
def addStates (W ST : Vector Word 16) : Vector Word 16 := build 16 fun k => add32 (elt W k) (elt ST k)

/-- `sq64(u)` (rule R105): the exact 64-bit square. -/
def sq64 (u : Word) : DWord := u.setWidth 64 * u.setWidth 64

/-- `hi32` (rule R105). -/
def hi32 (v : DWord) : Word := v.extractLsb' 32 32

/-- `lo32` (rule R105). -/
def lo32 (v : DWord) : Word := v.extractLsb' 0 32

end Sys2Proof.Machine
end

