-- ==== Sys2Proof/Config.lean ====
section
/-! DEFINITION. What an implementation fixes: the four parameters of 00_scope.md rule R8, the constants of
rules R21, R160 and R220, and the one free function of the model (a 2-byte RC4 keystream step other than the
spec's default). The parameters are carried in the state (field `params`, which no step writes), so every
statement about a state speaks of every choice of them. -/

namespace Sys2Proof

/-- `P_RC4W_PAIR` (rules R8, R137): the spec's default, or some other pair function of which nothing is
known. -/
inductive PairChoice where
  /-- two consecutive PRGA steps, the first byte for the even position: the default -/
  | twoPrgaSteps
  /-- the uninterpreted configuration function `Config.otherPair` (93_implementation_defined.md I2) -/
  | uninterpreted
  deriving DecidableEq, Repr

/-- The parameters of rule R8. -/
structure Params where
  /-- `P_BASE`: host byte address of offset 0x000; a multiple of 0x1000 -/
  base : Nat
  /-- `P_DBUF_BYTES`: size of DBUF; a multiple of 4 in 64..1048576 -/
  dbufBytes : Nat
  /-- `P_RABBIT_ORIG_CREINIT`: whether ORIGINAL key setup ends with the counter re-initialisation -/
  origCreinit : Bool
  /-- `P_RC4W_PAIR` -/
  rc4wPair : PairChoice
  deriving DecidableEq, Repr

/-- The defaults of rule R8. DESIGN CHOICE (log 2): rule R8 leaves `P_BASE` open; 0 stands here, and no
statement rests on it. -/
def Params.default : Params :=
  { base := 0, dbufBytes := 4096, origCreinit := false, rc4wPair := .twoPrgaSteps }

/-- FREE VALUE (log 3). A keystream-pair function other than the default: from (P, i, j) to
(P', i', j', k0, k1). It has no body, so nothing can be proved of its values (rule R137: "an uninterpreted
configuration function of (P, i, j)"). -/
opaque Config.otherPair : Vector Byte 256 → Byte → Byte → Vector Byte 256 × Byte × Byte × Byte × Byte

/-- ID, the identity word (rule R21). -/
def idWord : Word := 0x53434531

/-- Size of the register block below the DBUF window (rule R60). -/
def registerBlockBytes : Nat := 0x1000

/-- SIGMA, the words of "expand 32-byte k" (rules R42, R160, R190). -/
def sigma : Vector Word 4 := #v[0x61707865, 0x3320646E, 0x79622D32, 0x6B206574]

/-- A, the Rabbit counter-increment constants (rules R42, R220). -/
def rabbitA : Vector Word 8 :=
  #v[0x4D34D34D, 0xD34D34D3, 0x34D34D34, 0x4D34D34D, 0xD34D34D3, 0x34D34D34, 0x4D34D34D, 0xD34D34D3]

end Sys2Proof
end

