-- ==== Sys2Proof/Machine/State.lean ====
section
/-! DEFINITION. The state of the machine, as plain data: every register, array and flag of 10_state.md, the
parameters of rule R8, and the HOST agent of rule R6 (its remaining operations, what its reads returned, and
which agent moves at the coming steps). -/

namespace Sys2Proof.Machine

/-- Memory as address and byte pairs in one canonical form (`Memory.wf` in Machine/Ops.lean). -/
abbrev Memory := List Host.Cell

/-- The values STATUS.ERR takes (rule R261). Codes 6 to 15 are never produced and have no constructor (log 11). -/
inductive ErrCode where
  /-- code 0 -/
  | ok
  /-- code 1 -/
  | invalidKeyLength
  /-- code 2 -/
  | invalidNonceLength
  /-- code 3 -/
  | illegalCommand
  /-- code 4 -/
  | bufferRange
  /-- code 5 -/
  | notInitialized
  deriving DecidableEq, Repr

/-- The RC4 state of rule R130: the permutation and the two PRGA indices (rules R38, R32). -/
structure Rc4 where
  s : Vector Byte 256
  i : Byte
  j : Byte
  deriving DecidableEq, Repr

/-- The Rabbit state of rule R221: the lanes X and C and the carry bit (rules R39, R40, R33). -/
structure Rabbit where
  x : Vector Word 8
  c : Vector Word 8
  carry : Bool
  deriving DecidableEq, Repr

/-- One operation of a host program (rules R61, R87, R88). Addresses are host byte addresses; every access is
32 bits wide. `poll` stands for `rd STATUS` repeated while bit 0 of the result is 1 (log 16). -/
inductive HostOp where
  | rd (addr : Nat)
  | wr (addr : Nat) (w : Word)
  | poll
  deriving DecidableEq, Repr

/-- Who moves at one step (rules R6, R286, R280). -/
inductive Turn where
  /-- the host makes its next operation -/
  | host
  /-- the engine performs the pending command, if there is one -/
  | engine
  /-- the platform asserts its reset input -/
  | reset
  deriving DecidableEq, Repr

/-- How a step can stop. Both are raised by a host turn whose operation breaks the host protocol, for which the
spec gives no step (rule R273 item 2): stuck. Both are safe: the model stops and allows nothing more (log 6). -/
inductive Fault where
  /-- raised by `hostTurn` (Machine/HostPort.lean) on an access at an offset that is not a multiple of 4
  (rule R61); safe -/
  | misalignedAccess (addr : Nat)
  /-- raised by `hostTurn` on an access outside the engine's span (rule R60: "the platform decides what they
  reach"); safe -/
  | outOfSpanAccess (addr : Nat)
  deriving DecidableEq, Repr

/-- Why the model gives no meaning. -/
inductive Refusal where
  /-- raised by an arm of `exec` that has no meaning yet (none has); safe -/
  | notModelled (mnemonic : String)
  deriving DecidableEq, Repr

structure State where
  /-- STATUS.BUSY (rule R23) -/
  busy : Bool
  /-- STATUS.ERR (rules R23, R261) -/
  err : ErrCode
  /-- STATUS.RC4_VALID (rule R23) -/
  rc4Valid : Bool
  /-- STATUS.RABBIT_VALID (rule R23) -/
  rabbitValid : Bool
  /-- CTRL.RABBIT_CANON (rule R24) -/
  rabbitCanon : Bool
  /-- KLEN (rule R25) -/
  klen : BitVec 9
  /-- NLEN (rule R26) -/
  nlen : BitVec 5
  /-- CTR_LO (rule R27) -/
  ctrLo : Word
  /-- CTR_HI (rule R28) -/
  ctrHi : Word
  /-- DOFF (rule R29) -/
  doff : Word
  /-- DLEN (rule R30) -/
  dlen : Word
  /-- OLEN (rule R31) -/
  olen : Word
  /-- KEY (rule R35) -/
  key : Vector Byte 256
  /-- NONCE (rule R36) -/
  nonce : Vector Byte 16
  /-- KS (rule R37) -/
  ks : Vector Byte 64
  /-- S, I and J (rules R38, R32) -/
  rc4 : Rc4
  /-- X, C and CARRY (rules R39, R40, R33) -/
  rabbit : Rabbit
  /-- DBUF (rule R41) -/
  dbuf : Memory
  /-- PENDING (rule R43) -/
  pending : Word
  /-- the parameters of rule R8; the model's own field, which no step writes (log 1) -/
  params : Params
  /-- the host's remaining operations, next one first (rule R6); the model's own field (log 4) -/
  script : List HostOp
  /-- the values the host's reads returned, oldest first; the model's own field (log 4) -/
  reads : List Word
  /-- who moves at the coming steps, next one first; the model's own field (log 4) -/
  turns : List Turn
  deriving DecidableEq, Repr

/-- Every piece of engine state at its reset value (rule R281), under given parameters, with a host that has
nothing to do. -/
def State.resetWith (p : Params) : State where
  busy := false
  err := .ok
  rc4Valid := false
  rabbitValid := false
  rabbitCanon := false
  klen := 0
  nlen := 0
  ctrLo := 0
  ctrHi := 0
  doff := 0
  dlen := 0
  olen := 0
  key := Vector.replicate 256 0
  nonce := Vector.replicate 16 0
  ks := Vector.replicate 64 0
  rc4 := { s := Vector.replicate 256 0, i := 0, j := 0 }
  rabbit := { x := Vector.replicate 8 0, c := Vector.replicate 8 0, carry := false }
  dbuf := []
  pending := 0
  params := p
  script := []
  reads := []
  turns := []

/-- The machine right after reset (rules R281, R283), at the default parameters. -/
def State.reset : State := State.resetWith Params.default

end Sys2Proof.Machine
end

