-- ==== Sys2Proof/Machine/Ops.lean ====
section
/-! DEFINITION. The named operations on the data buffer and on the state, and the execution template of
40_common.md rule R107. Ending a command with an error (60_exceptions.md rule R263) is the engine's only kind
of exception: `failWith`. -/

namespace Sys2Proof.Machine

/-! ## DBUF -/

/-- What an address nothing is listed for reads as: DBUF resets to zeros (rules R41, R281; log 7). -/
def unlistedByte : Byte := 0

/-- `MemRead(a, 1)` (rules R11, R63). -/
def memRead : Memory → Nat → Byte
  | [], _ => unlistedByte
  | (b, v) :: m, a => if a = b then v else memRead m a

/-- The cell for `v` at `a`, or none where `v` is what an unlisted address reads as. -/
def memCell (a : Nat) (v : Byte) : Memory := if v = unlistedByte then [] else [(a, v)]

/-- `MemWrite(a, 1, v)` (rules R11, R63), keeping the canonical form. -/
def memWrite : Memory → Nat → Byte → Memory
  | [], a, v => memCell a v
  | (b, u) :: m, a, v =>
    if a < b then memCell a v ++ (b, u) :: m
    else if a = b then memCell a v ++ m
    else (b, u) :: memWrite m a v

/-- The canonical form above a bound: addresses at least `lo` and strictly rising, no cell equal to what an
unlisted address reads as. -/
def memSorted : Nat → Memory → Bool
  | _, [] => true
  | lo, (b, v) :: m => decide (lo ≤ b) && !(v == unlistedByte) && memSorted (b + 1) m

/-- The canonical form of a memory. -/
def Memory.wf (m : Memory) : Bool := memSorted 0 m

/-- No cell is listed at or past `hi`. -/
def memBelow (hi : Nat) (m : Memory) : Bool := m.all fun cell => decide (cell.1 < hi)

/-- The word at `a` of a byte window laid over DBUF (rule R62). -/
def memReadWord (m : Memory) (a : Nat) : Word :=
  wordOfBytes (memRead m a) (memRead m (a + 1)) (memRead m (a + 2)) (memRead m (a + 3))

/-- Writing the word at `a` of a byte window laid over DBUF: all four bytes (rule R62). -/
def memWriteWord (m : Memory) (a : Nat) (w : Word) : Memory :=
  memWrite (memWrite (memWrite (memWrite m a (byteOf w 0)) (a + 1) (byteOf w 1)) (a + 2) (byteOf w 2))
    (a + 3) (byteOf w 3)

/-- Writing the word at byte index `o` of a byte window held as an array: all four bytes (rule R62). -/
def putWord {n : Nat} (B : Vector Byte n) (o : Nat) (w : Word) : Vector Byte n :=
  put (put (put (put B o (byteOf w 0)) (o + 1) (byteOf w 1)) (o + 2) (byteOf w 2)) (o + 3) (byteOf w 3)

/-! ## Named updates of the state -/

/-- S, I and J. -/
def setRc4 (r : Rc4) (s : State) : State := { s with rc4 := r }

/-- STATUS.RC4_VALID. -/
def setRc4Valid (b : Bool) (s : State) : State := { s with rc4Valid := b }

/-- X, C and CARRY. -/
def setRabbit (r : Rabbit) (s : State) : State := { s with rabbit := r }

/-- STATUS.RABBIT_VALID. -/
def setRabbitValid (b : Bool) (s : State) : State := { s with rabbitValid := b }

/-- KS. -/
def setKs (k : Vector Byte 64) (s : State) : State := { s with ks := k }

/-- OLEN. -/
def setOlen (n : Word) (s : State) : State := { s with olen := n }

/-- DBUF. -/
def setDbuf (m : Memory) (s : State) : State := { s with dbuf := m }

/-- Completion with a result code: ERR <- e, BUSY <- 0 (rule R107). -/
def finish (e : ErrCode) (s : State) : State := { s with err := e, busy := false }

/-- A host write of CMD while idle (rule R22): PENDING <- w, BUSY <- 1. -/
def issue (w : Word) (s : State) : State := { s with pending := w, busy := true }

/-- The rest of the host's program. -/
def setScript (l : List HostOp) (s : State) : State := { s with script := l }

/-- The coming turns. -/
def setTurns (l : List Turn) (s : State) : State := { s with turns := l }

/-- The host has read `w`. -/
def logRead (w : Word) (s : State) : State := { s with reads := s.reads ++ [w] }

/-- The platform's reset (rules R280 to R282): every piece of engine state takes its reset value, a command in
progress included. The parameters and the host are not engine state (log 8). -/
def platformReset (s : State) : State :=
  { State.resetWith s.params with script := s.script, reads := s.reads, turns := s.turns }

/-! ## Executing a command -/

/-- One check of rule R262: whether it passes, and the code it gives where it fails. -/
structure Check where
  passes : Bool
  code : ErrCode
  deriving DecidableEq, Repr

/-- The code of the first failing check, in the order listed (rule R262). -/
def firstFailure : List Check → Option ErrCode
  | [] => none
  | k :: ks => if k.passes then firstFailure ks else some k.code

/-- A command ends with an error (rule R263): ERR <- code, BUSY <- 0, nothing else. -/
def failWith (e : ErrCode) (s : State) : State := finish e s

/-- `execute()` of rule R107 for a legal command: the checks in order, then the body, then ERR <- OK and
BUSY <- 0. -/
def runCommand (checks : State → List Check) (body : State → State) (s : State) :
    Host.Outcome State Fault Refusal :=
  match firstFailure (checks s) with
  | some e => .next (failWith e s)
  | none => .next (finish .ok (body s))

/-- `execute()` of rule R107 for an ILLEGAL word (rules R84, R261). -/
def illegalCommand (s : State) : Host.Outcome State Fault Refusal :=
  .next (failWith .illegalCommand s)

/-! ## The tiling driver -/

/-- The inner loop of rule R106: the first `n` bytes of keystream block `K` into DBUF from address `a`. -/
def xorTile {T : Nat} (K : Vector Byte T) (a : Nat) : Nat → Memory → Memory
  | 0, m => m
  | n + 1, m =>
    let m' := xorTile K a n m
    memWrite m' (a + n) (memRead m' (a + n) ^^^ elt K n)

/-- `xorTiles(T, gen)` of rule R106 from tile `t` on, for a given number of tiles. `gen t g` is called once per
tile, in increasing t; its state `g` goes from one tile to the next. -/
def xorTilesFrom {σ : Type} {T : Nat} (gen : Nat → σ → σ × Vector Byte T) (doff dlen : Nat) :
    Nat → Nat → σ → Memory → σ × Memory
  | 0, _, g, m => (g, m)
  | n + 1, t, g, m =>
    let r := gen t g
    xorTilesFrom gen doff dlen n (t + 1) r.1 (xorTile r.2 (doff + T * t) (min T (dlen - T * t)) m)

/-- `ceil(len / T)`. -/
def tileCount (T len : Nat) : Nat := (len + T - 1) / T

/-- `xorTiles(T, gen)` of rule R106. -/
def xorTiles {σ : Type} {T : Nat} (gen : Nat → σ → σ × Vector Byte T) (doff dlen : Nat) (g : σ)
    (m : Memory) : σ × Memory :=
  xorTilesFrom gen doff dlen (tileCount T dlen) 0 g m

end Sys2Proof.Machine
end

