-- ==== Sys2Proof/Machine/Operands.lean ====
section
/-! DEFINITION. The operands a command reads from the host-interface state (30_encoding.md rule R82) the
checks on them (60_exceptions.md rule R262), and the counter-mode driver ChaCha20 and Salsa20 share. -/

namespace Sys2Proof.Machine

/-- KLEN as a number. -/
abbrev keyLen (s : State) : Nat := s.klen.toNat

/-- NLEN as a number. -/
abbrev nonceLen (s : State) : Nat := s.nlen.toNat

/-- DOFF as a number. -/
abbrev dataOff (s : State) : Nat := s.doff.toNat

/-- DLEN as a number. -/
abbrev dataLen (s : State) : Nat := s.dlen.toNat

/-- The output length of the 2-byte RC4 variant: DLEN + (DLEN mod 2) (rule R138). -/
abbrev paddedLen (s : State) : Nat := dataLen s + dataLen s % 2

/-- The Salsa20 starting counter CTR_HI || CTR_LO (rule R199). -/
def counter64 (s : State) : DWord := s.ctrHi ++ s.ctrLo

/-- `inRange(off, n)` of rule R74, in unbounded naturals. -/
def inRange (p : Params) (off n : Nat) : Bool := decide (off + n ≤ p.dbufBytes)

/-- The RC4 key check (rule R133). -/
def rc4KeyCheck (s : State) : Check :=
  { passes := decide (1 ≤ keyLen s ∧ keyLen s ≤ 256), code := .invalidKeyLength }

/-- KLEN = n (rules R167, R198, R233). -/
def keyLenCheck (n : Nat) (s : State) : Check :=
  { passes := decide (keyLen s = n), code := .invalidKeyLength }

/-- NLEN = n (rules R167, R198, R233). -/
def nonceLenCheck (n : Nat) (s : State) : Check :=
  { passes := decide (nonceLen s = n), code := .invalidNonceLength }

/-- NLEN is 0 or 8, the IV check of RABBIT_CRYPT (rules R233, R239). -/
def optionalIvCheck (s : State) : Check :=
  { passes := decide (nonceLen s = 0 ∨ nonceLen s = 8), code := .invalidNonceLength }

/-- `inRange(DOFF, n)` (rules R74, R262). -/
def rangeCheck (n : Nat) (s : State) : Check :=
  { passes := inRange s.params (dataOff s) n, code := .bufferRange }

/-- RC4_VALID = 1 (rule R135). -/
def rc4ValidCheck (s : State) : Check := { passes := s.rc4Valid, code := .notInitialized }

/-- RABBIT_VALID = 1 (rules R236, R237). -/
def rabbitValidCheck (s : State) : Check := { passes := s.rabbitValid, code := .notInitialized }

/-- Data in place by 64-byte tiles whose block is a function of the tile number alone: DBUF, then the last
tile's block in KS where there is a tile, then OLEN (rules R106, R171, R202). -/
def blockCryptBody (tile : Nat → Vector Byte 64) (s : State) : State :=
  let r := xorTiles (fun t (_ : Unit) => ((), tile t)) (dataOff s) (dataLen s) () s.dbuf
  let k := if dataLen s = 0 then s.ks else tile (tileCount 64 (dataLen s) - 1)
  setOlen s.dlen (setKs k (setDbuf r.2 s))

end Sys2Proof.Machine
end

