-- ==== Sys2Proof/Machine/ChachaFamily.lean ====
section
/-! DEFINITION. ChaCha20: quarter-round, block function and the two commands (42_chacha20.md). -/

namespace Sys2Proof.Machine

/-- `chachaInit(K, N, ctr)` (rule R161): constants at 0-3, key words at 4-11, the counter at 12, nonce words at
13-15. -/
def chachaInit (K : Vector Byte 256) (N : Vector Byte 16) (ctr : Word) : Vector Word 16 :=
  #v[elt sigma 0, elt sigma 1, elt sigma 2, elt sigma 3,
     le32 K 0, le32 K 4, le32 K 8, le32 K 12, le32 K 16, le32 K 20, le32 K 24, le32 K 28,
     ctr, le32 N 0, le32 N 4, le32 N 8]

/-- The ChaCha20 quarter-round on four words (rule R162). -/
def chachaQuarter (a b c d : Word) : Word × Word × Word × Word :=
  let a := add32 a b
  let d := rotl32 (d ^^^ a) 16
  let c := add32 c d
  let b := rotl32 (b ^^^ c) 12
  let a := add32 a b
  let d := rotl32 (d ^^^ a) 8
  let c := add32 c d
  let b := rotl32 (b ^^^ c) 7
  (a, b, c, d)

/-- `qr(W, a, b, c, d)` (rule R162): the quarter-round on four distinct words of the working state. -/
def qr (W : Vector Word 16) (a b c d : Nat) : Vector Word 16 :=
  let q := chachaQuarter (elt W a) (elt W b) (elt W c) (elt W d)
  put (put (put (put W a q.1) b q.2.1) c q.2.2.1) d q.2.2.2

/-- The column round of ChaCha20 (rule R163). -/
def chachaColumnRound (W : Vector Word 16) : Vector Word 16 :=
  qr (qr (qr (qr W 0 4 8 12) 1 5 9 13) 2 6 10 14) 3 7 11 15

/-- The diagonal round of ChaCha20 (rule R164). -/
def chachaDiagonalRound (W : Vector Word 16) : Vector Word 16 :=
  qr (qr (qr (qr W 0 5 10 15) 1 6 11 12) 2 7 8 13) 3 4 9 14

/-- `doubleRound` (rule R165): a column round, then a diagonal round. -/
def chachaDoubleRound (W : Vector Word 16) : Vector Word 16 := chachaDiagonalRound (chachaColumnRound W)

/-- `chachaBlock(K, N, ctr)` (rule R166): 20 rounds, the original state added, serialised little-endian. -/
def chachaBlockFn (K : Vector Byte 256) (N : Vector Byte 16) (ctr : Word) : Vector Byte 64 :=
  let ST := chachaInit K N ctr
  ser (addStates (repeatN chachaDoubleRound 10 ST) ST)

/-- Tile `t`'s keystream block of a ChaCha20 call: the block at counter (CTR_LO + t) mod 2^32 (rules R168,
R170). CTR_HI is ignored. -/
def chachaTile (s : State) (t : Nat) : Vector Byte 64 :=
  chachaBlockFn s.key s.nonce (s.ctrLo + BitVec.ofNat 32 t)

/-- The ChaCha20 key and nonce checks, in order (rule R167). -/
def chachaChecks (s : State) : List Check := [keyLenCheck 32 s, nonceLenCheck 12 s]

/-- `body(CHACHA_BLOCK)` (rule R169). -/
def chachaBlockBody (s : State) : State := setKs (chachaBlockFn s.key s.nonce s.ctrLo) s

/-- CHACHA_BLOCK (rule R169). -/
def execChachaBlock (s : State) : Host.Outcome State Fault Refusal :=
  runCommand chachaChecks chachaBlockBody s

/-- `body(CHACHA_CRYPT)` (rule R171). CTR_LO is not written. -/
def chachaCryptBody (s : State) : State := blockCryptBody (chachaTile s) s

/-- CHACHA_CRYPT (rule R171). -/
def execChachaCrypt (s : State) : Host.Outcome State Fault Refusal :=
  runCommand (fun s => chachaChecks s ++ [rangeCheck (dataLen s) s]) chachaCryptBody s

end Sys2Proof.Machine
end

