-- ==== Sys2Proof/Machine/Common.lean ====
section
/-! DEFINITION. The commands that belong to no cipher: NOP and ZEROIZE (40_common.md rules R108, R109). -/

namespace Sys2Proof.Machine

/-- NOP (rule R108): no check, `body(NOP) = skip`. -/
def execNop (s : State) : Host.Outcome State Fault Refusal := runCommand (fun _ => []) id s

/-- `body(ZEROIZE)` (rule R109). DBUF, CTRL, KLEN, NLEN, CTR_LO, CTR_HI, DOFF and DLEN keep their values. -/
def zeroizeBody (s : State) : State :=
  { s with
    key := Vector.replicate 256 0
    nonce := Vector.replicate 16 0
    ks := Vector.replicate 64 0
    rc4 := { s := Vector.replicate 256 0, i := 0, j := 0 }
    rabbit := { x := Vector.replicate 8 0, c := Vector.replicate 8 0, carry := false }
    rc4Valid := false
    rabbitValid := false
    olen := 0 }

/-- ZEROIZE (rule R109): no check. -/
def execZeroize (s : State) : Host.Outcome State Fault Refusal := runCommand (fun _ => []) zeroizeBody s

end Sys2Proof.Machine
end

