-- ==== Sys2Proof/Machine/RabbitFamily.lean ====
section
/-! DEFINITION. Rabbit: the two counter systems, the next-state function, extraction, key and IV setup and the
five commands (44_rabbit.md). -/

namespace Sys2Proof.Machine

/-- `counterOrig()` (rule R222), ORIGINAL mode. CARRY is neither read nor written. -/
def counterOrig (r : Rabbit) : Rabbit :=
  { r with c := build 8 fun k => add32 (add32 (elt r.c k) (elt rabbitA k)) (if k = 0 then 1 else 0) }

/-- One lane of `counterCanon()` (rule R223): the unbounded sum of a lane, its constant and the carry in. -/
def laneSum (C : Vector Word 8) (b : Bool) (k : Nat) : Nat :=
  (elt C k).toNat + (elt rabbitA k).toNat + b.toNat

/-- One pass of the loop of `counterCanon()` (rule R223). -/
def canonLane (st : Vector Word 8 × Bool) (k : Nat) : Vector Word 8 × Bool :=
  let t := laneSum st.1 st.2 k
  (put st.1 k (BitVec.ofNat 32 t), decide (2 ^ 32 ≤ t))

/-- `counterCanon()` (rule R223), CANONICAL mode: the carry runs through the lanes and stays in CARRY. -/
def counterCanon (r : Rabbit) : Rabbit :=
  let st := (List.range 8).foldl canonLane (r.c, r.carry)
  { r with c := st.1, carry := st.2 }

/-- The g-function (rule R224). -/
def gFn (x c : Word) : Word :=
  let sq := sq64 (add32 x c)
  hi32 sq ^^^ lo32 sq

/-- `mix(G)` (rule R225). -/
def mix (G : Vector Word 8) : Vector Word 8 :=
  #v[add32 (add32 (elt G 0) (rotl32 (elt G 7) 16)) (rotl32 (elt G 6) 16),
     add32 (add32 (elt G 1) (rotl32 (elt G 0) 8)) (elt G 7),
     add32 (add32 (elt G 2) (rotl32 (elt G 1) 16)) (rotl32 (elt G 0) 16),
     add32 (add32 (elt G 3) (rotl32 (elt G 2) 8)) (elt G 1),
     add32 (add32 (elt G 4) (rotl32 (elt G 3) 16)) (rotl32 (elt G 2) 16),
     add32 (add32 (elt G 5) (rotl32 (elt G 4) 8)) (elt G 3),
     add32 (add32 (elt G 6) (rotl32 (elt G 5) 16)) (rotl32 (elt G 4) 16),
     add32 (add32 (elt G 7) (rotl32 (elt G 6) 8)) (elt G 5)]

/-- The g-values of all lanes, from the updated C (rule R226). -/
def gValues (r : Rabbit) : Vector Word 8 := build 8 fun k => gFn (elt r.x k) (elt r.c k)

/-- The counter system of a mode (rules R222, R223, R226): CANONICAL where `canon` is true. -/
def counterStep (canon : Bool) (r : Rabbit) : Rabbit := if canon then counterCanon r else counterOrig r

/-- `nextState(mode)` (rule R226). -/
def nextState (canon : Bool) (r : Rabbit) : Rabbit :=
  let r' := counterStep canon r
  { r' with x := mix (gValues r') }

/-- `extract()` (rule R227): the 16-byte keystream block of X. -/
def extract (x : Vector Word 8) : Vector Byte 16 :=
  let s0 := elt x 0 ^^^ (elt x 5 >>> 16) ^^^ (elt x 3 <<< 16)
  let s1 := elt x 2 ^^^ (elt x 7 >>> 16) ^^^ (elt x 5 <<< 16)
  let s2 := elt x 4 ^^^ (elt x 1 >>> 16) ^^^ (elt x 7 <<< 16)
  let s3 := elt x 6 ^^^ (elt x 3 >>> 16) ^^^ (elt x 1 <<< 16)
  ser #v[s0, s1, s2, s3]

/-- High half of `a` over low half of `b`: `(a & 0xFFFF0000) | (b & 0x0000FFFF)` (rule R228). -/
def joinHalves (a b : Word) : Word := (a &&& 0xFFFF0000) ||| (b &&& 0x0000FFFF)

/-- `(a << 16) | (b >> 16)` (rule R228). -/
def shiftHalves (a b : Word) : Word := (a <<< 16) ||| (b >>> 16)

/-- `expandKey(K)` (rule R228), with CARRY <- 0 (rule R229). -/
def expandKey (K : Vector Byte 256) : Rabbit :=
  let k0 := le32 K 0
  let k1 := le32 K 4
  let k2 := le32 K 8
  let k3 := le32 K 12
  { x := #v[k0, shiftHalves k3 k2, k1, shiftHalves k0 k3, k2, shiftHalves k1 k0, k3, shiftHalves k2 k1]
    c := #v[rotl32 k2 16, joinHalves k0 k1, rotl32 k3 16, joinHalves k1 k2,
            rotl32 k0 16, joinHalves k2 k3, rotl32 k1 16, joinHalves k3 k0]
    carry := false }

/-- The counter re-initialisation: C[k] <- C[k] ^ X[(k + 4) mod 8] (rule R229). -/
def reinitCounters (r : Rabbit) : Rabbit :=
  { r with c := build 8 fun k => elt r.c k ^^^ elt r.x ((k + 4) % 8) }

/-- `keySetup(K, mode)` (rule R229). `origCreinit` is `P_RABBIT_ORIG_CREINIT`. -/
def keySetup (origCreinit canon : Bool) (K : Vector Byte 256) : Rabbit :=
  let r := repeatN (nextState canon) 4 (expandKey K)
  if canon || origCreinit then reinitCounters r else r

/-- The word XORed into counter lane `k` by `mixIV(V)` (rule R230). -/
def ivWord (V : Vector Byte 16) (k : Nat) : Word :=
  let i0 := le32 V 0
  let i2 := le32 V 4
  match k % 4 with
  | 0 => i0
  | 1 => (i0 >>> 16) ||| (i2 &&& 0xFFFF0000)
  | 2 => i2
  | _ => (i2 <<< 16) ||| (i0 &&& 0x0000FFFF)

/-- `mixIV(V)` (rule R230). X and CARRY are not changed. -/
def mixIV (V : Vector Byte 16) (r : Rabbit) : Rabbit :=
  { r with c := build 8 fun k => elt r.c k ^^^ ivWord V k }

/-- `ivSetup(V, mode)` (rule R231). -/
def ivSetup (canon : Bool) (V : Vector Byte 16) (r : Rabbit) : Rabbit :=
  repeatN (nextState canon) 4 (mixIV V r)

/-- The state key setup leaves (rules R229, R232, R234). -/
def keyedRabbit (s : State) : Rabbit := keySetup s.params.origCreinit s.rabbitCanon s.key

/-- The state key and IV setup leave (rules R231, R235). -/
def keyedIvRabbit (s : State) : Rabbit := ivSetup s.rabbitCanon s.nonce (keyedRabbit s)

/-- KS[0..15] <- block, KS[16..63] kept (rule R37). -/
def putBlock16 (ks : Vector Byte 64) (b : Vector Byte 16) : Vector Byte 64 :=
  build 64 fun k => if k < 16 then elt b k else elt ks k

/-- `body(RABBIT_INIT)` (rule R234). -/
def rabbitInitBody (s : State) : State := setRabbitValid true (setRabbit (keyedRabbit s) s)

/-- RABBIT_INIT (rule R234). NLEN is not checked. -/
def execRabbitInit (s : State) : Host.Outcome State Fault Refusal :=
  runCommand (fun s => [keyLenCheck 16 s]) rabbitInitBody s

/-- `body(RABBIT_INIT_IV)` (rule R235). -/
def rabbitInitIvBody (s : State) : State := setRabbitValid true (setRabbit (keyedIvRabbit s) s)

/-- RABBIT_INIT_IV (rule R235). -/
def execRabbitInitIv (s : State) : Host.Outcome State Fault Refusal :=
  runCommand (fun s => [keyLenCheck 16 s, nonceLenCheck 8 s]) rabbitInitIvBody s

/-- `body(RABBIT_NEXT)` (rule R236). -/
def rabbitNextBody (s : State) : State := setRabbit (nextState s.rabbitCanon s.rabbit) s

/-- RABBIT_NEXT (rule R236). -/
def execRabbitNext (s : State) : Host.Outcome State Fault Refusal :=
  runCommand (fun s => [rabbitValidCheck s]) rabbitNextBody s

/-- `body(RABBIT_EXTRACT)` (rule R237). -/
def rabbitExtractBody (s : State) : State := setKs (putBlock16 s.ks (extract s.rabbit.x)) s

/-- RABBIT_EXTRACT (rule R237). -/
def execRabbitExtract (s : State) : Host.Outcome State Fault Refusal :=
  runCommand (fun s => [rabbitValidCheck s]) rabbitExtractBody s

/-- `gen(t)` of the Rabbit driver (rule R238): one nextState, then extraction. -/
def rabbitTile (canon : Bool) (_t : Nat) (r : Rabbit) : Rabbit × Vector Byte 16 :=
  let r' := nextState canon r
  (r', extract r'.x)

/-- The state RABBIT_CRYPT starts its tiles from: key setup, and IV setup where NLEN = 8 (rules R239, R240). -/
def cryptRabbit (s : State) : Rabbit := if nonceLen s = 8 then keyedIvRabbit s else keyedRabbit s

/-- `body(RABBIT_CRYPT)` (rule R240). The last tile's block is `extract` of the last state, since `gen` ends
with it (rule R238; log 15). -/
def rabbitCryptBody (s : State) : State :=
  let r := xorTiles (rabbitTile s.rabbitCanon) (dataOff s) (dataLen s) (cryptRabbit s) s.dbuf
  let k := if dataLen s = 0 then s.ks else putBlock16 s.ks (extract r.1.x)
  setOlen s.dlen (setRabbitValid true (setKs k (setDbuf r.2 (setRabbit r.1 s))))

/-- RABBIT_CRYPT (rule R240). -/
def execRabbitCrypt (s : State) : Host.Outcome State Fault Refusal :=
  runCommand (fun s => [keyLenCheck 16 s, optionalIvCheck s, rangeCheck (dataLen s) s]) rabbitCryptBody s

end Sys2Proof.Machine
end

