-- ==== Sys2Proof/Machine/Rc4Family.lean ====
section
/-! DEFINITION. RC4: key scheduling, the PRGA, the pair function and the four RC4 commands (41_rc4.md). -/

namespace Sys2Proof.Machine

/-- `swap(P[p], P[q])` (rule R11). -/
def swapAt (P : Vector Byte 256) (p q : Byte) : Vector Byte 256 :=
  put (put P p.toNat (elt P q.toNat)) q.toNat (elt P p.toNat)

/-- The identity permutation, the KSA's start (rule R131). -/
def identityPerm : Vector Byte 256 := build 256 fun n => BitVec.ofNat 8 n

/-- One pass of the KSA's loop (rule R131): the permutation and the KSA's own j, at index `i`. -/
def ksaStep (K : Vector Byte 256) (L : Nat) (st : Vector Byte 256 × Byte) (i : Nat) :
    Vector Byte 256 × Byte :=
  let j := st.2 + elt st.1 i + elt K (i % L)
  (swapAt st.1 (BitVec.ofNat 8 i) j, j)

/-- `ksa(K, L)` (rule R131). The KSA's j starts at 0 (92_eei_decisions.md D22). -/
def ksa (K : Vector Byte 256) (L : Nat) : Vector Byte 256 :=
  ((List.range 256).foldl (ksaStep K L) (identityPerm, 0)).1

/-- `prga(P, i, j)` (rule R132): the new RC4 state and one keystream byte, read after the swap. -/
def prga (r : Rc4) : Rc4 × Byte :=
  let i := r.i + 1
  let j := r.j + elt r.s i.toNat
  let s := swapAt r.s i j
  ({ s := s, i := i, j := j }, elt s (elt s i.toNat + elt s j.toNat).toNat)

/-- The loop of RC4_PRGA and RC4_CRYPT (rules R135, R136): `n` PRGA steps, each byte XORed into DBUF at `a` and
on. -/
def prgaXor : Nat → Nat → Rc4 → Memory → Rc4 × Memory
  | 0, _, r, m => (r, m)
  | n + 1, a, r, m =>
    let p := prga r
    prgaXor n (a + 1) p.1 (memWrite m a (memRead m a ^^^ p.2))

/-- The RC4 state right after key scheduling: S <- ksa(KEY, KLEN), I <- 0, J <- 0 (rules R134, R136, R138). -/
def scheduledRc4 (s : State) : Rc4 := { s := ksa s.key (keyLen s), i := 0, j := 0 }

/-- The default `P_RC4W_PAIR` (rule R137): two consecutive PRGA steps. -/
def twoPrgaSteps (r : Rc4) : Rc4 × Byte × Byte :=
  let p := prga r
  let q := prga p.1
  (q.1, p.2, q.2)

/-- `pair(P, i, j)` (rule R137) under the chosen parameter. -/
def pairStep (p : PairChoice) (r : Rc4) : Rc4 × Byte × Byte :=
  match p with
  | .twoPrgaSteps => twoPrgaSteps r
  | .uninterpreted =>
    let o := Config.otherPair r.s r.i r.j
    ({ s := o.1, i := o.2.1, j := o.2.2.1 }, o.2.2.2.1, o.2.2.2.2)

/-- The loop of RC4W_CRYPT (rule R138) from tile `t` on. Past the data the second byte of a tile is the zero
pad byte. -/
def pairXor (p : PairChoice) (doff dlen : Nat) : Nat → Nat → Rc4 → Memory → Rc4 × Memory
  | 0, _, r, m => (r, m)
  | n + 1, t, r, m =>
    let k := pairStep p r
    let a := doff + 2 * t
    let d0 := memRead m a
    let d1 := if 2 * t + 1 < dlen then memRead m (a + 1) else 0x00
    pairXor p doff dlen n (t + 1) k.1 (memWrite (memWrite m a (d0 ^^^ k.2.1)) (a + 1) (d1 ^^^ k.2.2))

/-- `body(RC4_KSA)` (rule R134). -/
def rc4KsaBody (s : State) : State := setRc4Valid true (setRc4 (scheduledRc4 s) s)

/-- RC4_KSA (rule R134). -/
def execRc4Ksa (s : State) : Host.Outcome State Fault Refusal :=
  runCommand (fun s => [rc4KeyCheck s]) rc4KsaBody s

/-- `body(RC4_PRGA)` (rule R135). -/
def rc4PrgaBody (s : State) : State :=
  let r := prgaXor (dataLen s) (dataOff s) s.rc4 s.dbuf
  setOlen s.dlen (setDbuf r.2 (setRc4 r.1 s))

/-- RC4_PRGA (rule R135): the range check comes before RC4_VALID. -/
def execRc4Prga (s : State) : Host.Outcome State Fault Refusal :=
  runCommand (fun s => [rangeCheck (dataLen s) s, rc4ValidCheck s]) rc4PrgaBody s

/-- `body(RC4_CRYPT)` (rule R136). -/
def rc4CryptBody (s : State) : State :=
  let r := prgaXor (dataLen s) (dataOff s) (scheduledRc4 s) s.dbuf
  setOlen s.dlen (setRc4Valid true (setDbuf r.2 (setRc4 r.1 s)))

/-- RC4_CRYPT (rule R136). -/
def execRc4Crypt (s : State) : Host.Outcome State Fault Refusal :=
  runCommand (fun s => [rc4KeyCheck s, rangeCheck (dataLen s) s]) rc4CryptBody s

/-- `body(RC4W_CRYPT)` (rule R138). -/
def rc4wCryptBody (s : State) : State :=
  let r := pairXor s.params.rc4wPair (dataOff s) (dataLen s) (paddedLen s / 2) 0 (scheduledRc4 s) s.dbuf
  setOlen (BitVec.ofNat 32 (paddedLen s)) (setRc4Valid true (setDbuf r.2 (setRc4 r.1 s)))

/-- RC4W_CRYPT (rule R138): the range check covers the pad byte. -/
def execRc4wCrypt (s : State) : Host.Outcome State Fault Refusal :=
  runCommand (fun s => [rc4KeyCheck s, rangeCheck (paddedLen s) s]) rc4wCryptBody s

end Sys2Proof.Machine
end

