-- ==== Sys2Proof/Machine/SalsaFamily.lean ====
section
/-! DEFINITION. Salsa20: quarter-round, block function and the two commands (43_salsa20.md). -/

namespace Sys2Proof.Machine

/-- `salsaInit(K, N, ctr)` (rules R190, R191). -/
def salsaInit (K : Vector Byte 256) (N : Vector Byte 16) (ctr : DWord) : Vector Word 16 :=
  #v[elt sigma 0, le32 K 0, le32 K 4, le32 K 8,
     le32 K 12, elt sigma 1, le32 N 0, le32 N 4,
     lo32 ctr, hi32 ctr, elt sigma 2, le32 K 16,
     le32 K 20, le32 K 24, le32 K 28, elt sigma 3]

/-- The Salsa20 quarter-round on four words (rule R192). -/
def salsaQuarter (a b c d : Word) : Word × Word × Word × Word :=
  let b := b ^^^ rotl32 (add32 a d) 7
  let c := c ^^^ rotl32 (add32 b a) 9
  let d := d ^^^ rotl32 (add32 c b) 13
  let a := a ^^^ rotl32 (add32 d c) 18
  (a, b, c, d)

/-- `sqr(W, a, b, c, d)` (rule R192), on four distinct words. -/
def sqr (W : Vector Word 16) (a b c d : Nat) : Vector Word 16 :=
  let q := salsaQuarter (elt W a) (elt W b) (elt W c) (elt W d)
  put (put (put (put W a q.1) b q.2.1) c q.2.2.1) d q.2.2.2

/-- The column round of Salsa20 (rule R193). -/
def salsaColumnRound (W : Vector Word 16) : Vector Word 16 :=
  sqr (sqr (sqr (sqr W 0 4 8 12) 5 9 13 1) 10 14 2 6) 15 3 7 11

/-- The row round of Salsa20 (rule R194). -/
def salsaRowRound (W : Vector Word 16) : Vector Word 16 :=
  sqr (sqr (sqr (sqr W 0 1 2 3) 5 6 7 4) 10 11 8 9) 15 12 13 14

/-- `salsaDoubleRound` (rule R195): a column round, then a row round. -/
def salsaDoubleRound (W : Vector Word 16) : Vector Word 16 := salsaRowRound (salsaColumnRound W)

/-- `salsaBlock(K, N, ctr)` (rules R196, R197). -/
def salsaBlockFn (K : Vector Byte 256) (N : Vector Byte 16) (ctr : DWord) : Vector Byte 64 :=
  let ST := salsaInit K N ctr
  ser (addStates (repeatN salsaDoubleRound 10 ST) ST)

/-- Tile `t`'s keystream block of a Salsa20 call: the block at counter (CTR + t) mod 2^64, carrying from the
low into the high counter word (rules R199, R201). -/
def salsaTile (s : State) (t : Nat) : Vector Byte 64 :=
  salsaBlockFn s.key s.nonce (counter64 s + BitVec.ofNat 64 t)

/-- The Salsa20 key and nonce checks, in order (rule R198). -/
def salsaChecks (s : State) : List Check := [keyLenCheck 32 s, nonceLenCheck 8 s]

/-- `body(SALSA_BLOCK)` (rule R200). -/
def salsaBlockBody (s : State) : State := setKs (salsaBlockFn s.key s.nonce (counter64 s)) s

/-- SALSA_BLOCK (rule R200). -/
def execSalsaBlock (s : State) : Host.Outcome State Fault Refusal :=
  runCommand salsaChecks salsaBlockBody s

/-- `body(SALSA_CRYPT)` (rule R202). CTR_LO and CTR_HI are not written. -/
def salsaCryptBody (s : State) : State := blockCryptBody (salsaTile s) s

/-- SALSA_CRYPT (rule R202). -/
def execSalsaCrypt (s : State) : Host.Outcome State Fault Refusal :=
  runCommand (fun s => salsaChecks s ++ [rangeCheck (dataLen s) s]) salsaCryptBody s

end Sys2Proof.Machine
end

