-- ==== Sys2Proof/Machine/Dispatch.lean ====
section
/-! DEFINITION. What each command does when the engine performs it: one direct call of its meaning per
constructor. -/

namespace Sys2Proof.Machine

def exec (i : Instr) (s : State) : Host.Outcome State Fault Refusal :=
  match i with
  | .nop => Sys2Proof.Machine.execNop s
  | .zeroize => Sys2Proof.Machine.execZeroize s
  | .rc4Ksa => Sys2Proof.Machine.execRc4Ksa s
  | .rc4Prga => Sys2Proof.Machine.execRc4Prga s
  | .rc4Crypt => Sys2Proof.Machine.execRc4Crypt s
  | .rc4wCrypt => Sys2Proof.Machine.execRc4wCrypt s
  | .chachaBlock => Sys2Proof.Machine.execChachaBlock s
  | .chachaCrypt => Sys2Proof.Machine.execChachaCrypt s
  | .salsaBlock => Sys2Proof.Machine.execSalsaBlock s
  | .salsaCrypt => Sys2Proof.Machine.execSalsaCrypt s
  | .rabbitInit => Sys2Proof.Machine.execRabbitInit s
  | .rabbitInitIv => Sys2Proof.Machine.execRabbitInitIv s
  | .rabbitNext => Sys2Proof.Machine.execRabbitNext s
  | .rabbitExtract => Sys2Proof.Machine.execRabbitExtract s
  | .rabbitCrypt => Sys2Proof.Machine.execRabbitCrypt s

end Sys2Proof.Machine
end

