-- ==== Sys2Proof/Machine/Flags.lean ====
section
/-! DEFINITION. The flags of the engine as the host reads them (10_state.md rules R23, R24, R32, R33, R45): no
arithmetic sets a flag, so a flag computation is a field's place in its register. -/

namespace Sys2Proof.Machine

/-- The code of an error (rule R261). -/
def errCode : ErrCode → Nat
  | .ok => 0
  | .invalidKeyLength => 1
  | .invalidNonceLength => 2
  | .illegalCommand => 3
  | .bufferRange => 4
  | .notInitialized => 5

/-- STATUS (rule R23): BUSY at bit 0, ERR at 11:8, RC4_VALID at 16, RABBIT_VALID at 17, the rest 0. -/
def statusWord (s : State) : Word :=
  (BitVec.ofBool s.busy).setWidth 32 ||| (BitVec.ofNat 32 (errCode s.err) <<< 8)
    ||| ((BitVec.ofBool s.rc4Valid).setWidth 32 <<< 16)
    ||| ((BitVec.ofBool s.rabbitValid).setWidth 32 <<< 17)

/-- CTRL (rule R24): RABBIT_CANON at bit 0, the rest 0. -/
def ctrlWord (s : State) : Word := (BitVec.ofBool s.rabbitCanon).setWidth 32

/-- RC4_IJ (rule R32): I at 7:0, J at 15:8, the rest 0. -/
def rc4IjWord (s : State) : Word := s.rc4.i.setWidth 32 ||| (s.rc4.j.setWidth 32 <<< 8)

/-- RABBIT_CARRY (rule R33): CARRY at bit 0, the rest 0. -/
def rabbitCarryWord (s : State) : Word := (BitVec.ofBool s.rabbit.carry).setWidth 32

end Sys2Proof.Machine
end

