-- ==== Sys2Proof/Machine/HostPort.lean ====
section
/-! DEFINITION. The host's side: the register map (10_state.md section 1), what a 32-bit read or write does
(20_memory.md rules R60 to R62, R67, R73), and a host turn. -/

namespace Sys2Proof.Machine

/-- What stands at an aligned offset of the register space (10_state.md section 1). A byte window carries the
byte index of the word, a word window the lane. -/
inductive Loc where
  | id
  | cmd
  | status
  | ctrl
  | klen
  | nlen
  | ctrLo
  | ctrHi
  | doff
  | dlen
  | olen
  | rc4Ij
  | rabbitCarry
  | key (o : Nat)
  | nonce (o : Nat)
  | ks (o : Nat)
  | s (o : Nat)
  | x (k : Nat)
  | c (k : Nat)
  | dbuf (a : Nat)
  | reserved
  deriving DecidableEq, Repr

/-- The registers below 0x100 (10_state.md section 1). -/
def locateRegister (off : Nat) : Loc :=
  match off with
  | 0x000 => .id
  | 0x004 => .cmd
  | 0x008 => .status
  | 0x00C => .ctrl
  | 0x010 => .klen
  | 0x014 => .nlen
  | 0x018 => .ctrLo
  | 0x01C => .ctrHi
  | 0x020 => .doff
  | 0x024 => .dlen
  | 0x028 => .olen
  | 0x02C => .rc4Ij
  | 0x030 => .rabbitCarry
  | _ => .reserved

/-- The register map (10_state.md section 1; reserved offsets: rule R34), at an aligned offset in the span. -/
def locate (off : Nat) : Loc :=
  if off < 0x100 then locateRegister off
  else if off < 0x200 then .key (off - 0x100)
  else if off < 0x210 then .nonce (off - 0x200)
  else if off < 0x240 then .reserved
  else if off < 0x280 then .ks (off - 0x240)
  else if off < 0x300 then .reserved
  else if off < 0x400 then .s (off - 0x300)
  else if off < 0x420 then .x ((off - 0x400) / 4)
  else if off < 0x440 then .c ((off - 0x420) / 4)
  else if off < 0x1000 then .reserved
  else .dbuf (off - 0x1000)

/-- The engine's span (rule R60): how many bytes from `P_BASE` on are the engine's. -/
def spanBytes (p : Params) : Nat := registerBlockBytes + p.dbufBytes

/-- What a host address reaches (rules R60, R61): an aligned offset inside the span, or a breach of the host
protocol (rule R273 item 2). -/
def resolve (p : Params) (addr : Nat) : Except Fault Loc :=
  if addr < p.base ∨ spanBytes p ≤ addr - p.base then .error (.outOfSpanAccess addr)
  else if (addr - p.base) % 4 ≠ 0 then .error (.misalignedAccess addr)
  else .ok (locate (addr - p.base))

/-- The value an idle engine gives a read (rules R21 to R34, R62). CMD and reserved offsets read 0. -/
def idleRead (s : State) : Loc → Word
  | .id => idWord
  | .cmd => 0
  | .status => statusWord s
  | .ctrl => ctrlWord s
  | .klen => s.klen.setWidth 32
  | .nlen => s.nlen.setWidth 32
  | .ctrLo => s.ctrLo
  | .ctrHi => s.ctrHi
  | .doff => s.doff
  | .dlen => s.dlen
  | .olen => s.olen
  | .rc4Ij => rc4IjWord s
  | .rabbitCarry => rabbitCarryWord s
  | .key o => le32 s.key o
  | .nonce o => le32 s.nonce o
  | .ks o => le32 s.ks o
  | .s o => le32 s.rc4.s o
  | .x k => elt s.rabbit.x k
  | .c k => elt s.rabbit.c k
  | .dbuf a => memReadWord s.dbuf a
  | .reserved => 0

/-- The value a host read gives. While BUSY = 1 only STATUS reads as itself; the rest reads 0 (rule R73). -/
def hostRead (s : State) (l : Loc) : Word :=
  if s.busy then (if l = .status then statusWord s else 0) else idleRead s l

/-- A host write to an idle engine (rules R22, R24 to R30, R35, R36, R41, R62). Writes to read-only and reserved
places, and to reserved bits, are ignored (rule R34). -/
def idleWrite (l : Loc) (w : Word) (s : State) : State :=
  match l with
  | .cmd => issue w s
  | .ctrl => { s with rabbitCanon := w.getLsbD 0 }
  | .klen => { s with klen := w.extractLsb' 0 9 }
  | .nlen => { s with nlen := w.extractLsb' 0 5 }
  | .ctrLo => { s with ctrLo := w }
  | .ctrHi => { s with ctrHi := w }
  | .doff => { s with doff := w }
  | .dlen => { s with dlen := w }
  | .key o => { s with key := putWord s.key o w }
  | .nonce o => { s with nonce := putWord s.nonce o w }
  | .dbuf a => setDbuf (memWriteWord s.dbuf a w) s
  | .id | .status | .olen | .rc4Ij | .rabbitCarry | .ks _ | .s _ | .x _ | .c _ | .reserved => s

/-- A host write. While BUSY = 1 it is ignored (rule R73). -/
def hostWrite (l : Loc) (w : Word) (s : State) : State := if s.busy then s else idleWrite l w s

/-- A host read as a step of the host: its value is logged, nothing else changes (rule R67). -/
def hostReadOp (addr : Nat) (rest : List HostOp) (s : State) : Host.Outcome State Fault Refusal :=
  match resolve s.params addr with
  | .error f => .fault f
  | .ok l => .next (setScript rest (logRead (hostRead s l) s))

/-- A host write as a step of the host. -/
def hostWriteOp (addr : Nat) (w : Word) (rest : List HostOp) (s : State) :
    Host.Outcome State Fault Refusal :=
  match resolve s.params addr with
  | .error f => .fault f
  | .ok l => .next (setScript rest (hostWrite l w s))

/-- One read of `poll` (rule R88): `rd STATUS`, made again while bit 0 of the result is 1. -/
def hostPollOp (rest : List HostOp) (s : State) : Host.Outcome State Fault Refusal :=
  let v := hostRead s .status
  .next (setScript (if v.getLsbD 0 then .poll :: rest else rest) (logRead v s))

/-- The host's turn: its next operation, if it has one (rules R6, R68, R87). -/
def hostTurn (s : State) : Host.Outcome State Fault Refusal :=
  match s.script with
  | [] => .next s
  | .rd addr :: rest => hostReadOp addr rest s
  | .wr addr w :: rest => hostWriteOp addr w rest s
  | .poll :: rest => hostPollOp rest s

end Sys2Proof.Machine
end

