-- ==== Sys2Proof/Machine/Step.lean ====
section
/-! DEFINITION. One step of the machine: the engine performs the pending command, or the host makes its next
operation, or the platform resets the engine (70_reset_and_hazards.md rules R280, R286). -/

namespace Sys2Proof.Machine

/-- `execute()` (rule R107): decode PENDING, then run the command or end it as ILLEGAL. -/
def perform (s : State) : Host.Outcome State Fault Refusal :=
  match decode s.pending with
  | .ok i => exec i s
  | .error _ => illegalCommand s

/-- The engine's turn: its perform step is enabled exactly when BUSY = 1 (rule R286); otherwise it is idle (log 9). -/
def engineTurn (s : State) : Host.Outcome State Fault Refusal :=
  if s.busy then perform s else .next s

/-- One step. The turn list says who moves; when it is used up the engine moves if it is busy (so every issued
command is performed, rule R294) and the host moves otherwise (log 4). -/
def step (s : State) : Host.Outcome State Fault Refusal :=
  match s.turns with
  | .host :: rest => hostTurn (setTurns rest s)
  | .engine :: rest => engineTurn (setTurns rest s)
  | .reset :: rest => .next (platformReset (setTurns rest s))
  | [] => if s.busy then engineTurn s else hostTurn s

/-- `s` with the command word `w` latched in PENDING and handed to the engine (rules R22, R43), so that the next
step performs it: nothing is left in the turn list, so the engine moves next (log 5). -/
def State.withFetchWord (s : State) (nbits w : Nat) : State :=
  { s with pending := BitVec.ofNat 32 (w % 2 ^ nbits), busy := true, turns := [] }

end Sys2Proof.Machine
end

