-- ==== Sys2Proof/Machine/Script.lean ====
section
/-! DEFINITION. Host script notation (30_encoding.md rules R87, R88): the named places of the register map and
the pseudo-operations as lists of host operations. -/

namespace Sys2Proof.Machine

/-- A name a script may use for a place (10_state.md section 1). -/
inductive Place where
  | id
  | cmd
  | status
  | ctrl
  | klen
  | nlen
  | ctrLo
  | ctrHi
  | doff
  | dlen
  | olen
  | rc4Ij
  | rabbitCarry
  | key
  | nonce
  | ks
  | s
  | x
  | c
  | dbuf
  deriving DecidableEq, Repr

/-- The offset of a place from `P_BASE` (10_state.md section 1). -/
def placeOffset : Place → Nat
  | .id => 0x000
  | .cmd => 0x004
  | .status => 0x008
  | .ctrl => 0x00C
  | .klen => 0x010
  | .nlen => 0x014
  | .ctrLo => 0x018
  | .ctrHi => 0x01C
  | .doff => 0x020
  | .dlen => 0x024
  | .olen => 0x028
  | .rc4Ij => 0x02C
  | .rabbitCarry => 0x030
  | .key => 0x100
  | .nonce => 0x200
  | .ks => 0x240
  | .s => 0x300
  | .x => 0x400
  | .c => 0x420
  | .dbuf => 0x1000

/-- The host address of byte `o` of a place (rule R60). -/
def placeAddr (p : Params) (n : Place) (o : Nat) : Nat := p.base + (placeOffset n + o)

/-- `wr NAME+o, v` (rule R87). -/
def scriptWr (p : Params) (n : Place) (o : Nat) (v : Word) : List HostOp := [.wr (placeAddr p n o) v]

/-- `rd NAME+o` (rule R87). -/
def scriptRd (p : Params) (n : Place) (o : Nat) : List HostOp := [.rd (placeAddr p n o)]

/-- `poll` (rule R88). -/
def scriptPoll : List HostOp := [.poll]

/-- `cmd MNEMONIC` (rule R88): `wr CMD, OP; poll`. -/
def scriptCmd (p : Params) (i : Instr) : List HostOp := scriptWr p .cmd 0 (encode i) ++ scriptPoll

/-- The `m`-th word `wrb` writes: a byte at or past the end of the list reads as 0x00 (rule R88). -/
def wrbWord (bs : List Byte) (m : Nat) : Word :=
  wordOfBytes (bs.getD (4 * m) 0) (bs.getD (4 * m + 1) 0) (bs.getD (4 * m + 2) 0) (bs.getD (4 * m + 3) 0)

/-- `wrb WIN+o, b0 b1 …` (rule R88). -/
def scriptWrb (p : Params) (n : Place) (o : Nat) (bs : List Byte) : List HostOp :=
  (List.range ((bs.length + 3) / 4)).map fun m => .wr (placeAddr p n (o + 4 * m)) (wrbWord bs m)

/-- `wrs WIN+o, "text"` (rule R88). -/
def scriptWrs (p : Params) (n : Place) (o : Nat) (text : String) : List HostOp :=
  scriptWrb p n o (text.toList.map fun ch => BitVec.ofNat 8 ch.toNat)

/-- How many words cover bytes o..o+n-1. -/
def coverCount (o n : Nat) : Nat := if n = 0 then 0 else (o + n - 1) / 4 - o / 4 + 1

/-- `rdb WIN+o, n` (rule R88): the reads that cover bytes o..o+n-1. -/
def scriptRdb (p : Params) (win : Place) (o n : Nat) : List HostOp :=
  (List.range (coverCount o n)).map fun m => .rd (placeAddr p win (4 * (o / 4 + m)))

/-- The bytes `rdb WIN+o, n` shows, from the words its reads returned (rule R88). -/
def rdbBytes (o n : Nat) (ws : List Word) : List Byte :=
  (List.range n).map fun k => byteOf (ws.getD ((o % 4 + k) / 4) 0) ((o % 4 + k) % 4)

end Sys2Proof.Machine
end

