-- ==== Sys2Proof/WellFormed.lean ====
section
/-! DEFINITION. Well-formedness checks: of a command, of a 32-bit command word (30_encoding.md rules R81, R84)
and of the parameters (00_scope.md rule R8). -/

namespace Sys2Proof

/-- Every command is well formed: a command has no operand field that could hold an illegal value
(rule R82). What can be ill formed is the word that should encode one, `wordWf`. -/
def Instr.wf : Instr → Bool
  | .nop | .zeroize | .rc4Ksa | .rc4Prga | .rc4Crypt | .rc4wCrypt | .chachaBlock | .chachaCrypt
  | .salsaBlock | .salsaCrypt | .rabbitInit | .rabbitInitIv | .rabbitNext | .rabbitExtract
  | .rabbitCrypt => true

/-- The fifteen OP values of rule R83, in the table's order. -/
def definedOps : List Nat :=
  [0x00, 0x01, 0x10, 0x11, 0x12, 0x13, 0x20, 0x21, 0x30, 0x31, 0x40, 0x41, 0x42, 0x43, 0x44]

/-- A command word is legal: MBZ is zero and OP is one of the fifteen values (rule R84). -/
def wordWf (w : Word) : Bool :=
  w.toNat / 256 == 0 && definedOps.contains (w.toNat % 256)

/-- The bounds rule R8 puts on the parameters. -/
def Params.wf (p : Params) : Bool :=
  p.base % 0x1000 == 0 && p.dbufBytes % 4 == 0 && decide (64 ≤ p.dbufBytes)
    && decide (p.dbufBytes ≤ 1048576)

end Sys2Proof
end

