-- ==== Sys2Proof/Safety.lean ====
section
/-! DEFINITION. The terms claims are stated in: when a command executes normally and which code it gives where it
does not (60_exceptions.md), the keystream byte that meets each data byte, the host's duties, the invariant of
the machine, and runs of commands. Everything here is written from the rules and not from the meanings. -/

namespace Sys2Proof.Machine

/-! ## When a command executes normally (60_exceptions.md rules R261, R262) -/

/-- KLEN meets the command's key requirement. -/
def keyMeets (i : Instr) (s : State) : Bool :=
  match i with
  | .rc4Ksa | .rc4Crypt | .rc4wCrypt => decide (1 ≤ s.klen.toNat ∧ s.klen.toNat ≤ 256)
  | .chachaBlock | .chachaCrypt | .salsaBlock | .salsaCrypt => decide (s.klen.toNat = 32)
  | .rabbitInit | .rabbitInitIv | .rabbitCrypt => decide (s.klen.toNat = 16)
  | .nop | .zeroize | .rc4Prga | .rabbitNext | .rabbitExtract => true

/-- NLEN meets the command's nonce or IV requirement. -/
def nonceMeets (i : Instr) (s : State) : Bool :=
  match i with
  | .chachaBlock | .chachaCrypt => decide (s.nlen.toNat = 12)
  | .salsaBlock | .salsaCrypt | .rabbitInitIv => decide (s.nlen.toNat = 8)
  | .rabbitCrypt => decide (s.nlen.toNat = 0 ∨ s.nlen.toNat = 8)
  | .nop | .zeroize | .rc4Ksa | .rc4Prga | .rc4Crypt | .rc4wCrypt | .rabbitInit | .rabbitNext
  | .rabbitExtract => true

/-- How many bytes of DBUF, from DOFF on, a data command needs and writes; none for the other commands
(rules R31, R74). -/
def outLen (i : Instr) (s : State) : Option Nat :=
  match i with
  | .rc4Prga | .rc4Crypt | .chachaCrypt | .salsaCrypt | .rabbitCrypt => some s.dlen.toNat
  | .rc4wCrypt => some (s.dlen.toNat + s.dlen.toNat % 2)
  | .nop | .zeroize | .rc4Ksa | .chachaBlock | .salsaBlock | .rabbitInit | .rabbitInitIv | .rabbitNext
  | .rabbitExtract => none

/-- The data range lies in DBUF. -/
def rangeMeets (i : Instr) (s : State) : Bool :=
  match outLen i s with
  | some n => decide (s.doff.toNat + n ≤ s.params.dbufBytes)
  | none => true

/-- The state a streaming command continues from exists. -/
def initMeets (i : Instr) (s : State) : Bool :=
  match i with
  | .rc4Prga => s.rc4Valid
  | .rabbitNext | .rabbitExtract => s.rabbitValid
  | .nop | .zeroize | .rc4Ksa | .rc4Crypt | .rc4wCrypt | .chachaBlock | .chachaCrypt | .salsaBlock
  | .salsaCrypt | .rabbitInit | .rabbitInitIv | .rabbitCrypt => true

/-- The command executes normally: every requirement on it is met. -/
def runs (i : Instr) (s : State) : Bool :=
  keyMeets i s && nonceMeets i s && rangeMeets i s && initMeets i s

/-- The code a legal command reports, by the priority of rule R264. -/
def expectedCode (i : Instr) (s : State) : ErrCode :=
  if !keyMeets i s then .invalidKeyLength
  else if !nonceMeets i s then .invalidNonceLength
  else if !rangeMeets i s then .bufferRange
  else if !initMeets i s then .notInitialized
  else .ok

/-! ## Keystreams -/

/-- The RC4 state after `n` PRGA steps (rule R132). -/
def rc4After (n : Nat) (r : Rc4) : Rc4 := repeatN (fun q => (prga q).1) n r

/-- The RC4 state after `n` pair steps (rule R137). -/
def pairAfter (p : PairChoice) (n : Nat) (r : Rc4) : Rc4 := repeatN (fun q => (pairStep p q).1) n r

/-- Keystream byte `n` of the byte-wise variant from an RC4 state on. -/
def rc4Byte (r : Rc4) (n : Nat) : Byte := (prga (rc4After n r)).2

/-- Keystream byte `n` of the 2-byte variant from an RC4 state on: the first byte of a pair meets the even
position. -/
def pairByte (p : PairChoice) (r : Rc4) (n : Nat) : Byte :=
  let k := (pairStep p (pairAfter p (n / 2) r)).2
  if n % 2 = 0 then k.1 else k.2

/-- Keystream byte `n` of a ChaCha20 call: byte n mod 64 of the block at counter (CTR_LO + n / 64) mod 2^32
(rule R170). -/
def chachaByte (s : State) (n : Nat) : Byte :=
  elt (chachaBlockFn s.key s.nonce (BitVec.ofNat 32 ((s.ctrLo.toNat + n / 64) % 2 ^ 32))) (n % 64)

/-- The Salsa20 starting counter as a number (rule R199). -/
def salsaCounter (s : State) : Nat := s.ctrHi.toNat * 2 ^ 32 + s.ctrLo.toNat

/-- Keystream byte `n` of a Salsa20 call: byte n mod 64 of the block at counter (CTR + n / 64) mod 2^64
(rule R199). -/
def salsaByte (s : State) (n : Nat) : Byte :=
  elt (salsaBlockFn s.key s.nonce (BitVec.ofNat 64 ((salsaCounter s + n / 64) % 2 ^ 64))) (n % 64)

/-- The Rabbit state after `n` next-state steps. -/
def rabbitAfter (canon : Bool) (n : Nat) (r : Rabbit) : Rabbit := repeatN (nextState canon) n r

/-- Keystream byte `n` of a Rabbit call from a set-up state on: byte n mod 16 of the block extracted after
n / 16 + 1 next-state steps (rule R238). -/
def rabbitByte (canon : Bool) (r : Rabbit) (n : Nat) : Byte :=
  elt (extract (rabbitAfter canon (n / 16 + 1) r).x) (n % 16)

/-- The keystream byte a data command combines with byte `n` of its data; 0 for the other commands. -/
def streamByte (i : Instr) (s : State) (n : Nat) : Byte :=
  match i with
  | .rc4Prga => rc4Byte s.rc4 n
  | .rc4Crypt => rc4Byte (scheduledRc4 s) n
  | .rc4wCrypt => pairByte s.params.rc4wPair (scheduledRc4 s) n
  | .chachaCrypt => chachaByte s n
  | .salsaCrypt => salsaByte s n
  | .rabbitCrypt => rabbitByte s.rabbitCanon (cryptRabbit s) n
  | .nop | .zeroize | .rc4Ksa | .chachaBlock | .salsaBlock | .rabbitInit | .rabbitInitIv | .rabbitNext
  | .rabbitExtract => 0

/-- The data byte at place `n` of the data: the byte in DBUF, or the zero pad byte past DLEN (rule R138). -/
def dataByte (s : State) (n : Nat) : Byte :=
  if n < s.dlen.toNat then memRead s.dbuf (s.doff.toNat + n) else 0

/-- What DBUF reads as after a data command that writes `len` bytes of output with keystream `k`: data XOR
keystream inside [DOFF, DOFF + len), the old byte everywhere else. -/
def dataResult (s : State) (len : Nat) (k : Nat → Byte) (a : Nat) : Byte :=
  if s.doff.toNat ≤ a ∧ a < s.doff.toNat + len then
    dataByte s (a - s.doff.toNat) ^^^ k (a - s.doff.toNat)
  else memRead s.dbuf a

/-! ## Permutations, the host's duties and the invariant -/

/-- S is a permutation of 0..255 (rule R38). -/
def IsPerm (S : Vector Byte 256) : Prop :=
  List.Perm S.toArray.toList ((List.range 256).map fun n => BitVec.ofNat 8 n)

/-- An access the host may make: aligned and inside the engine's span (rule R287 item 2). -/
def addrOk (p : Params) (addr : Nat) : Bool :=
  decide (p.base ≤ addr) && decide (addr - p.base < 0x1000 + p.dbufBytes) && (addr - p.base) % 4 == 0

/-- A host operation that keeps the protocol. -/
def opOk (p : Params) : HostOp → Bool
  | .rd addr => addrOk p addr
  | .wr addr _ => addrOk p addr
  | .poll => true

/-- The host makes only accesses the protocol allows (rule R287 item 2). -/
def hostDuty (s : State) : Bool := s.script.all (opOk s.params)

/-- A run of a host program is over (rule R295): the host has made its last operation and no command is
pending. -/
def runOver (s : State) : Bool := s.script.isEmpty && !s.busy

/-- The launch premises of rule R285 that a state can show: idle at the start and no reset to come. -/
def launchPremises (s : State) : Bool := !s.busy && !s.turns.contains .reset

/-- The RC4 state of reset and ZEROIZE. -/
def zeroRc4 : Rc4 := { s := Vector.replicate 256 0, i := 0, j := 0 }

/-- The Rabbit state of reset and ZEROIZE. -/
def zeroRabbit : Rabbit := { x := Vector.replicate 8 0, c := Vector.replicate 8 0, carry := false }

/-- The invariant every step keeps. -/
structure Inv (s : State) : Prop where
  /-- the parameters are legal (rule R8) -/
  params : s.params.wf = true
  /-- DBUF is in canonical form -/
  canonical : Memory.wf s.dbuf = true
  /-- nothing is listed outside DBUF (rule R41) -/
  inside : memBelow s.params.dbufBytes s.dbuf = true
  /-- OLEN never exceeds the buffer (rule R31) -/
  olen : s.olen.toNat ≤ s.params.dbufBytes
  /-- a valid RC4 state is a permutation, under the default pair function (rule R38) -/
  perm : s.params.rc4wPair = .twoPrgaSteps → s.rc4Valid = true → IsPerm s.rc4.s
  /-- with no valid RC4 state S, I and J are zero (rule R38) -/
  rc4Zero : s.rc4Valid = false → s.rc4 = zeroRc4
  /-- with no valid Rabbit state X, C and CARRY are zero (rules R39, R40) -/
  rabbitZero : s.rabbitValid = false → s.rabbit = zeroRabbit

/-! ## Runs of commands -/

/-- One command, or nothing where it does not answer a next state. -/
def execNext (i : Instr) (s : State) : Option State :=
  match exec i s with
  | .next t => some t
  | .fault _ => none
  | .refused _ => none

/-- A list of commands, one after another, the host changing nothing between them. -/
def execAll : List Instr → State → Option State
  | [], s => some s
  | i :: is, s => (execNext i s).bind (execAll is)

/-- A fresh data range: DOFF and DLEN. -/
def withRange (off len : Nat) (s : State) : State :=
  { s with doff := BitVec.ofNat 32 off, dlen := BitVec.ofNat 32 len }

end Sys2Proof.Machine
end

