-- ==== Sys2Proof/Certificates/Slice0/Obligations.lean ====
section
/-! DEFINITION. The statements for the provers. Premises on the state are of three kinds: what a command needs to
execute normally (`runs`), the canonical form of DBUF and legal parameters (parts of `Inv`, which every step
keeps), and what the host's next operation is. -/

open Sys2Proof Sys2Proof.Machine

/-! ## Encoding (30_encoding.md) -/

/-- Words written out from the table of rule R83, and two illegal words, decode as the table says. -/
def Obligations.DecodeReadsTheTableWords : Prop :=
  decode 0x00000000 = .ok .nop ∧ decode 0x00000001 = .ok .zeroize ∧ decode 0x00000010 = .ok .rc4Ksa ∧
  decode 0x00000013 = .ok .rc4wCrypt ∧ decode 0x00000021 = .ok .chachaCrypt ∧
  decode 0x00000030 = .ok .salsaBlock ∧ decode 0x00000041 = .ok .rabbitInitIv ∧
  decode 0x00000044 = .ok .rabbitCrypt ∧ decode 0x00000112 = .error .mbzNotZero ∧
  decode 0x00000045 = .error (.reservedOp 0x45)

/-- Decoding the word of a command gives the command back. -/
def Obligations.DecodeOfEncodeIsTheCommand : Prop := ∀ i : Instr, decode (encode i) = .ok i

/-- A word decodes to a command exactly when it is that command's word: no second spelling exists. -/
def Obligations.OnlyTheEncodedWordDecodes : Prop :=
  ∀ (w : Word) (i : Instr), decode w = .ok i ↔ w = encode i

/-- Rule R84: which words are illegal, that the reserved OP values are the listed ones, and that an illegal word
completes with ILLEGAL_COMMAND (code 3) and changes nothing else. -/
def Obligations.IllegalWordsCompleteWithCode3 : Prop :=
  errCode .illegalCommand = 3 ∧
  (∀ op, op < 256 → (op ∉ definedOps ↔
    (0x02 ≤ op ∧ op ≤ 0x0F) ∨ (0x14 ≤ op ∧ op ≤ 0x1F) ∨ (0x22 ≤ op ∧ op ≤ 0x2F) ∨
    (0x32 ≤ op ∧ op ≤ 0x3F) ∨ (0x45 ≤ op ∧ op ≤ 0xFF))) ∧
  (∀ w : Word, (∃ e, decode w = .error e) ↔ w.toNat / 256 ≠ 0 ∨ w.toNat % 256 ∉ definedOps) ∧
  ∀ s : State, s.busy = true → (s.pending.toNat / 256 ≠ 0 ∨ s.pending.toNat % 256 ∉ definedOps) →
    engineTurn s = .next { s with err := .illegalCommand, busy := false }

/-! ## Steps and the host protocol (20_memory.md, 70_reset_and_hazards.md) -/

/-- When PENDING decodes to a command and the engine moves, the step is that command's meaning: with no turn
listed in the same state, and on a listed engine turn in the state with that turn taken off the list. The turn list
is the model's own (log 4). -/
def Obligations.EngineStepRunsTheDecodedCommand : Prop :=
  ∀ (s : State) (i : Instr), s.busy = true → decode s.pending = .ok i →
    (s.turns = [] → step s = exec i s) ∧
    ∀ rest, s.turns = .engine :: rest → step s = exec i (setTurns rest s)

/-- Rule R22: a write of CMD while idle latches PENDING, sets BUSY and hands the command to the engine, with no
other effect; a write while busy is ignored; CMD reads 0. -/
def Obligations.CmdWriteIssuesTheCommand : Prop :=
  ∀ (s : State) (w : Word) (rest : List HostOp),
    (s.busy = false → s.script = .wr (s.params.base + 4) w :: rest →
      hostTurn s = .next { s with pending := w, busy := true, script := rest }) ∧
    (s.busy = true → s.script = .wr (s.params.base + 4) w :: rest →
      hostTurn s = .next { s with script := rest }) ∧
    (s.script = .rd (s.params.base + 4) :: rest →
      hostTurn s = .next { s with script := rest, reads := s.reads ++ [0] }) ∧
    (s.busy = true → engineTurn s = perform s)

/-- Rule R73: while BUSY = 1 STATUS reads its current value, with bit 0 set, every other place reads 0, and
every write is ignored. -/
def Obligations.BusyEngineHidesItsState : Prop :=
  ∀ (s : State) (addr : Nat) (rest : List HostOp), s.busy = true → addrOk s.params addr = true →
    (statusWord s).getLsbD 0 = true ∧
    (s.script = .rd addr :: rest →
      hostTurn s = .next { s with
        script := rest
        reads := s.reads ++ [if addr = s.params.base + 8 then statusWord s else 0] }) ∧
    (∀ w, s.script = .wr addr w :: rest → hostTurn s = .next { s with script := rest })

/-- Rules R23 and R261: where the fields of STATUS stand, that every other bit reads 0, and the number of each
error code. That the reserved codes 6 to 15 cannot be held is the model's reading (log 11). -/
def Obligations.StatusFieldsStandInPlace : Prop :=
  ∀ s : State,
    (statusWord s).getLsbD 0 = s.busy ∧
    (statusWord s).extractLsb' 8 4 = BitVec.ofNat 4 (errCode s.err) ∧
    (statusWord s).getLsbD 16 = s.rc4Valid ∧ (statusWord s).getLsbD 17 = s.rabbitValid ∧
    statusWord s &&& 0xFFFCF0FE = 0 ∧
    errCode .ok = 0 ∧ errCode .invalidKeyLength = 1 ∧ errCode .invalidNonceLength = 2 ∧
    errCode .illegalCommand = 3 ∧ errCode .bufferRange = 4 ∧ errCode .notInitialized = 5

/-- Rule R34: reserved offsets read 0 and ignore writes; reserved bits read 0 and ignore writes; writes to
read-only places are ignored; none of these raises an error or changes STATUS. -/
def Obligations.ReservedAndReadOnlyPlacesIgnoreWrites : Prop :=
  (∀ (s : State) (addr off : Nat) (w : Word) (rest : List HostOp), s.busy = false →
    addrOk s.params addr = true → off = addr - s.params.base →
    (((0x034 ≤ off ∧ off < 0x100) ∨ (0x210 ≤ off ∧ off < 0x240) ∨ (0x280 ≤ off ∧ off < 0x300) ∨
        (0x440 ≤ off ∧ off < 0x1000)) →
      (s.script = .rd addr :: rest →
        hostTurn s = .next { s with script := rest, reads := s.reads ++ [0] }) ∧
      (s.script = .wr addr w :: rest → hostTurn s = .next { s with script := rest })) ∧
    ((off = 0x000 ∨ off = 0x008 ∨ off = 0x028 ∨ off = 0x02C ∨ off = 0x030 ∨
        (0x240 ≤ off ∧ off < 0x280) ∨ (0x300 ≤ off ∧ off < 0x440)) →
      s.script = .wr addr w :: rest → hostTurn s = .next { s with script := rest })) ∧
  (∀ s : State,
    statusWord s &&& 0xFFFCF0FE = 0 ∧ hostRead s .ctrl &&& 0xFFFFFFFE = 0 ∧
    hostRead s .klen &&& 0xFFFFFE00 = 0 ∧ hostRead s .nlen &&& 0xFFFFFFE0 = 0 ∧
    hostRead s .rc4Ij &&& 0xFFFF0000 = 0 ∧ hostRead s .rabbitCarry &&& 0xFFFFFFFE = 0) ∧
  ∀ (s : State) (w w' : Word),
    (w &&& 0x00000001 = w' &&& 0x00000001 → hostWrite .ctrl w s = hostWrite .ctrl w' s) ∧
    (w &&& 0x000001FF = w' &&& 0x000001FF → hostWrite .klen w s = hostWrite .klen w' s) ∧
    (w &&& 0x0000001F = w' &&& 0x0000001F → hostWrite .nlen w s = hostWrite .nlen w' s)

/-- Rules R21 and R24 to R30: what a write to each host-written register stores, what it reads back as, and the
constant ID. -/
def Obligations.HostRegistersStoreWhatIsWritten : Prop :=
  ∀ (s : State) (w : Word), s.busy = false →
    hostRead s (locate 0x000) = 0x53434531 ∧
    hostWrite (locate 0x00C) w s = { s with rabbitCanon := w.getLsbD 0 } ∧
    hostWrite (locate 0x010) w s = { s with klen := BitVec.ofNat 9 (w.toNat % 512) } ∧
    hostWrite (locate 0x014) w s = { s with nlen := BitVec.ofNat 5 (w.toNat % 32) } ∧
    hostWrite (locate 0x018) w s = { s with ctrLo := w } ∧
    hostWrite (locate 0x01C) w s = { s with ctrHi := w } ∧
    hostWrite (locate 0x020) w s = { s with doff := w } ∧
    hostWrite (locate 0x024) w s = { s with dlen := w } ∧
    hostRead (hostWrite (locate 0x00C) w s) (locate 0x00C) = w &&& 0x00000001 ∧
    hostRead (hostWrite (locate 0x010) w s) (locate 0x010) = w &&& 0x000001FF ∧
    hostRead (hostWrite (locate 0x014) w s) (locate 0x014) = w &&& 0x0000001F ∧
    hostRead (hostWrite (locate 0x018) w s) (locate 0x018) = w ∧
    hostRead (hostWrite (locate 0x01C) w s) (locate 0x01C) = w ∧
    hostRead (hostWrite (locate 0x020) w s) (locate 0x020) = w ∧
    hostRead (hostWrite (locate 0x024) w s) (locate 0x024) = w

/-- Rule R62, reading: each byte window packs four bytes little-endian into a host word, each word window holds
one lane per word, and a register bit is the host word's bit of the same number. -/
def Obligations.WindowReadsAreLittleEndian : Prop :=
  ∀ (s : State) (m : Nat), s.busy = false →
    (m < 64 → hostRead s (locate (0x100 + 4 * m)) =
      (elt s.key (4 * m)).setWidth 32 ||| (elt s.key (4 * m + 1)).setWidth 32 <<< 8 |||
        (elt s.key (4 * m + 2)).setWidth 32 <<< 16 ||| (elt s.key (4 * m + 3)).setWidth 32 <<< 24) ∧
    (m < 4 → hostRead s (locate (0x200 + 4 * m)) =
      (elt s.nonce (4 * m)).setWidth 32 ||| (elt s.nonce (4 * m + 1)).setWidth 32 <<< 8 |||
        (elt s.nonce (4 * m + 2)).setWidth 32 <<< 16 ||| (elt s.nonce (4 * m + 3)).setWidth 32 <<< 24) ∧
    (m < 16 → hostRead s (locate (0x240 + 4 * m)) =
      (elt s.ks (4 * m)).setWidth 32 ||| (elt s.ks (4 * m + 1)).setWidth 32 <<< 8 |||
        (elt s.ks (4 * m + 2)).setWidth 32 <<< 16 ||| (elt s.ks (4 * m + 3)).setWidth 32 <<< 24) ∧
    (m < 64 → hostRead s (locate (0x300 + 4 * m)) =
      (elt s.rc4.s (4 * m)).setWidth 32 ||| (elt s.rc4.s (4 * m + 1)).setWidth 32 <<< 8 |||
        (elt s.rc4.s (4 * m + 2)).setWidth 32 <<< 16 ||| (elt s.rc4.s (4 * m + 3)).setWidth 32 <<< 24) ∧
    (hostRead s (locate (0x1000 + 4 * m)) =
      (memRead s.dbuf (4 * m)).setWidth 32 ||| (memRead s.dbuf (4 * m + 1)).setWidth 32 <<< 8 |||
        (memRead s.dbuf (4 * m + 2)).setWidth 32 <<< 16 |||
        (memRead s.dbuf (4 * m + 3)).setWidth 32 <<< 24) ∧
    (m < 8 → hostRead s (locate (0x400 + 4 * m)) = elt s.rabbit.x m ∧
      hostRead s (locate (0x420 + 4 * m)) = elt s.rabbit.c m) ∧
    (∀ k, (hostRead s (locate 0x010)).getLsbD k = s.klen.getLsbD k ∧
      (hostRead s (locate 0x014)).getLsbD k = s.nlen.getLsbD k ∧
      (hostRead s (locate 0x02C)).getLsbD k =
        (if k < 8 then s.rc4.i.getLsbD k else s.rc4.j.getLsbD (k - 8)))

/-- Rule R62, writing: a host write to a byte window writes exactly its word's four bytes, little-endian, and
nothing else. -/
def Obligations.WindowWritesStoreFourBytes : Prop :=
  ∀ (s : State) (m : Nat) (w : Word), s.busy = false → Memory.wf s.dbuf = true →
    (m < 64 → ∃ K, hostWrite (locate (0x100 + 4 * m)) w s = { s with key := K } ∧
      ∀ k, k < 256 → elt K k = if k / 4 = m then w.extractLsb' (8 * (k % 4)) 8 else elt s.key k) ∧
    (m < 4 → ∃ N, hostWrite (locate (0x200 + 4 * m)) w s = { s with nonce := N } ∧
      ∀ k, k < 16 → elt N k = if k / 4 = m then w.extractLsb' (8 * (k % 4)) 8 else elt s.nonce k) ∧
    ∃ D, hostWrite (locate (0x1000 + 4 * m)) w s = { s with dbuf := D } ∧
      ∀ a, memRead D a = if a / 4 = m then w.extractLsb' (8 * (a % 4)) 8 else memRead s.dbuf a

/-- Rule R67: a read changes nothing but the host's log; a write at any offset but that of CMD stores its value
in the place at that offset, if it is a read-write one, and changes no other place, while the one to CMD issues a
command (a busy engine ignores every write); every access but that to CMD is idempotent, made twice it does what
it does once; and writing a read-write place with the value it holds changes nothing. -/
def Obligations.HostAccessesHaveNoSideEffects : Prop :=
  (∀ (s : State) (addr : Nat) (rest : List HostOp), addrOk s.params addr = true →
    s.script = .rd addr :: rest →
    ∃ v, hostTurn s = .next { s with script := rest, reads := s.reads ++ [v] }) ∧
  (∀ (s : State) (addr off : Nat) (w : Word) (rest : List HostOp), addrOk s.params addr = true →
    off = addr - s.params.base → s.script = .wr addr w :: rest → ∃ t, hostTurn s = .next t ∧
    (s.busy = true → t = { s with script := rest }) ∧
    (s.busy = false → off = 0x004 → t = { s with pending := w, busy := true, script := rest }) ∧
    (s.busy = false → off ≠ 0x004 →
      t = { s with
        rabbitCanon := if off = 0x00C then w.getLsbD 0 else s.rabbitCanon
        klen := if off = 0x010 then BitVec.ofNat 9 (w.toNat % 512) else s.klen
        nlen := if off = 0x014 then BitVec.ofNat 5 (w.toNat % 32) else s.nlen
        ctrLo := if off = 0x018 then w else s.ctrLo
        ctrHi := if off = 0x01C then w else s.ctrHi
        doff := if off = 0x020 then w else s.doff
        dlen := if off = 0x024 then w else s.dlen
        key := t.key, nonce := t.nonce, dbuf := t.dbuf, script := rest } ∧
      (∀ k, k < 256 → elt t.key k =
        if off = 0x100 + 4 * (k / 4) then w.extractLsb' (8 * (k % 4)) 8 else elt s.key k) ∧
      (∀ k, k < 16 → elt t.nonce k =
        if off = 0x200 + 4 * (k / 4) then w.extractLsb' (8 * (k % 4)) 8 else elt s.nonce k) ∧
      (off < 0x1000 → t.dbuf = s.dbuf) ∧
      (Memory.wf s.dbuf = true → ∀ a, memRead t.dbuf a =
        if off = 0x1000 + 4 * (a / 4) then w.extractLsb' (8 * (a % 4)) 8 else memRead s.dbuf a))) ∧
  (∀ (s t u : State) (addr : Nat) (rest : List HostOp), s.script = .rd addr :: .rd addr :: rest →
    hostTurn s = .next t → hostTurn t = .next u →
    ∃ v, u = { s with script := rest, reads := s.reads ++ [v, v] }) ∧
  (∀ (s t u : State) (addr : Nat) (w : Word) (rest : List HostOp), addr ≠ s.params.base + 4 →
    Memory.wf s.dbuf = true → s.script = .wr addr w :: .wr addr w :: rest →
    hostTurn s = .next t → hostTurn t = .next u → u = { t with script := rest }) ∧
  ∀ (s : State) (addr off : Nat) (rest : List HostOp), s.busy = false → Memory.wf s.dbuf = true →
    addrOk s.params addr = true → off = addr - s.params.base →
    ((0x00C ≤ off ∧ off ≤ 0x024) ∨ (0x100 ≤ off ∧ off < 0x210) ∨ 0x1000 ≤ off) →
    s.script = .wr addr (hostRead s (locate off)) :: rest →
    hostTurn s = .next { s with script := rest }

/-- Rules R60, R61 and R273: an access outside the span or at a misaligned offset has no step; the model's turn
ends in the fault it names (log 6). -/
def Obligations.ProtocolBreachesHaveNoStep : Prop :=
  ∀ (s : State) (addr : Nat) (w : Word) (rest : List HostOp),
    (s.script = .rd addr :: rest ∨ s.script = .wr addr w :: rest) →
    ((addr < s.params.base ∨ s.params.base + 0x1000 + s.params.dbufBytes ≤ addr) →
      hostTurn s = .fault (.outOfSpanAccess addr)) ∧
    (s.params.base ≤ addr → addr < s.params.base + 0x1000 + s.params.dbufBytes →
      (addr - s.params.base) % 4 ≠ 0 → hostTurn s = .fault (.misalignedAccess addr))

/-- The model's form of `poll` (log 16, a DESIGN CHOICE): one host operation that makes one read of STATUS at each
host turn and stays next while BUSY = 1. Rule R88 itself says only that `poll` is `rd STATUS`, repeated while bit 0
of the result is 1. -/
def Obligations.PollReadsStatusUntilIdle : Prop :=
  ∀ (s : State) (rest : List HostOp), s.script = .poll :: rest →
    hostTurn s = .next { s with
      script := if s.busy then .poll :: rest else rest
      reads := s.reads ++ [statusWord s] }

/-- Rules R281 and R282: a reset, also while busy, sets every piece of engine state to the value of the
table. -/
def Obligations.PlatformResetSetsTheTable : Prop :=
  ∀ (s : State) (rest : List Turn), s.turns = .reset :: rest →
    ∃ t, step s = .next t ∧ statusWord t = 0 ∧ t.busy = false ∧ t.err = .ok ∧ t.rc4Valid = false ∧
      t.rabbitValid = false ∧ t.rabbitCanon = false ∧ t.klen = 0 ∧ t.nlen = 0 ∧ t.ctrLo = 0 ∧
      t.ctrHi = 0 ∧ t.doff = 0 ∧ t.dlen = 0 ∧ t.olen = 0 ∧ t.rc4.i = 0 ∧ t.rc4.j = 0 ∧
      t.rabbit.carry = false ∧ (∀ k, k < 256 → elt t.key k = 0 ∧ elt t.rc4.s k = 0) ∧
      (∀ k, k < 16 → elt t.nonce k = 0) ∧ (∀ k, k < 64 → elt t.ks k = 0) ∧
      (∀ k, k < 8 → elt t.rabbit.x k = 0 ∧ elt t.rabbit.c k = 0) ∧ (∀ a, memRead t.dbuf a = 0) ∧
      t.pending = 0 ∧ hostRead t .id = 0x53434531

/-- Rules R286 and R294 for the model's schedules (log 4), whatever the host does within its duties. With no reset
listed, the pending command is performed within as many steps as the schedule lists turns, and one more: the last
of those steps is the perform step, and up to it only the host's side and the turn list have moved. With a reset
listed too, the engine is idle by then; a reset may have abandoned the command (rule R282). -/
def Obligations.IssuedCommandsArePerformed : Prop :=
  (∀ s : State, s.busy = true → hostDuty s = true → Turn.reset ∉ s.turns →
    ∃ k u t, k ≤ s.turns.length ∧ core.run k s = .next u ∧
      u = { s with script := u.script, reads := u.reads, turns := u.turns } ∧
      step u = perform { u with turns := u.turns.tail } ∧
      perform { u with turns := u.turns.tail } = .next t ∧
      core.run (k + 1) s = .next t ∧ t.busy = false) ∧
  ∀ s : State, s.busy = true → hostDuty s = true →
    ∃ k t, k ≤ s.turns.length + 1 ∧ core.run k s = .next t ∧ t.busy = false

/-- The model's choice (log 5, a DESIGN CHOICE): in a run that is over, with no turn listed, a step changes nothing.
Rule R295 itself says only when a run is over. -/
def Obligations.FinishedRunsStandStill : Prop :=
  ∀ s : State, runOver s = true → s.turns = [] → step s = .next s

/-- No step changes the parameters of rule R8. That they stand in the state is the model's choice (log 1). -/
def Obligations.ParametersNeverChange : Prop := ∀ s t : State, step s = .next t → t.params = s.params

/-! ## Completion and errors (40_common.md, 60_exceptions.md) -/

/-- Rules R262 and R264: a performed word reports one code, the decoder's verdict first and then the first
requirement of the command that is not met, in the order key, nonce, range, initialised. -/
def Obligations.ErrorCodesFollowThePriority : Prop :=
  ∀ s : State, ∃ t, perform s = .next t ∧
    t.err = (match decode s.pending with
      | .error _ => .illegalCommand
      | .ok i => expectedCode i s)

/-- Rule R263: an error changes ERR and BUSY and nothing else. -/
def Obligations.ErrorsChangeOnlyErrAndBusy : Prop :=
  ∀ s t : State, perform s = .next t → t.err ≠ .ok → t = { s with err := t.err, busy := false }

/-- Rule R107: every command completes, and it succeeds exactly when its requirements are met. -/
def Obligations.EveryCommandCompletes : Prop :=
  ∀ (i : Instr) (s : State), ∃ t, exec i s = .next t ∧ t.busy = false ∧ (t.err = .ok ↔ runs i s = true)

/-- Rule R108: the word of NOP, and that NOP writes ERR and BUSY and nothing else. -/
def Obligations.NopOnlyClearsTheError : Prop :=
  encode .nop = 0x00000000 ∧
  ∀ s : State, exec .nop s = .next { s with err := .ok, busy := false }

/-- Rule R109: the word of ZEROIZE, what it clears and what it keeps, and that the streaming commands issued after it fail with
NOT_INITIALIZED (RC4_PRGA where its range check passes). -/
def Obligations.ZeroizeClearsTheSecrets : Prop :=
  encode .zeroize = 0x00000001 ∧
  ∀ s : State, ∃ t, exec .zeroize s = .next t ∧
    (∀ k, k < 256 → elt t.key k = 0 ∧ elt t.rc4.s k = 0) ∧ (∀ k, k < 16 → elt t.nonce k = 0) ∧
    (∀ k, k < 64 → elt t.ks k = 0) ∧ (∀ k, k < 8 → elt t.rabbit.x k = 0 ∧ elt t.rabbit.c k = 0) ∧
    t.rc4.i = 0 ∧ t.rc4.j = 0 ∧ t.rabbit.carry = false ∧
    t = { s with
      err := .ok, busy := false, rc4Valid := false, rabbitValid := false, olen := 0
      key := t.key, nonce := t.nonce, ks := t.ks, rc4 := t.rc4, rabbit := t.rabbit } ∧
    exec .rabbitNext t = .next { t with err := .notInitialized } ∧
    exec .rabbitExtract t = .next { t with err := .notInitialized } ∧
    (rangeMeets .rc4Prga t = true → exec .rc4Prga t = .next { t with err := .notInitialized })

/-- After ZEROIZE the host reads 0 from every window that held a secret, from OLEN, RC4_IJ and RABBIT_CARRY,
and from STATUS. -/
def Obligations.ZeroizeLeavesNothingToRead : Prop :=
  ∀ (s t : State) (off : Nat), exec .zeroize s = .next t →
    (off = 0x008 ∨ (0x028 ≤ off ∧ off ≤ 0x030) ∨ (0x100 ≤ off ∧ off < 0x440)) → off % 4 = 0 →
    hostRead t (locate off) = 0

/-! ## Frames: what a command leaves unchanged -/

/-- No command writes a host-written register, the parameters or the host's side, and only ZEROIZE writes KEY
and NONCE (rules R27, R28, R35, R36). -/
def Obligations.CommandsKeepTheHostsRegisters : Prop :=
  ∀ (i : Instr) (s t : State), exec i s = .next t →
    t.rabbitCanon = s.rabbitCanon ∧ t.klen = s.klen ∧ t.nlen = s.nlen ∧ t.ctrLo = s.ctrLo ∧
    t.ctrHi = s.ctrHi ∧ t.doff = s.doff ∧ t.dlen = s.dlen ∧ t.pending = s.pending ∧
    t.params = s.params ∧ t.script = s.script ∧ t.reads = s.reads ∧ t.turns = s.turns ∧
    (i ≠ .zeroize → t.key = s.key ∧ t.nonce = s.nonce)

/-- A command other than ZEROIZE leaves the state of every other cipher alone: only the RC4 commands write S, I,
J and RC4_VALID, only the Rabbit commands write X, C, CARRY and RABBIT_VALID, and neither RC4, nor NOP, nor the
Rabbit commands that make no keystream block write KS (rules R37 to R40, R45). -/
def Obligations.CommandsKeepTheOtherCiphers : Prop :=
  ∀ (i : Instr) (s t : State), exec i s = .next t → i ≠ .zeroize →
    (i ∉ [.rc4Ksa, .rc4Prga, .rc4Crypt, .rc4wCrypt] → t.rc4 = s.rc4 ∧ t.rc4Valid = s.rc4Valid) ∧
    (i ∉ [.rabbitInit, .rabbitInitIv, .rabbitNext, .rabbitExtract, .rabbitCrypt] →
      t.rabbit = s.rabbit ∧ t.rabbitValid = s.rabbitValid) ∧
    (i = .rabbitExtract → t.rabbit = s.rabbit ∧ t.rabbitValid = s.rabbitValid) ∧
    (i = .rc4Prga ∨ i = .rabbitNext → t.rc4Valid = s.rc4Valid ∧ t.rabbitValid = s.rabbitValid) ∧
    (i ∉ [.chachaBlock, .chachaCrypt, .salsaBlock, .salsaCrypt, .rabbitExtract, .rabbitCrypt] →
      t.ks = s.ks) ∧
    (i = .rabbitExtract ∨ i = .rabbitCrypt → ∀ k, 16 ≤ k → elt t.ks k = elt s.ks k)

/-- Rule R41 and the rules of the data commands: a data command writes DBUF only in [DOFF, DOFF + its output
length), and every other command leaves DBUF alone. -/
def Obligations.CommandsWriteDbufOnlyInRange : Prop :=
  ∀ (i : Instr) (s t : State) (a : Nat), Memory.wf s.dbuf = true → exec i s = .next t →
    (∀ n, outLen i s = some n → ¬ (s.doff.toNat ≤ a ∧ a < s.doff.toNat + n) →
      memRead t.dbuf a = memRead s.dbuf a) ∧
    (outLen i s = none → t.dbuf = s.dbuf)

/-- Rule R31, which the spec marks as derived from rule R138: OLEN is read-only at its offset; which commands
write it and with what; an error does not change it; it is 0 at reset. -/
def Obligations.OlenFollowsTheDataCommands : Prop :=
  State.reset.olen = 0 ∧
  (∀ (s : State) (w : Word), s.busy = false →
    hostRead s (locate 0x028) = s.olen ∧ hostWrite (locate 0x028) w s = s) ∧
  ∀ (i : Instr) (s t : State), s.params.wf = true → exec i s = .next t →
    (t.err ≠ .ok → t.olen = s.olen) ∧
    (t.err = .ok →
      (i ∈ [.rc4Prga, .rc4Crypt, .chachaCrypt, .salsaCrypt, .rabbitCrypt] → t.olen = s.dlen) ∧
      (i = .rc4wCrypt → t.olen.toNat = s.dlen.toNat + s.dlen.toNat % 2) ∧
      (i = .zeroize → t.olen = 0) ∧
      (i ∉ [.rc4Prga, .rc4Crypt, .chachaCrypt, .salsaCrypt, .rabbitCrypt, .rc4wCrypt, .zeroize] →
        t.olen = s.olen))

/-! ## RC4 (41_rc4.md) -/

/-- Rule R134: RC4_KSA writes S, I, J and RC4_VALID; with a bad key length it reports code 1. -/
def Obligations.Rc4KsaSchedulesTheKey : Prop :=
  encode .rc4Ksa = 0x00000010 ∧
  ∀ s : State,
    (1 ≤ s.klen.toNat ∧ s.klen.toNat ≤ 256 → exec .rc4Ksa s = .next { s with
      rc4 := { s := ksa s.key s.klen.toNat, i := 0, j := 0 }, rc4Valid := true
      err := .ok, busy := false }) ∧
    (¬ (1 ≤ s.klen.toNat ∧ s.klen.toNat ≤ 256) →
      exec .rc4Ksa s = .next { s with err := .invalidKeyLength, busy := false })

/-- Rules R131, R132 and R38: the key schedule gives a permutation of 0..255, and a PRGA step keeps it one. -/
def Obligations.KeyScheduleIsAPermutation : Prop :=
  (∀ (K : Vector Byte 256) (L : Nat), IsPerm (ksa K L)) ∧
  ∀ r : Rc4, IsPerm r.s → IsPerm (prga r).1.s

/-- Rule R131: the key schedule is a function of K[0..L-1] and L alone. -/
def Obligations.KeyScheduleReadsOnlyTheKeyBytes : Prop :=
  ∀ (K K' : Vector Byte 256) (L : Nat), 1 ≤ L → L ≤ 256 → (∀ n, n < L → elt K n = elt K' n) →
    ksa K L = ksa K' L

/-- Rule R135: RC4_PRGA, where it executes normally, XORs the keystream that continues from S, I and J into the
data range, moves S, I and J on by DLEN steps, and sets OLEN. -/
def Obligations.Rc4PrgaContinuesTheKeystream : Prop :=
  ∀ s : State, runs .rc4Prga s = true → Memory.wf s.dbuf = true →
    ∃ t, exec .rc4Prga s = .next t ∧
      t = { s with
        rc4 := rc4After s.dlen.toNat s.rc4, dbuf := t.dbuf, olen := s.dlen, err := .ok, busy := false } ∧
      ∀ a, memRead t.dbuf a = dataResult s s.dlen.toNat (rc4Byte s.rc4) a

/-- Rule R136: RC4_CRYPT, where it executes normally, schedules the key and XORs the keystream from its first
byte into the data range. -/
def Obligations.Rc4CryptXorsTheKeystream : Prop :=
  ∀ s : State, runs .rc4Crypt s = true → Memory.wf s.dbuf = true →
    ∃ t, exec .rc4Crypt s = .next t ∧
      t = { s with
        rc4 := rc4After s.dlen.toNat { s := ksa s.key s.klen.toNat, i := 0, j := 0 }
        rc4Valid := true, dbuf := t.dbuf, olen := s.dlen, err := .ok, busy := false } ∧
      ∀ a, memRead t.dbuf a =
        dataResult s s.dlen.toNat (rc4Byte { s := ksa s.key s.klen.toNat, i := 0, j := 0 }) a

/-- Rule R138, for every pair function: RC4W_CRYPT, where it executes normally, XORs the pair keystream into the
data and, for an odd length, into a zero pad byte one past it. -/
def Obligations.Rc4wCryptXorsThePairs : Prop :=
  ∀ s : State, runs .rc4wCrypt s = true → Memory.wf s.dbuf = true → s.params.wf = true →
    ∃ t, exec .rc4wCrypt s = .next t ∧
      t = { s with
        rc4 := pairAfter s.params.rc4wPair ((s.dlen.toNat + s.dlen.toNat % 2) / 2)
          { s := ksa s.key s.klen.toNat, i := 0, j := 0 }
        rc4Valid := true, dbuf := t.dbuf, olen := t.olen, err := .ok, busy := false } ∧
      t.olen.toNat = s.dlen.toNat + s.dlen.toNat % 2 ∧
      ∀ a, memRead t.dbuf a = dataResult s (s.dlen.toNat + s.dlen.toNat % 2)
        (pairByte s.params.rc4wPair { s := ksa s.key s.klen.toNat, i := 0, j := 0 }) a

/-- Rule R137: with the default pair function the 2-byte variant's keystream equals the byte-wise one. -/
def Obligations.DefaultPairsGiveTheBytewiseKeystream : Prop :=
  ∀ (r : Rc4) (n : Nat), pairByte .twoPrgaSteps r n = rc4Byte r n ∧
    pairAfter .twoPrgaSteps n r = rc4After (2 * n) r

/-- Rule R135, corner case: a KSA and two RC4_PRGA commands over adjacent ranges give the same bytes and the
same RC4 state as one RC4_CRYPT over the joined range. -/
def Obligations.SplitPrgaEqualsOneCrypt : Prop :=
  ∀ (s : State) (n m : Nat), runs .rc4Crypt s = true → s.params.wf = true → s.dlen.toNat = n + m →
    ∃ t0 t1 t2 u, exec .rc4Ksa s = .next t0 ∧
      exec .rc4Prga (withRange s.doff.toNat n t0) = .next t1 ∧
      exec .rc4Prga (withRange (s.doff.toNat + n) m t1) = .next t2 ∧
      exec .rc4Crypt s = .next u ∧ t2.err = .ok ∧
      t2.dbuf = u.dbuf ∧ t2.rc4 = u.rc4 ∧ t2.rc4Valid = u.rc4Valid

/-- Rule R139, which the spec marks as derived from rules R137 and R138, for every pair function: RC4W_CRYPT lengthens odd input by one byte, and applied again over its
whole output it gives the data back, followed by a zero byte where the length was odd. -/
def Obligations.Rc4wRoundTripGivesDataAndPad : Prop :=
  ∀ s t : State, runs .rc4wCrypt s = true → Memory.wf s.dbuf = true → s.params.wf = true →
    exec .rc4wCrypt s = .next t →
    t.olen.toNat = s.dlen.toNat + s.dlen.toNat % 2 ∧
    ∃ u, exec .rc4wCrypt { t with dlen := t.olen } = .next u ∧ u.err = .ok ∧ u.olen = t.olen ∧
      (∀ n, n < s.dlen.toNat →
        memRead u.dbuf (s.doff.toNat + n) = memRead s.dbuf (s.doff.toNat + n)) ∧
      (s.dlen.toNat % 2 = 1 → memRead u.dbuf (s.doff.toNat + s.dlen.toNat) = 0) ∧
      (s.dlen.toNat % 2 = 0 → u.dbuf = s.dbuf)

/-! ## ChaCha20 and Salsa20 (42_chacha20.md, 43_salsa20.md) -/

/-- Rule R161, whose positions the spec marks as derived from the source's listing order: the places of the constants, the key words, the counter and the nonce words. -/
def Obligations.ChachaInitialStateLayout : Prop :=
  ∀ (K : Vector Byte 256) (N : Vector Byte 16) (ctr : Word),
    (∀ m, m < 4 → elt (chachaInit K N ctr) m = elt sigma m) ∧
    (∀ m, m < 8 → elt (chachaInit K N ctr) (4 + m) = le32 K (4 * m)) ∧
    elt (chachaInit K N ctr) 12 = ctr ∧
    (∀ m, m < 3 → elt (chachaInit K N ctr) (13 + m) = le32 N (4 * m))

/-- Rules R190 and R191: the places of the constants, the key words, the nonce words and the two counter
words. -/
def Obligations.SalsaInitialStateLayout : Prop :=
  ∀ (K : Vector Byte 256) (N : Vector Byte 16) (ctr : DWord),
    elt (salsaInit K N ctr) 0 = 0x61707865 ∧ elt (salsaInit K N ctr) 5 = 0x3320646E ∧
    elt (salsaInit K N ctr) 10 = 0x79622D32 ∧ elt (salsaInit K N ctr) 15 = 0x6B206574 ∧
    (∀ m, m < 4 → elt (salsaInit K N ctr) (1 + m) = le32 K (4 * m) ∧
      elt (salsaInit K N ctr) (11 + m) = le32 K (16 + 4 * m)) ∧
    elt (salsaInit K N ctr) 6 = le32 N 0 ∧ elt (salsaInit K N ctr) 7 = le32 N 4 ∧
    (elt (salsaInit K N ctr) 8).toNat = ctr.toNat % 2 ^ 32 ∧
    (elt (salsaInit K N ctr) 9).toNat = ctr.toNat / 2 ^ 32

/-- Rule R101: bit k of a rotation by n is bit (k - n) mod 32 of the word. -/
def Obligations.RotateLeftMovesEachBit : Prop :=
  ∀ (x : Word) (n k : Nat), n < 32 → k < 32 →
    rotl32 x 0 = x ∧ (1 ≤ n → rotl32 x n = (x <<< n) ||| (x >>> (32 - n))) ∧
    (rotl32 x n).getLsbD k = x.getLsbD ((k + 32 - n) % 32)

/-- Rules R169 and R200: the BLOCK commands write the block of the counter to KS and nothing else; with a bad key
length they report code 1, else with a bad nonce length code 2. -/
def Obligations.BlockCommandsWriteTheKeystreamBlock : Prop :=
  encode .chachaBlock = 0x00000020 ∧ encode .salsaBlock = 0x00000030 ∧
  (∀ s : State,
    (s.klen.toNat = 32 → s.nlen.toNat = 12 → exec .chachaBlock s = .next { s with
      ks := chachaBlockFn s.key s.nonce s.ctrLo, err := .ok, busy := false }) ∧
    (s.klen.toNat ≠ 32 → exec .chachaBlock s = .next { s with
      err := .invalidKeyLength, busy := false }) ∧
    (s.klen.toNat = 32 → s.nlen.toNat ≠ 12 → exec .chachaBlock s = .next { s with
      err := .invalidNonceLength, busy := false })) ∧
  ∀ s : State,
    (s.klen.toNat = 32 → s.nlen.toNat = 8 → exec .salsaBlock s = .next { s with
      ks := salsaBlockFn s.key s.nonce (BitVec.ofNat 64 (s.ctrHi.toNat * 2 ^ 32 + s.ctrLo.toNat))
      err := .ok, busy := false }) ∧
    (s.klen.toNat ≠ 32 → exec .salsaBlock s = .next { s with
      err := .invalidKeyLength, busy := false }) ∧
    (s.klen.toNat = 32 → s.nlen.toNat ≠ 8 → exec .salsaBlock s = .next { s with
      err := .invalidNonceLength, busy := false })

/-- Rules R65, R166 and R196: after a BLOCK command the host reads from word m of the KS window word m of the
block, the sum of the state after 20 rounds and the original state. -/
def Obligations.KeystreamWindowReadsTheBlockWords : Prop :=
  (∀ s : State, runs .chachaBlock s = true → ∃ t, exec .chachaBlock s = .next t ∧
    ∀ m, m < 16 → hostRead t (locate (0x240 + 4 * m)) =
      elt (repeatN chachaDoubleRound 10 (chachaInit s.key s.nonce s.ctrLo)) m +
        elt (chachaInit s.key s.nonce s.ctrLo) m) ∧
  ∀ s : State, runs .salsaBlock s = true → ∃ t, exec .salsaBlock s = .next t ∧
    ∀ m, m < 16 → hostRead t (locate (0x240 + 4 * m)) =
      elt (repeatN salsaDoubleRound 10 (salsaInit s.key s.nonce (s.ctrHi ++ s.ctrLo))) m +
        elt (salsaInit s.key s.nonce (s.ctrHi ++ s.ctrLo)) m

/-- Rules R170 and R171: CHACHA_CRYPT, where it executes normally, XORs data byte n with byte n mod 64 of the
block at counter (CTR_LO + n / 64) mod 2^32, and leaves the last tile's block in KS. -/
def Obligations.ChachaCryptXorsTheBlocks : Prop :=
  ∀ s : State, runs .chachaCrypt s = true → Memory.wf s.dbuf = true →
    ∃ t, exec .chachaCrypt s = .next t ∧
      t = { s with ks := t.ks, dbuf := t.dbuf, olen := s.dlen, err := .ok, busy := false } ∧
      (s.dlen.toNat = 0 → t.ks = s.ks) ∧
      (0 < s.dlen.toNat → t.ks = chachaBlockFn s.key s.nonce
        (BitVec.ofNat 32 ((s.ctrLo.toNat + (s.dlen.toNat - 1) / 64) % 2 ^ 32))) ∧
      ∀ a, memRead t.dbuf a = dataResult s s.dlen.toNat (chachaByte s) a

/-- Rules R199 and R202: SALSA_CRYPT, where it executes normally, XORs data byte n with byte n mod 64 of the
block at counter (CTR + n / 64) mod 2^64, and leaves the last tile's block in KS. -/
def Obligations.SalsaCryptXorsTheBlocks : Prop :=
  ∀ s : State, runs .salsaCrypt s = true → Memory.wf s.dbuf = true →
    ∃ t, exec .salsaCrypt s = .next t ∧
      t = { s with ks := t.ks, dbuf := t.dbuf, olen := s.dlen, err := .ok, busy := false } ∧
      (s.dlen.toNat = 0 → t.ks = s.ks) ∧
      (0 < s.dlen.toNat → t.ks = salsaBlockFn s.key s.nonce
        (BitVec.ofNat 64 ((salsaCounter s + (s.dlen.toNat - 1) / 64) % 2 ^ 64))) ∧
      ∀ a, memRead t.dbuf a = dataResult s s.dlen.toNat (salsaByte s) a

/-- Rule R291: a ChaCha20 message split after a multiple of 64 bytes, with the host adding the number of blocks
to CTR_LO, gives the same bytes and the same KS as one command. -/
def Obligations.ChachaChunksJoin : Prop :=
  ∀ (s : State) (k m : Nat), runs .chachaCrypt s = true → s.params.wf = true →
    s.dlen.toNat = 64 * k + m →
    ∃ t1 t2 u, exec .chachaCrypt (withRange s.doff.toNat (64 * k) s) = .next t1 ∧
      exec .chachaCrypt (withRange (s.doff.toNat + 64 * k) m
        { t1 with ctrLo := s.ctrLo + BitVec.ofNat 32 k }) = .next t2 ∧
      exec .chachaCrypt s = .next u ∧ t2.err = .ok ∧ t2.dbuf = u.dbuf ∧ t2.ks = u.ks

/-- Rule R291: the same for Salsa20, with the sum carried from CTR_LO into CTR_HI. -/
def Obligations.SalsaChunksJoin : Prop :=
  ∀ (s : State) (k m : Nat), runs .salsaCrypt s = true → s.params.wf = true →
    s.dlen.toNat = 64 * k + m →
    ∃ t1 t2 u, exec .salsaCrypt (withRange s.doff.toNat (64 * k) s) = .next t1 ∧
      exec .salsaCrypt (withRange (s.doff.toNat + 64 * k) m { t1 with
        ctrLo := BitVec.ofNat 32 ((salsaCounter s + k) % 2 ^ 32)
        ctrHi := BitVec.ofNat 32 ((salsaCounter s + k) / 2 ^ 32) }) = .next t2 ∧
      exec .salsaCrypt s = .next u ∧ t2.err = .ok ∧ t2.dbuf = u.dbuf ∧ t2.ks = u.ks

/-! ## Rabbit (44_rabbit.md) -/

/-- Rule R222: every lane of the ORIGINAL counter system, and that CARRY is neither read nor written. -/
def Obligations.OriginalCounterAddsLaneByLane : Prop :=
  ∀ (r : Rabbit) (b : Bool), (counterOrig r).x = r.x ∧ (counterOrig r).carry = r.carry ∧
    (counterOrig { r with carry := b }).c = (counterOrig r).c ∧
    (∀ k, k < 8 → (elt (counterOrig r).c k).toNat =
      ((elt r.c k).toNat + (elt rabbitA k).toNat + (if k = 0 then 1 else 0)) % 2 ^ 32) ∧
    nextState false r = { counterOrig r with x := mix (gValues (counterOrig r)) }

/-- Rule R223, whose bit-level form the spec takes from general knowledge, and rule R226: the CANONICAL counter
system is one addition of 256-bit numbers, lane 0 lowest, with CARRY as carry in and as carry out; and the
next-state function uses this system when RABBIT_CANON = 1. -/
def Obligations.CanonicalCounterIsOneWideAddition : Prop :=
  ∀ r : Rabbit, (counterCanon r).x = r.x ∧
    ((List.range 8).map fun k => (elt (counterCanon r).c k).toNat * 2 ^ (32 * k)).sum
        + (counterCanon r).carry.toNat * 2 ^ 256 =
      ((List.range 8).map fun k => (elt r.c k).toNat * 2 ^ (32 * k)).sum
        + ((List.range 8).map fun k => (elt rabbitA k).toNat * 2 ^ (32 * k)).sum + r.carry.toNat ∧
    nextState true r = { counterCanon r with x := mix (gValues (counterCanon r)) }

/-- Rule R224: the g-function is the high half of the exact square of (x + c) mod 2^32, XOR its low half; and
the rule's corner cases. -/
def Obligations.GFunctionSquaresTheSum : Prop :=
  (∀ x c : Word, (gFn x c).toNat =
    (((x.toNat + c.toNat) % 2 ^ 32) ^ 2 / 2 ^ 32) ^^^ (((x.toNat + c.toNat) % 2 ^ 32) ^ 2 % 2 ^ 32)) ∧
  gFn 0 0 = 0 ∧ gFn 0xFFFFFFFF 1 = 0 ∧ gFn 1 0 = 1 ∧ gFn 0x00010000 0 = 1 ∧ gFn 0xFFFFFFFF 0 = 0xFFFFFFFF

/-- Rules R229 and R234: RABBIT_INIT, where KLEN = 16, rebuilds X, C and CARRY from KEY in the mode of CTRL,
with the counter re-initialisation in CANONICAL mode or where the parameter asks for it; NLEN plays no part. -/
def Obligations.RabbitInitRunsKeySetup : Prop :=
  ∀ s : State, s.klen.toNat = 16 → ∃ t r, r = rabbitAfter s.rabbitCanon 4 (expandKey s.key) ∧
    exec .rabbitInit s = .next t ∧
    t = { s with rabbit := t.rabbit, rabbitValid := true, err := .ok, busy := false } ∧
    t.rabbit.x = r.x ∧ t.rabbit.carry = r.carry ∧
    ∀ k, k < 8 → elt t.rabbit.c k =
      if s.rabbitCanon = true ∨ s.params.origCreinit = true then
        elt r.c k ^^^ elt r.x ((k + 4) % 8)
      else elt r.c k

/-- Rules R230, R231 and R235: RABBIT_INIT_IV, where KLEN = 16 and NLEN = 8, XORs the IV words into the counters
RABBIT_INIT leaves and runs four more next-state steps. -/
def Obligations.RabbitInitIvRunsIvSetup : Prop :=
  ∀ s : State, s.klen.toNat = 16 → s.nlen.toNat = 8 → ∃ t0 t r, exec .rabbitInit s = .next t0 ∧
    exec .rabbitInitIv s = .next t ∧
    t = { s with rabbit := t.rabbit, rabbitValid := true, err := .ok, busy := false } ∧
    r.x = t0.rabbit.x ∧ r.carry = t0.rabbit.carry ∧
    (∀ k, k < 8 → elt r.c k = elt t0.rabbit.c k ^^^
      (if k % 4 = 0 then le32 s.nonce 0
        else if k % 4 = 1 then (le32 s.nonce 0 >>> 16) ||| (le32 s.nonce 4 &&& 0xFFFF0000)
        else if k % 4 = 2 then le32 s.nonce 4
        else (le32 s.nonce 4 <<< 16) ||| (le32 s.nonce 0 &&& 0x0000FFFF))) ∧
    t.rabbit = rabbitAfter s.rabbitCanon 4 r

/-- Rules R236 and R237: RABBIT_NEXT makes one next-state step in the mode of CTRL and RABBIT_EXTRACT writes the
block of X to KS[0..15], each nothing else, where RABBIT_VALID = 1; otherwise each reports code 5. -/
def Obligations.RabbitNextAndExtractResults : Prop :=
  encode .rabbitNext = 0x00000042 ∧ encode .rabbitExtract = 0x00000043 ∧
  ∀ s : State,
    (s.rabbitValid = true → exec .rabbitNext s = .next { s with
      rabbit := nextState s.rabbitCanon s.rabbit, err := .ok, busy := false }) ∧
    (s.rabbitValid = true → ∃ t, exec .rabbitExtract s = .next t ∧
      t = { s with ks := t.ks, err := .ok, busy := false } ∧
      (∀ k, k < 16 → elt t.ks k = elt (extract s.rabbit.x) k) ∧
      ∀ k, 16 ≤ k → elt t.ks k = elt s.ks k) ∧
    (s.rabbitValid = false →
      exec .rabbitNext s = .next { s with err := .notInitialized, busy := false } ∧
      exec .rabbitExtract s = .next { s with err := .notInitialized, busy := false })

/-- Rules R238 to R240: RABBIT_CRYPT, where it executes normally, sets up from the key (and the IV where
NLEN = 8), XORs data byte n with byte n mod 16 of the block after n / 16 + 1 steps, and leaves the last block in
KS[0..15]. -/
def Obligations.RabbitCryptXorsTheBlocks : Prop :=
  ∀ s : State, runs .rabbitCrypt s = true → Memory.wf s.dbuf = true →
    ∃ t r, r = (if s.nlen.toNat = 8 then
        ivSetup s.rabbitCanon s.nonce (keySetup s.params.origCreinit s.rabbitCanon s.key)
      else keySetup s.params.origCreinit s.rabbitCanon s.key) ∧
      exec .rabbitCrypt s = .next t ∧
      t = { s with
        rabbit := rabbitAfter s.rabbitCanon ((s.dlen.toNat + 15) / 16) r, rabbitValid := true
        ks := t.ks, dbuf := t.dbuf, olen := s.dlen, err := .ok, busy := false } ∧
      (s.dlen.toNat = 0 → t.ks = s.ks) ∧
      (0 < s.dlen.toNat → (∀ k, k < 16 → elt t.ks k = elt (extract t.rabbit.x) k) ∧
        ∀ k, 16 ≤ k → elt t.ks k = elt s.ks k) ∧
      ∀ a, memRead t.dbuf a = dataResult s s.dlen.toNat (rabbitByte s.rabbitCanon r) a

/-- Rules R236 and R238: RABBIT_INIT (or RABBIT_INIT_IV, for NLEN = 8), as many RABBIT_NEXT as there are tiles
and RABBIT_EXTRACT end in the Rabbit state and the KS of one RABBIT_CRYPT. -/
def Obligations.RabbitStreamEqualsOneCrypt : Prop :=
  ∀ (s : State) (n : Nat), runs .rabbitCrypt s = true → 16 * n < s.dlen.toNat →
    s.dlen.toNat ≤ 16 * (n + 1) →
    ∃ u v, exec .rabbitCrypt s = .next u ∧
      execAll ((if s.nlen.toNat = 8 then .rabbitInitIv else .rabbitInit) ::
        (List.replicate (n + 1) .rabbitNext ++ [.rabbitExtract])) s = some v ∧
      v.rabbit = u.rabbit ∧ v.ks = u.ks

/-! ## Results over several commands, and the invariant -/

/-- "Applying the command twice restores the data" (rules R136, R171, R202, R240): DBUF is back to what it was,
byte for byte and as data. -/
def Obligations.CryptTwiceRestoresTheData : Prop :=
  ∀ (i : Instr) (s t : State), i ∈ [Instr.rc4Crypt, .chachaCrypt, .salsaCrypt, .rabbitCrypt] →
    runs i s = true → Memory.wf s.dbuf = true → exec i s = .next t →
    ∃ u, exec i t = .next u ∧ u.err = .ok ∧ u.dbuf = s.dbuf

/-- Rule R14, which the spec marks as derived from the rules of the commands: a *_CRYPT command's result depends only on KEY, KLEN, NONCE, NLEN, CTR_LO, CTR_HI, CTRL, the DBUF
slice and the parameters. Two states that agree on these give the same code and, on success, the same output
bytes, OLEN, cipher state and block, whatever S, I, J, X, C, CARRY, KS, the flags and the rest of DBUF hold. -/
def Obligations.CryptIgnoresTheStreamingState : Prop :=
  ∀ (i : Instr) (s s' t t' : State),
    i ∈ [Instr.rc4Crypt, .rc4wCrypt, .chachaCrypt, .salsaCrypt, .rabbitCrypt] →
    s.key = s'.key → s.klen = s'.klen → s.nonce = s'.nonce → s.nlen = s'.nlen → s.ctrLo = s'.ctrLo →
    s.ctrHi = s'.ctrHi → s.rabbitCanon = s'.rabbitCanon → s.params = s'.params → s.doff = s'.doff →
    s.dlen = s'.dlen → Memory.wf s.dbuf = true → Memory.wf s'.dbuf = true →
    (∀ n, n < s.dlen.toNat → memRead s.dbuf (s.doff.toNat + n) = memRead s'.dbuf (s.doff.toNat + n)) →
    exec i s = .next t → exec i s' = .next t' →
    t.err = t'.err ∧ (t.err = .ok →
      t.olen = t'.olen ∧
      (∀ n, n < t.olen.toNat →
        memRead t.dbuf (s.doff.toNat + n) = memRead t'.dbuf (s.doff.toNat + n)) ∧
      (i = .rc4Crypt ∨ i = .rc4wCrypt → t.rc4 = t'.rc4) ∧
      (i = .rabbitCrypt → t.rabbit = t'.rabbit) ∧
      (0 < s.dlen.toNat →
        (i = .chachaCrypt ∨ i = .salsaCrypt → t.ks = t'.ks) ∧
        (i = .rabbitCrypt → ∀ k, k < 16 → elt t.ks k = elt t'.ks k)))

/-- Every step of every agent keeps the invariant, whose canonical form of DBUF is the model's own notion (log 7). -/
def Obligations.StepKeepsTheInvariant : Prop := ∀ s t : State, Inv s → step s = .next t → Inv t

/-- The invariant holds after reset, at the default parameters, whose base is the model's choice (log 2). -/
def Obligations.ResetMeetsTheInvariant : Prop := Inv State.reset

/-- What the model's reset keeps, by inference (log 8, DEDUCED): the parameters and the host's side, which the
table of rule R281 does not list. -/
def Obligations.PlatformResetKeepsTheHost : Prop :=
  ∀ (s : State) (rest : List Turn), s.turns = .reset :: rest →
    ∃ t, step s = .next t ∧
      t.params = s.params ∧ t.script = s.script ∧ t.reads = s.reads ∧ t.turns = rest
end

