-- ==== Sys2Proof/Laws/Numeric.lean ====
section
/-! SUPPORT. Reading and writing array elements, bytes and words, and the serialisation of blocks. -/

namespace Sys2Proof.Machine

variable {w n : Nat}

theorem elt_eq_getElem (A : Vector (BitVec w) n) (k : Nat) (h : k < n) : elt A k = A[k] := by
  obtain ⟨⟨l⟩, hl⟩ := A
  have hl' : k < l.length := by simp at hl; omega
  simp [elt, List.getD, hl']

theorem elt_outside (A : Vector (BitVec w) n) (k : Nat) (h : n ≤ k) : elt A k = 0 := by
  obtain ⟨⟨l⟩, hl⟩ := A
  have hl' : l.length ≤ k := by simp at hl; omega
  simp [elt, List.getD, hl']

/-- Arrays are equal when all their elements are. -/
theorem elt_ext {A B : Vector (BitVec w) n} (h : ∀ k, k < n → elt A k = elt B k) : A = B := by
  ext k hk
  rw [← elt_eq_getElem A k hk, ← elt_eq_getElem B k hk, h k hk]

theorem elt_put (A : Vector (BitVec w) n) (k : Nat) (v : BitVec w) (j : Nat) :
    elt (put A k v) j = if k = j ∧ j < n then v else elt A j := by
  obtain ⟨⟨l⟩, hl⟩ := A
  have hl' : l.length = n := by simpa using hl
  by_cases hj : j < n
  · have hj' : j < l.length := hl' ▸ hj
    by_cases hk : k = j <;> simp [elt, put, List.getD, hj, hj', hk]
  · have hj' : ¬ j < l.length := hl' ▸ hj
    simp [elt, put, List.getD, hj, hj']

@[simp] theorem elt_put_same (A : Vector (BitVec w) n) (k : Nat) (v : BitVec w) (h : k < n) :
    elt (put A k v) k = v := by simp [elt_put, h]

theorem elt_put_other (A : Vector (BitVec w) n) {k j : Nat} (v : BitVec w) (h : k ≠ j) :
    elt (put A k v) j = elt A j := by simp [elt_put, h]

theorem elt_build (f : Nat → BitVec w) (k : Nat) :
    elt (build n f) k = if k < n then f k else 0 := by
  by_cases h : k < n <;> simp [elt, build, List.getD, h]

@[simp] theorem elt_build_inside (f : Nat → BitVec w) (k : Nat) (h : k < n) :
    elt (build n f) k = f k := by simp [elt_build, h]

@[simp] theorem elt_replicate_zero (k : Nat) : elt (Vector.replicate n 0#w) k = 0#w := by
  by_cases h : k < n
  · rw [elt_eq_getElem _ _ h, Vector.getElem_replicate]
  · exact elt_outside _ _ (by omega)

/-- Writing an element with its own value changes nothing. -/
theorem put_elt_self (A : Vector (BitVec w) n) (k : Nat) : put A k (elt A k) = A := by
  refine elt_ext fun j hj => ?_
  rw [elt_put]
  split <;> simp_all

theorem repeatN_succ {α : Type} (f : α → α) (m : Nat) (a : α) :
    repeatN f (m + 1) a = repeatN f m (f a) := rfl

/-- The last application can be taken off instead of the first. -/
theorem repeatN_succ_last {α : Type} (f : α → α) (m : Nat) (a : α) :
    repeatN f (m + 1) a = f (repeatN f m a) := by
  induction m generalizing a with
  | zero => rfl
  | succ m ih => rw [repeatN_succ, ih, repeatN_succ]

theorem repeatN_add {α : Type} (f : α → α) (m p : Nat) (a : α) :
    repeatN f (m + p) a = repeatN f p (repeatN f m a) := by
  induction m generalizing a with
  | zero => simp [repeatN]
  | succ m ih => rw [Nat.succ_add, repeatN_succ, ih, repeatN_succ]

/-- A property every application keeps holds after any number of them. -/
theorem repeatN_keeps {α : Type} {P : α → Prop} {f : α → α} (hf : ∀ a, P a → P (f a)) (m : Nat) {a : α}
    (h : P a) : P (repeatN f m a) := by
  induction m generalizing a with
  | zero => exact h
  | succ m ih => exact ih (hf a h)

/-- Bit k of `byteOf w q` is bit 8q + k of `w`. -/
theorem getLsbD_byteOf (v : Word) (q k : Nat) (h : k < 8) :
    (byteOf v q).getLsbD k = v.getLsbD (8 * q + k) := by
  simp [byteOf, h]

/-- Bit k of a word of four bytes is bit k mod 8 of byte k / 8 (rules R62, R64). -/
theorem getLsbD_wordOfBytes (b0 b1 b2 b3 : Byte) (k : Nat) (h : k < 32) :
    (wordOfBytes b0 b1 b2 b3).getLsbD k =
      (if k < 8 then b0.getLsbD k else if k < 16 then b1.getLsbD (k - 8)
        else if k < 24 then b2.getLsbD (k - 16) else b3.getLsbD (k - 24)) := by
  have lt8 : ∀ (b : Byte) (m : Nat), 8 ≤ m → b.getLsbD m = false := fun b m hm =>
    BitVec.getLsbD_of_ge b m hm
  simp only [wordOfBytes, BitVec.getLsbD_or, BitVec.getLsbD_setWidth, BitVec.getLsbD_shiftLeft]
  have h16 : k - 16 < 32 := by omega
  split_ifs with h1 h2 h3
  · have := show k < 16 by omega
    have := show k < 24 by omega
    simp [*]
  · have := show k < 24 by omega
    have e0 := lt8 b0 k (by omega)
    have : k - 8 < 32 := by omega
    simp [*]
  · have e0 := lt8 b0 k (by omega)
    have e1 := lt8 b1 (k - 8) (by omega)
    have : k - 16 < 32 := by omega
    simp [*]
  · have e0 := lt8 b0 k (by omega)
    have e1 := lt8 b1 (k - 8) (by omega)
    have e2 := lt8 b2 (k - 16) (by omega)
    have : k - 24 < 32 := by omega
    simp [*]

/-- Splitting a word into bytes and joining them again gives the word. -/
@[simp] theorem wordOfBytes_byteOf (v : Word) :
    wordOfBytes (byteOf v 0) (byteOf v 1) (byteOf v 2) (byteOf v 3) = v := by
  refine BitVec.eq_of_getLsbD_eq fun k h => ?_
  rw [getLsbD_wordOfBytes _ _ _ _ k h]
  split_ifs with h1 h2 h3
  · rw [getLsbD_byteOf _ _ _ h1]; simp
  · rw [getLsbD_byteOf _ _ _ (by omega)]; congr 1; omega
  · rw [getLsbD_byteOf _ _ _ (by omega)]; congr 1; omega
  · rw [getLsbD_byteOf _ _ _ (by omega)]; congr 1; omega

/-- Joining four bytes and taking byte q gives byte q. -/
theorem byteOf_wordOfBytes (b0 b1 b2 b3 : Byte) (q : Nat) (h : q < 4) :
    byteOf (wordOfBytes b0 b1 b2 b3) q =
      (match q with | 0 => b0 | 1 => b1 | 2 => b2 | _ => b3) := by
  refine BitVec.eq_of_getLsbD_eq fun k hk => ?_
  rw [getLsbD_byteOf _ _ _ hk, getLsbD_wordOfBytes _ _ _ _ _ (by omega)]
  have : q = 0 ∨ q = 1 ∨ q = 2 ∨ q = 3 := by omega
  rcases this with rfl | rfl | rfl | rfl
  · simp [hk]
  · simp [show ¬ 8 * 1 + k < 8 by omega, show 8 * 1 + k < 16 by omega]
  · simp [show ¬ 8 * 2 + k < 8 by omega, show ¬ 8 * 2 + k < 16 by omega, show 8 * 2 + k < 24 by omega]
  · simp [show ¬ 8 * 3 + k < 8 by omega, show ¬ 8 * 3 + k < 16 by omega,
      show ¬ 8 * 3 + k < 24 by omega]

theorem elt_ser (W : Vector Word n) (k : Nat) (h : k < 4 * n) :
    elt (ser W) k = byteOf (elt W (k / 4)) (k % 4) := elt_build_inside _ k h

/-- A word read back from a serialised block is the block's word (rule R65). -/
theorem le32_ser (W : Vector Word n) (m : Nat) (h : m < n) : le32 (ser W) (4 * m) = elt W m := by
  unfold le32
  rw [elt_ser W _ (by omega), elt_ser W _ (by omega), elt_ser W _ (by omega), elt_ser W _ (by omega)]
  rw [show 4 * m / 4 = m by omega, show (4 * m + 1) / 4 = m by omega, show (4 * m + 2) / 4 = m by omega,
    show (4 * m + 3) / 4 = m by omega, show 4 * m % 4 = 0 by omega, show (4 * m + 1) % 4 = 1 by omega,
    show (4 * m + 2) % 4 = 2 by omega, show (4 * m + 3) % 4 = 3 by omega]
  exact wordOfBytes_byteOf _

/-- `rotl32` is the core library's rotation (rule R101). -/
theorem rotl32_eq_rotateLeft (x : Word) (r : Nat) : rotl32 x r = x.rotateLeft r := by
  simp [rotl32, BitVec.rotateLeft, BitVec.rotateLeftAux]

theorem ser_bytes_eq_flatMap_st32 (W : Vector Word n) :
    (ser W).toArray.toList = (W.toArray.toList).flatMap st32 := by
  obtain ⟨⟨l⟩, hl⟩ := W
  have hl' : l.length = n := by simpa using hl
  subst hl'
  have key : ∀ (l : List Word), (List.range (4 * l.length)).map (fun k => byteOf (l.getD (k / 4) 0) (k % 4))
      = l.flatMap st32 := by
    intro l
    induction l with
    | nil => rfl
    | cons x xs ih =>
      rw [List.flatMap_cons, ← ih, show 4 * (x :: xs).length = 4 + 4 * xs.length by simp; omega,
        List.range_add, List.map_append, List.map_map]
      congr 1
      refine List.map_congr_left fun k _ => ?_
      simp [show (4 + k) / 4 = k / 4 + 1 by omega]
  exact key l

end Sys2Proof.Machine
end

