-- ==== Sys2Proof/Laws/Memory.lean ====
section
/-! SUPPORT. The data buffer: reading after writing, the canonical form, and its bound. -/

namespace Sys2Proof.Machine

/-! ## Reading after writing -/

@[simp] theorem memRead_nil (a : Nat) : memRead [] a = unlistedByte := rfl

theorem memRead_cons (b : Nat) (v : Byte) (m : Memory) (a : Nat) :
    memRead ((b, v) :: m) a = if a = b then v else memRead m a := rfl

/-- Nothing listed below a bound reads as unlisted below it. -/
theorem memRead_of_sorted {lo a : Nat} {m : Memory} (h : memSorted lo m = true) (ha : a < lo) :
    memRead m a = unlistedByte := by
  induction m generalizing lo with
  | nil => rfl
  | cons cell m ih =>
    obtain ⟨b, v⟩ := cell
    simp only [memSorted, Bool.and_eq_true, decide_eq_true_eq] at h
    rw [memRead_cons, if_neg (by omega)]
    exact ih h.2 (by omega)

theorem memRead_memCell_append (c : Nat) (v : Byte) (m : Memory) (a : Nat)
    (h : v = unlistedByte → memRead m c = unlistedByte) :
    memRead (memCell c v ++ m) a = if a = c then v else memRead m a := by
  unfold memCell
  by_cases hv : v = unlistedByte
  · subst hv
    by_cases ha : a = c
    · subst ha; simp [h]
    · simp [ha]
  · simp [hv, memRead_cons]

theorem memSorted_mono {lo lo' : Nat} {m : Memory} (h : memSorted lo m = true) (hl : lo' ≤ lo) :
    memSorted lo' m = true := by
  cases m with
  | nil => rfl
  | cons cell m =>
    simp only [memSorted, Bool.and_eq_true, decide_eq_true_eq] at h ⊢
    exact ⟨⟨by omega, h.1.2⟩, h.2⟩

theorem memSorted_memCell_append {lo c : Nat} {v : Byte} {m : Memory} (hc : lo ≤ c)
    (h : memSorted (c + 1) m = true) : memSorted lo (memCell c v ++ m) = true := by
  unfold memCell
  split
  · exact memSorted_mono h (by omega)
  · rename_i hv
    simp [memSorted, hc, h, hv]

theorem memSorted_memWrite {lo a : Nat} {v : Byte} {m : Memory} (h : memSorted lo m = true)
    (ha : lo ≤ a) : memSorted lo (memWrite m a v) = true := by
  induction m generalizing lo with
  | nil => simpa [memWrite] using memSorted_memCell_append (m := []) ha rfl
  | cons cell m ih =>
    obtain ⟨b, u⟩ := cell
    have h0 := h
    simp only [memSorted, Bool.and_eq_true, decide_eq_true_eq] at h
    unfold memWrite
    split_ifs with h1 h2
    · refine memSorted_memCell_append ha ?_
      simp only [memSorted, Bool.and_eq_true, decide_eq_true_eq]
      exact ⟨⟨h1, h.1.2⟩, h.2⟩
    · subst h2; exact memSorted_memCell_append ha h.2
    · simp only [memSorted, Bool.and_eq_true, decide_eq_true_eq]
      exact ⟨h.1, ih h.2 (by omega)⟩

/-- A write keeps the canonical form. -/
theorem memWrite_wf {m : Memory} (h : Memory.wf m = true) (a : Nat) (v : Byte) :
    Memory.wf (memWrite m a v) = true := memSorted_memWrite h (Nat.zero_le a)

/-- Reading after writing, in any canonical memory. -/
theorem memRead_memWrite_sorted {lo : Nat} {m : Memory} (h : memSorted lo m = true) (a : Nat) (v : Byte)
    (b : Nat) : memRead (memWrite m a v) b = if b = a then v else memRead m b := by
  induction m generalizing lo with
  | nil => simpa [memWrite] using memRead_memCell_append a v [] b (fun _ => rfl)
  | cons cell m ih =>
    obtain ⟨c, u⟩ := cell
    have h0 := h
    simp only [memSorted, Bool.and_eq_true, decide_eq_true_eq] at h
    unfold memWrite
    split_ifs with h1 h2 h3 h4 h5
    · subst h2
      rw [memRead_memCell_append, if_pos rfl]
      intro _
      rw [memRead_cons, if_neg (by omega)]
      exact memRead_of_sorted h.2 (by omega)
    · rw [memRead_memCell_append, if_neg h2]
      intro _
      rw [memRead_cons, if_neg (by omega)]
      exact memRead_of_sorted h.2 (by omega)
    · subst h3; subst h4
      rw [memRead_memCell_append, if_pos rfl]
      exact fun _ => memRead_of_sorted h.2 (by omega)
    · subst h3
      rw [memRead_memCell_append _ _ _ _ fun _ => memRead_of_sorted h.2 (by omega), if_neg h4,
        memRead_cons, if_neg h4]
    · subst h5
      rw [memRead_cons, if_neg (by omega), ih h.2, if_pos rfl]
    · rw [memRead_cons, memRead_cons, ih h.2, if_neg h5]

/-- Reading after writing: the value written at the place written, the old value everywhere else. -/
theorem memRead_memWrite {m : Memory} (h : Memory.wf m = true) (a : Nat) (v : Byte) (b : Nat) :
    memRead (memWrite m a v) b = if b = a then v else memRead m b := memRead_memWrite_sorted h a v b

/-- Canonical memories that read alike everywhere are equal. -/
theorem memSorted_ext {lo lo' : Nat} {m m' : Memory} (h : memSorted lo m = true)
    (h' : memSorted lo' m' = true) (hr : ∀ a, memRead m a = memRead m' a) : m = m' := by
  induction m generalizing lo lo' m' with
  | nil =>
    cases m' with
    | nil => rfl
    | cons cell m' =>
      obtain ⟨b, v⟩ := cell
      simp only [memSorted, Bool.and_eq_true, Bool.not_eq_true'] at h'
      have := hr b
      rw [memRead_cons, if_pos rfl, memRead_nil] at this
      simp [← this] at h'
  | cons cell m ih =>
    obtain ⟨b, v⟩ := cell
    have h0 := h
    simp only [memSorted, Bool.and_eq_true, decide_eq_true_eq, Bool.not_eq_true', beq_eq_false_iff_ne] at h
    cases m' with
    | nil =>
      have := hr b
      rw [memRead_cons, if_pos rfl, memRead_nil] at this
      exact absurd this h.1.2
    | cons cell' m' =>
      obtain ⟨b', v'⟩ := cell'
      have h0' := h'
      simp only [memSorted, Bool.and_eq_true, decide_eq_true_eq, Bool.not_eq_true', beq_eq_false_iff_ne] at h'
      have hb : b = b' := by
        by_contra hne
        rcases Nat.lt_or_gt_of_ne hne with hlt | hlt
        · have := hr b
          rw [memRead_cons, if_pos rfl, memRead_cons, if_neg hne, memRead_of_sorted h'.2 (by omega)] at this
          exact h.1.2 this
        · have := hr b'
          rw [memRead_cons, if_neg (Ne.symm hne), memRead_cons, if_pos rfl,
            memRead_of_sorted h.2 (by omega)] at this
          exact h'.1.2 this.symm
      subst hb
      have hv : v = v' := by simpa [memRead_cons] using hr b
      subst hv
      rw [ih h.2 h'.2 fun a => ?_]
      by_cases ha : a = b
      · subst ha
        rw [memRead_of_sorted h.2 (by omega), memRead_of_sorted h'.2 (by omega)]
      · simpa [memRead_cons, ha] using hr a

theorem memory_ext {m m' : Memory} (h : Memory.wf m = true) (h' : Memory.wf m' = true)
    (hr : ∀ a, memRead m a = memRead m' a) : m = m' := memSorted_ext h h' hr

/-! ## The bound -/

theorem memBelow_append {hi : Nat} {m m' : Memory} :
    memBelow hi (m ++ m') = (memBelow hi m && memBelow hi m') := by simp [memBelow]

theorem memBelow_memCell {hi a : Nat} (v : Byte) (ha : a < hi) : memBelow hi (memCell a v) = true := by
  unfold memCell; split <;> simp [memBelow, ha]

/-- A write below the bound keeps everything below it. -/
theorem memBelow_memWrite {hi a : Nat} {m : Memory} (h : memBelow hi m = true) (ha : a < hi) (v : Byte) :
    memBelow hi (memWrite m a v) = true := by
  induction m with
  | nil => simpa [memWrite] using memBelow_memCell v ha
  | cons cell m ih =>
    obtain ⟨b, u⟩ := cell
    have hm : memBelow hi m = true := by simp [memBelow] at h ⊢; exact h.2
    unfold memWrite
    split_ifs
    · rw [memBelow_append, memBelow_memCell v ha, h]; rfl
    · rw [memBelow_append, memBelow_memCell v ha, hm]; rfl
    · have hb : b < hi := by simp [memBelow] at h; exact h.1
      have := ih hm
      simp only [memBelow, List.all_cons, Bool.and_eq_true, decide_eq_true_eq]
      exact ⟨hb, this⟩

/-- At and past the bound nothing is listed. -/
theorem memRead_of_below {hi a : Nat} {m : Memory} (h : memBelow hi m = true) (ha : hi ≤ a) :
    memRead m a = unlistedByte := by
  induction m with
  | nil => rfl
  | cons cell m ih =>
    obtain ⟨b, u⟩ := cell
    simp only [memBelow, List.all_cons, Bool.and_eq_true, decide_eq_true_eq] at h
    rw [memRead_cons, if_neg (by omega)]
    exact ih h.2

/-! ## Words -/

theorem memWriteWord_wf {m : Memory} (h : Memory.wf m = true) (a : Nat) (w : Word) :
    Memory.wf (memWriteWord m a w) = true :=
  memWrite_wf (memWrite_wf (memWrite_wf (memWrite_wf h _ _) _ _) _ _) _ _

theorem memBelow_memWriteWord {hi a : Nat} {m : Memory} (h : memBelow hi m = true) (ha : a + 3 < hi)
    (w : Word) : memBelow hi (memWriteWord m a w) = true :=
  memBelow_memWrite (memBelow_memWrite (memBelow_memWrite (memBelow_memWrite h (by omega) _) (by omega) _)
    (by omega) _) ha _

/-- Every byte after a word write: the word's four bytes at the place, the old bytes elsewhere (rule R62). -/
theorem memRead_memWriteWord {m : Memory} (h : Memory.wf m = true) (a : Nat) (w : Word) (b : Nat) :
    memRead (memWriteWord m a w) b = if a ≤ b ∧ b < a + 4 then byteOf w (b - a) else memRead m b := by
  have w1 := memWrite_wf h a (byteOf w 0)
  have w2 := memWrite_wf w1 (a + 1) (byteOf w 1)
  have w3 := memWrite_wf w2 (a + 2) (byteOf w 2)
  unfold memWriteWord
  rw [memRead_memWrite w3, memRead_memWrite w2, memRead_memWrite w1, memRead_memWrite h]
  by_cases hb : a ≤ b ∧ b < a + 4
  · rw [if_pos hb]
    have : b = a ∨ b = a + 1 ∨ b = a + 2 ∨ b = a + 3 := by omega
    rcases this with rfl | rfl | rfl | rfl <;> simp
  · rw [if_neg hb, if_neg (by omega), if_neg (by omega), if_neg (by omega), if_neg (by omega)]

/-- A word read back after it is written is the word (rules R62, R65). -/
theorem memReadWord_memWriteWord {m : Memory} (h : Memory.wf m = true) (a : Nat) (w : Word) :
    memReadWord (memWriteWord m a w) a = w := by
  unfold memReadWord
  simp [memRead_memWriteWord h]

theorem byteOf_memReadWord (m : Memory) (a q : Nat) (h : q < 4) :
    byteOf (memReadWord m a) q = memRead m (a + q) := by
  unfold memReadWord
  rw [byteOf_wordOfBytes _ _ _ _ _ h]
  have : q = 0 ∨ q = 1 ∨ q = 2 ∨ q = 3 := by omega
  rcases this with rfl | rfl | rfl | rfl <;> rfl

theorem byteOf_le32 {n : Nat} (B : Vector Byte n) (o q : Nat) (h : q < 4) :
    byteOf (le32 B o) q = elt B (o + q) := by
  unfold le32
  rw [byteOf_wordOfBytes _ _ _ _ _ h]
  have : q = 0 ∨ q = 1 ∨ q = 2 ∨ q = 3 := by omega
  rcases this with rfl | rfl | rfl | rfl <;> rfl

/-- Every byte of a byte window after a word write (rule R62). -/
theorem elt_putWord {n : Nat} (B : Vector Byte n) (o : Nat) (w : Word) (k : Nat) (hk : k < n) :
    elt (putWord B o w) k = if o ≤ k ∧ k < o + 4 then byteOf w (k - o) else elt B k := by
  unfold putWord
  rw [elt_put, elt_put, elt_put, elt_put]
  by_cases hb : o ≤ k ∧ k < o + 4
  · rw [if_pos hb]
    have : k = o ∨ k = o + 1 ∨ k = o + 2 ∨ k = o + 3 := by omega
    rcases this with rfl | rfl | rfl | rfl <;> simp [hk]
  · rw [if_neg hb, if_neg (by omega), if_neg (by omega), if_neg (by omega), if_neg (by omega)]

/-- Writing a window word with the value it holds changes nothing (rule R67). -/
theorem putWord_le32 {n : Nat} (B : Vector Byte n) (o : Nat) : putWord B o (le32 B o) = B := by
  refine elt_ext fun k hk => ?_
  rw [elt_putWord B o _ k hk]
  split
  · rename_i h
    rw [byteOf_le32 B o (k - o) (by omega)]; congr 1; omega
  · rfl

/-- Writing a DBUF word with the value it holds changes nothing (rule R67). -/
theorem memWriteWord_memReadWord {m : Memory} (h : Memory.wf m = true) (a : Nat) :
    memWriteWord m a (memReadWord m a) = m := by
  refine memory_ext (memWriteWord_wf h a _) h fun b => ?_
  rw [memRead_memWriteWord h]
  split
  · rename_i hb
    rw [byteOf_memReadWord m a (b - a) (by omega)]; congr 1; omega
  · rfl

end Sys2Proof.Machine
end

