-- ==== Sys2Proof/Laws/State.lean ====
section
/-! SUPPORT. For every named update of the state, what each field holds after it: one lemma per field, so that
no proof unfolds a record update. -/

namespace Sys2Proof.Machine

/-! ### `setRc4` -/

@[simp] theorem setRc4_busy (r : Rc4) (s : State) : (setRc4 r s).busy = s.busy := rfl
@[simp] theorem setRc4_err (r : Rc4) (s : State) : (setRc4 r s).err = s.err := rfl
@[simp] theorem setRc4_rc4Valid (r : Rc4) (s : State) : (setRc4 r s).rc4Valid = s.rc4Valid := rfl
@[simp] theorem setRc4_rabbitValid (r : Rc4) (s : State) : (setRc4 r s).rabbitValid = s.rabbitValid := rfl
@[simp] theorem setRc4_rabbitCanon (r : Rc4) (s : State) : (setRc4 r s).rabbitCanon = s.rabbitCanon := rfl
@[simp] theorem setRc4_klen (r : Rc4) (s : State) : (setRc4 r s).klen = s.klen := rfl
@[simp] theorem setRc4_nlen (r : Rc4) (s : State) : (setRc4 r s).nlen = s.nlen := rfl
@[simp] theorem setRc4_ctrLo (r : Rc4) (s : State) : (setRc4 r s).ctrLo = s.ctrLo := rfl
@[simp] theorem setRc4_ctrHi (r : Rc4) (s : State) : (setRc4 r s).ctrHi = s.ctrHi := rfl
@[simp] theorem setRc4_doff (r : Rc4) (s : State) : (setRc4 r s).doff = s.doff := rfl
@[simp] theorem setRc4_dlen (r : Rc4) (s : State) : (setRc4 r s).dlen = s.dlen := rfl
@[simp] theorem setRc4_olen (r : Rc4) (s : State) : (setRc4 r s).olen = s.olen := rfl
@[simp] theorem setRc4_key (r : Rc4) (s : State) : (setRc4 r s).key = s.key := rfl
@[simp] theorem setRc4_nonce (r : Rc4) (s : State) : (setRc4 r s).nonce = s.nonce := rfl
@[simp] theorem setRc4_ks (r : Rc4) (s : State) : (setRc4 r s).ks = s.ks := rfl
@[simp] theorem setRc4_rc4 (r : Rc4) (s : State) : (setRc4 r s).rc4 = r := rfl
@[simp] theorem setRc4_rabbit (r : Rc4) (s : State) : (setRc4 r s).rabbit = s.rabbit := rfl
@[simp] theorem setRc4_dbuf (r : Rc4) (s : State) : (setRc4 r s).dbuf = s.dbuf := rfl
@[simp] theorem setRc4_pending (r : Rc4) (s : State) : (setRc4 r s).pending = s.pending := rfl
@[simp] theorem setRc4_params (r : Rc4) (s : State) : (setRc4 r s).params = s.params := rfl
@[simp] theorem setRc4_script (r : Rc4) (s : State) : (setRc4 r s).script = s.script := rfl
@[simp] theorem setRc4_reads (r : Rc4) (s : State) : (setRc4 r s).reads = s.reads := rfl
@[simp] theorem setRc4_turns (r : Rc4) (s : State) : (setRc4 r s).turns = s.turns := rfl

/-! ### `setRc4Valid` -/

@[simp] theorem setRc4Valid_busy (b : Bool) (s : State) : (setRc4Valid b s).busy = s.busy := rfl
@[simp] theorem setRc4Valid_err (b : Bool) (s : State) : (setRc4Valid b s).err = s.err := rfl
@[simp] theorem setRc4Valid_rc4Valid (b : Bool) (s : State) : (setRc4Valid b s).rc4Valid = b := rfl
@[simp] theorem setRc4Valid_rabbitValid (b : Bool) (s : State) : (setRc4Valid b s).rabbitValid = s.rabbitValid := rfl
@[simp] theorem setRc4Valid_rabbitCanon (b : Bool) (s : State) : (setRc4Valid b s).rabbitCanon = s.rabbitCanon := rfl
@[simp] theorem setRc4Valid_klen (b : Bool) (s : State) : (setRc4Valid b s).klen = s.klen := rfl
@[simp] theorem setRc4Valid_nlen (b : Bool) (s : State) : (setRc4Valid b s).nlen = s.nlen := rfl
@[simp] theorem setRc4Valid_ctrLo (b : Bool) (s : State) : (setRc4Valid b s).ctrLo = s.ctrLo := rfl
@[simp] theorem setRc4Valid_ctrHi (b : Bool) (s : State) : (setRc4Valid b s).ctrHi = s.ctrHi := rfl
@[simp] theorem setRc4Valid_doff (b : Bool) (s : State) : (setRc4Valid b s).doff = s.doff := rfl
@[simp] theorem setRc4Valid_dlen (b : Bool) (s : State) : (setRc4Valid b s).dlen = s.dlen := rfl
@[simp] theorem setRc4Valid_olen (b : Bool) (s : State) : (setRc4Valid b s).olen = s.olen := rfl
@[simp] theorem setRc4Valid_key (b : Bool) (s : State) : (setRc4Valid b s).key = s.key := rfl
@[simp] theorem setRc4Valid_nonce (b : Bool) (s : State) : (setRc4Valid b s).nonce = s.nonce := rfl
@[simp] theorem setRc4Valid_ks (b : Bool) (s : State) : (setRc4Valid b s).ks = s.ks := rfl
@[simp] theorem setRc4Valid_rc4 (b : Bool) (s : State) : (setRc4Valid b s).rc4 = s.rc4 := rfl
@[simp] theorem setRc4Valid_rabbit (b : Bool) (s : State) : (setRc4Valid b s).rabbit = s.rabbit := rfl
@[simp] theorem setRc4Valid_dbuf (b : Bool) (s : State) : (setRc4Valid b s).dbuf = s.dbuf := rfl
@[simp] theorem setRc4Valid_pending (b : Bool) (s : State) : (setRc4Valid b s).pending = s.pending := rfl
@[simp] theorem setRc4Valid_params (b : Bool) (s : State) : (setRc4Valid b s).params = s.params := rfl
@[simp] theorem setRc4Valid_script (b : Bool) (s : State) : (setRc4Valid b s).script = s.script := rfl
@[simp] theorem setRc4Valid_reads (b : Bool) (s : State) : (setRc4Valid b s).reads = s.reads := rfl
@[simp] theorem setRc4Valid_turns (b : Bool) (s : State) : (setRc4Valid b s).turns = s.turns := rfl

/-! ### `setRabbit` -/

@[simp] theorem setRabbit_busy (r : Rabbit) (s : State) : (setRabbit r s).busy = s.busy := rfl
@[simp] theorem setRabbit_err (r : Rabbit) (s : State) : (setRabbit r s).err = s.err := rfl
@[simp] theorem setRabbit_rc4Valid (r : Rabbit) (s : State) : (setRabbit r s).rc4Valid = s.rc4Valid := rfl
@[simp] theorem setRabbit_rabbitValid (r : Rabbit) (s : State) : (setRabbit r s).rabbitValid = s.rabbitValid := rfl
@[simp] theorem setRabbit_rabbitCanon (r : Rabbit) (s : State) : (setRabbit r s).rabbitCanon = s.rabbitCanon := rfl
@[simp] theorem setRabbit_klen (r : Rabbit) (s : State) : (setRabbit r s).klen = s.klen := rfl
@[simp] theorem setRabbit_nlen (r : Rabbit) (s : State) : (setRabbit r s).nlen = s.nlen := rfl
@[simp] theorem setRabbit_ctrLo (r : Rabbit) (s : State) : (setRabbit r s).ctrLo = s.ctrLo := rfl
@[simp] theorem setRabbit_ctrHi (r : Rabbit) (s : State) : (setRabbit r s).ctrHi = s.ctrHi := rfl
@[simp] theorem setRabbit_doff (r : Rabbit) (s : State) : (setRabbit r s).doff = s.doff := rfl
@[simp] theorem setRabbit_dlen (r : Rabbit) (s : State) : (setRabbit r s).dlen = s.dlen := rfl
@[simp] theorem setRabbit_olen (r : Rabbit) (s : State) : (setRabbit r s).olen = s.olen := rfl
@[simp] theorem setRabbit_key (r : Rabbit) (s : State) : (setRabbit r s).key = s.key := rfl
@[simp] theorem setRabbit_nonce (r : Rabbit) (s : State) : (setRabbit r s).nonce = s.nonce := rfl
@[simp] theorem setRabbit_ks (r : Rabbit) (s : State) : (setRabbit r s).ks = s.ks := rfl
@[simp] theorem setRabbit_rc4 (r : Rabbit) (s : State) : (setRabbit r s).rc4 = s.rc4 := rfl
@[simp] theorem setRabbit_rabbit (r : Rabbit) (s : State) : (setRabbit r s).rabbit = r := rfl
@[simp] theorem setRabbit_dbuf (r : Rabbit) (s : State) : (setRabbit r s).dbuf = s.dbuf := rfl
@[simp] theorem setRabbit_pending (r : Rabbit) (s : State) : (setRabbit r s).pending = s.pending := rfl
@[simp] theorem setRabbit_params (r : Rabbit) (s : State) : (setRabbit r s).params = s.params := rfl
@[simp] theorem setRabbit_script (r : Rabbit) (s : State) : (setRabbit r s).script = s.script := rfl
@[simp] theorem setRabbit_reads (r : Rabbit) (s : State) : (setRabbit r s).reads = s.reads := rfl
@[simp] theorem setRabbit_turns (r : Rabbit) (s : State) : (setRabbit r s).turns = s.turns := rfl

/-! ### `setRabbitValid` -/

@[simp] theorem setRabbitValid_busy (b : Bool) (s : State) : (setRabbitValid b s).busy = s.busy := rfl
@[simp] theorem setRabbitValid_err (b : Bool) (s : State) : (setRabbitValid b s).err = s.err := rfl
@[simp] theorem setRabbitValid_rc4Valid (b : Bool) (s : State) : (setRabbitValid b s).rc4Valid = s.rc4Valid := rfl
@[simp] theorem setRabbitValid_rabbitValid (b : Bool) (s : State) : (setRabbitValid b s).rabbitValid = b := rfl
@[simp] theorem setRabbitValid_rabbitCanon (b : Bool) (s : State) : (setRabbitValid b s).rabbitCanon = s.rabbitCanon := rfl
@[simp] theorem setRabbitValid_klen (b : Bool) (s : State) : (setRabbitValid b s).klen = s.klen := rfl
@[simp] theorem setRabbitValid_nlen (b : Bool) (s : State) : (setRabbitValid b s).nlen = s.nlen := rfl
@[simp] theorem setRabbitValid_ctrLo (b : Bool) (s : State) : (setRabbitValid b s).ctrLo = s.ctrLo := rfl
@[simp] theorem setRabbitValid_ctrHi (b : Bool) (s : State) : (setRabbitValid b s).ctrHi = s.ctrHi := rfl
@[simp] theorem setRabbitValid_doff (b : Bool) (s : State) : (setRabbitValid b s).doff = s.doff := rfl
@[simp] theorem setRabbitValid_dlen (b : Bool) (s : State) : (setRabbitValid b s).dlen = s.dlen := rfl
@[simp] theorem setRabbitValid_olen (b : Bool) (s : State) : (setRabbitValid b s).olen = s.olen := rfl
@[simp] theorem setRabbitValid_key (b : Bool) (s : State) : (setRabbitValid b s).key = s.key := rfl
@[simp] theorem setRabbitValid_nonce (b : Bool) (s : State) : (setRabbitValid b s).nonce = s.nonce := rfl
@[simp] theorem setRabbitValid_ks (b : Bool) (s : State) : (setRabbitValid b s).ks = s.ks := rfl
@[simp] theorem setRabbitValid_rc4 (b : Bool) (s : State) : (setRabbitValid b s).rc4 = s.rc4 := rfl
@[simp] theorem setRabbitValid_rabbit (b : Bool) (s : State) : (setRabbitValid b s).rabbit = s.rabbit := rfl
@[simp] theorem setRabbitValid_dbuf (b : Bool) (s : State) : (setRabbitValid b s).dbuf = s.dbuf := rfl
@[simp] theorem setRabbitValid_pending (b : Bool) (s : State) : (setRabbitValid b s).pending = s.pending := rfl
@[simp] theorem setRabbitValid_params (b : Bool) (s : State) : (setRabbitValid b s).params = s.params := rfl
@[simp] theorem setRabbitValid_script (b : Bool) (s : State) : (setRabbitValid b s).script = s.script := rfl
@[simp] theorem setRabbitValid_reads (b : Bool) (s : State) : (setRabbitValid b s).reads = s.reads := rfl
@[simp] theorem setRabbitValid_turns (b : Bool) (s : State) : (setRabbitValid b s).turns = s.turns := rfl

/-! ### `setKs` -/

@[simp] theorem setKs_busy (k : Vector Byte 64) (s : State) : (setKs k s).busy = s.busy := rfl
@[simp] theorem setKs_err (k : Vector Byte 64) (s : State) : (setKs k s).err = s.err := rfl
@[simp] theorem setKs_rc4Valid (k : Vector Byte 64) (s : State) : (setKs k s).rc4Valid = s.rc4Valid := rfl
@[simp] theorem setKs_rabbitValid (k : Vector Byte 64) (s : State) : (setKs k s).rabbitValid = s.rabbitValid := rfl
@[simp] theorem setKs_rabbitCanon (k : Vector Byte 64) (s : State) : (setKs k s).rabbitCanon = s.rabbitCanon := rfl
@[simp] theorem setKs_klen (k : Vector Byte 64) (s : State) : (setKs k s).klen = s.klen := rfl
@[simp] theorem setKs_nlen (k : Vector Byte 64) (s : State) : (setKs k s).nlen = s.nlen := rfl
@[simp] theorem setKs_ctrLo (k : Vector Byte 64) (s : State) : (setKs k s).ctrLo = s.ctrLo := rfl
@[simp] theorem setKs_ctrHi (k : Vector Byte 64) (s : State) : (setKs k s).ctrHi = s.ctrHi := rfl
@[simp] theorem setKs_doff (k : Vector Byte 64) (s : State) : (setKs k s).doff = s.doff := rfl
@[simp] theorem setKs_dlen (k : Vector Byte 64) (s : State) : (setKs k s).dlen = s.dlen := rfl
@[simp] theorem setKs_olen (k : Vector Byte 64) (s : State) : (setKs k s).olen = s.olen := rfl
@[simp] theorem setKs_key (k : Vector Byte 64) (s : State) : (setKs k s).key = s.key := rfl
@[simp] theorem setKs_nonce (k : Vector Byte 64) (s : State) : (setKs k s).nonce = s.nonce := rfl
@[simp] theorem setKs_ks (k : Vector Byte 64) (s : State) : (setKs k s).ks = k := rfl
@[simp] theorem setKs_rc4 (k : Vector Byte 64) (s : State) : (setKs k s).rc4 = s.rc4 := rfl
@[simp] theorem setKs_rabbit (k : Vector Byte 64) (s : State) : (setKs k s).rabbit = s.rabbit := rfl
@[simp] theorem setKs_dbuf (k : Vector Byte 64) (s : State) : (setKs k s).dbuf = s.dbuf := rfl
@[simp] theorem setKs_pending (k : Vector Byte 64) (s : State) : (setKs k s).pending = s.pending := rfl
@[simp] theorem setKs_params (k : Vector Byte 64) (s : State) : (setKs k s).params = s.params := rfl
@[simp] theorem setKs_script (k : Vector Byte 64) (s : State) : (setKs k s).script = s.script := rfl
@[simp] theorem setKs_reads (k : Vector Byte 64) (s : State) : (setKs k s).reads = s.reads := rfl
@[simp] theorem setKs_turns (k : Vector Byte 64) (s : State) : (setKs k s).turns = s.turns := rfl

/-! ### `setOlen` -/

@[simp] theorem setOlen_busy (n : Word) (s : State) : (setOlen n s).busy = s.busy := rfl
@[simp] theorem setOlen_err (n : Word) (s : State) : (setOlen n s).err = s.err := rfl
@[simp] theorem setOlen_rc4Valid (n : Word) (s : State) : (setOlen n s).rc4Valid = s.rc4Valid := rfl
@[simp] theorem setOlen_rabbitValid (n : Word) (s : State) : (setOlen n s).rabbitValid = s.rabbitValid := rfl
@[simp] theorem setOlen_rabbitCanon (n : Word) (s : State) : (setOlen n s).rabbitCanon = s.rabbitCanon := rfl
@[simp] theorem setOlen_klen (n : Word) (s : State) : (setOlen n s).klen = s.klen := rfl
@[simp] theorem setOlen_nlen (n : Word) (s : State) : (setOlen n s).nlen = s.nlen := rfl
@[simp] theorem setOlen_ctrLo (n : Word) (s : State) : (setOlen n s).ctrLo = s.ctrLo := rfl
@[simp] theorem setOlen_ctrHi (n : Word) (s : State) : (setOlen n s).ctrHi = s.ctrHi := rfl
@[simp] theorem setOlen_doff (n : Word) (s : State) : (setOlen n s).doff = s.doff := rfl
@[simp] theorem setOlen_dlen (n : Word) (s : State) : (setOlen n s).dlen = s.dlen := rfl
@[simp] theorem setOlen_olen (n : Word) (s : State) : (setOlen n s).olen = n := rfl
@[simp] theorem setOlen_key (n : Word) (s : State) : (setOlen n s).key = s.key := rfl
@[simp] theorem setOlen_nonce (n : Word) (s : State) : (setOlen n s).nonce = s.nonce := rfl
@[simp] theorem setOlen_ks (n : Word) (s : State) : (setOlen n s).ks = s.ks := rfl
@[simp] theorem setOlen_rc4 (n : Word) (s : State) : (setOlen n s).rc4 = s.rc4 := rfl
@[simp] theorem setOlen_rabbit (n : Word) (s : State) : (setOlen n s).rabbit = s.rabbit := rfl
@[simp] theorem setOlen_dbuf (n : Word) (s : State) : (setOlen n s).dbuf = s.dbuf := rfl
@[simp] theorem setOlen_pending (n : Word) (s : State) : (setOlen n s).pending = s.pending := rfl
@[simp] theorem setOlen_params (n : Word) (s : State) : (setOlen n s).params = s.params := rfl
@[simp] theorem setOlen_script (n : Word) (s : State) : (setOlen n s).script = s.script := rfl
@[simp] theorem setOlen_reads (n : Word) (s : State) : (setOlen n s).reads = s.reads := rfl
@[simp] theorem setOlen_turns (n : Word) (s : State) : (setOlen n s).turns = s.turns := rfl

/-! ### `setDbuf` -/

@[simp] theorem setDbuf_busy (m : Memory) (s : State) : (setDbuf m s).busy = s.busy := rfl
@[simp] theorem setDbuf_err (m : Memory) (s : State) : (setDbuf m s).err = s.err := rfl
@[simp] theorem setDbuf_rc4Valid (m : Memory) (s : State) : (setDbuf m s).rc4Valid = s.rc4Valid := rfl
@[simp] theorem setDbuf_rabbitValid (m : Memory) (s : State) : (setDbuf m s).rabbitValid = s.rabbitValid := rfl
@[simp] theorem setDbuf_rabbitCanon (m : Memory) (s : State) : (setDbuf m s).rabbitCanon = s.rabbitCanon := rfl
@[simp] theorem setDbuf_klen (m : Memory) (s : State) : (setDbuf m s).klen = s.klen := rfl
@[simp] theorem setDbuf_nlen (m : Memory) (s : State) : (setDbuf m s).nlen = s.nlen := rfl
@[simp] theorem setDbuf_ctrLo (m : Memory) (s : State) : (setDbuf m s).ctrLo = s.ctrLo := rfl
@[simp] theorem setDbuf_ctrHi (m : Memory) (s : State) : (setDbuf m s).ctrHi = s.ctrHi := rfl
@[simp] theorem setDbuf_doff (m : Memory) (s : State) : (setDbuf m s).doff = s.doff := rfl
@[simp] theorem setDbuf_dlen (m : Memory) (s : State) : (setDbuf m s).dlen = s.dlen := rfl
@[simp] theorem setDbuf_olen (m : Memory) (s : State) : (setDbuf m s).olen = s.olen := rfl
@[simp] theorem setDbuf_key (m : Memory) (s : State) : (setDbuf m s).key = s.key := rfl
@[simp] theorem setDbuf_nonce (m : Memory) (s : State) : (setDbuf m s).nonce = s.nonce := rfl
@[simp] theorem setDbuf_ks (m : Memory) (s : State) : (setDbuf m s).ks = s.ks := rfl
@[simp] theorem setDbuf_rc4 (m : Memory) (s : State) : (setDbuf m s).rc4 = s.rc4 := rfl
@[simp] theorem setDbuf_rabbit (m : Memory) (s : State) : (setDbuf m s).rabbit = s.rabbit := rfl
@[simp] theorem setDbuf_dbuf (m : Memory) (s : State) : (setDbuf m s).dbuf = m := rfl
@[simp] theorem setDbuf_pending (m : Memory) (s : State) : (setDbuf m s).pending = s.pending := rfl
@[simp] theorem setDbuf_params (m : Memory) (s : State) : (setDbuf m s).params = s.params := rfl
@[simp] theorem setDbuf_script (m : Memory) (s : State) : (setDbuf m s).script = s.script := rfl
@[simp] theorem setDbuf_reads (m : Memory) (s : State) : (setDbuf m s).reads = s.reads := rfl
@[simp] theorem setDbuf_turns (m : Memory) (s : State) : (setDbuf m s).turns = s.turns := rfl

/-! ### `finish` -/

@[simp] theorem finish_busy (e : ErrCode) (s : State) : (finish e s).busy = false := rfl
@[simp] theorem finish_err (e : ErrCode) (s : State) : (finish e s).err = e := rfl
@[simp] theorem finish_rc4Valid (e : ErrCode) (s : State) : (finish e s).rc4Valid = s.rc4Valid := rfl
@[simp] theorem finish_rabbitValid (e : ErrCode) (s : State) : (finish e s).rabbitValid = s.rabbitValid := rfl
@[simp] theorem finish_rabbitCanon (e : ErrCode) (s : State) : (finish e s).rabbitCanon = s.rabbitCanon := rfl
@[simp] theorem finish_klen (e : ErrCode) (s : State) : (finish e s).klen = s.klen := rfl
@[simp] theorem finish_nlen (e : ErrCode) (s : State) : (finish e s).nlen = s.nlen := rfl
@[simp] theorem finish_ctrLo (e : ErrCode) (s : State) : (finish e s).ctrLo = s.ctrLo := rfl
@[simp] theorem finish_ctrHi (e : ErrCode) (s : State) : (finish e s).ctrHi = s.ctrHi := rfl
@[simp] theorem finish_doff (e : ErrCode) (s : State) : (finish e s).doff = s.doff := rfl
@[simp] theorem finish_dlen (e : ErrCode) (s : State) : (finish e s).dlen = s.dlen := rfl
@[simp] theorem finish_olen (e : ErrCode) (s : State) : (finish e s).olen = s.olen := rfl
@[simp] theorem finish_key (e : ErrCode) (s : State) : (finish e s).key = s.key := rfl
@[simp] theorem finish_nonce (e : ErrCode) (s : State) : (finish e s).nonce = s.nonce := rfl
@[simp] theorem finish_ks (e : ErrCode) (s : State) : (finish e s).ks = s.ks := rfl
@[simp] theorem finish_rc4 (e : ErrCode) (s : State) : (finish e s).rc4 = s.rc4 := rfl
@[simp] theorem finish_rabbit (e : ErrCode) (s : State) : (finish e s).rabbit = s.rabbit := rfl
@[simp] theorem finish_dbuf (e : ErrCode) (s : State) : (finish e s).dbuf = s.dbuf := rfl
@[simp] theorem finish_pending (e : ErrCode) (s : State) : (finish e s).pending = s.pending := rfl
@[simp] theorem finish_params (e : ErrCode) (s : State) : (finish e s).params = s.params := rfl
@[simp] theorem finish_script (e : ErrCode) (s : State) : (finish e s).script = s.script := rfl
@[simp] theorem finish_reads (e : ErrCode) (s : State) : (finish e s).reads = s.reads := rfl
@[simp] theorem finish_turns (e : ErrCode) (s : State) : (finish e s).turns = s.turns := rfl

/-! ### `issue` -/

@[simp] theorem issue_busy (w : Word) (s : State) : (issue w s).busy = true := rfl
@[simp] theorem issue_err (w : Word) (s : State) : (issue w s).err = s.err := rfl
@[simp] theorem issue_rc4Valid (w : Word) (s : State) : (issue w s).rc4Valid = s.rc4Valid := rfl
@[simp] theorem issue_rabbitValid (w : Word) (s : State) : (issue w s).rabbitValid = s.rabbitValid := rfl
@[simp] theorem issue_rabbitCanon (w : Word) (s : State) : (issue w s).rabbitCanon = s.rabbitCanon := rfl
@[simp] theorem issue_klen (w : Word) (s : State) : (issue w s).klen = s.klen := rfl
@[simp] theorem issue_nlen (w : Word) (s : State) : (issue w s).nlen = s.nlen := rfl
@[simp] theorem issue_ctrLo (w : Word) (s : State) : (issue w s).ctrLo = s.ctrLo := rfl
@[simp] theorem issue_ctrHi (w : Word) (s : State) : (issue w s).ctrHi = s.ctrHi := rfl
@[simp] theorem issue_doff (w : Word) (s : State) : (issue w s).doff = s.doff := rfl
@[simp] theorem issue_dlen (w : Word) (s : State) : (issue w s).dlen = s.dlen := rfl
@[simp] theorem issue_olen (w : Word) (s : State) : (issue w s).olen = s.olen := rfl
@[simp] theorem issue_key (w : Word) (s : State) : (issue w s).key = s.key := rfl
@[simp] theorem issue_nonce (w : Word) (s : State) : (issue w s).nonce = s.nonce := rfl
@[simp] theorem issue_ks (w : Word) (s : State) : (issue w s).ks = s.ks := rfl
@[simp] theorem issue_rc4 (w : Word) (s : State) : (issue w s).rc4 = s.rc4 := rfl
@[simp] theorem issue_rabbit (w : Word) (s : State) : (issue w s).rabbit = s.rabbit := rfl
@[simp] theorem issue_dbuf (w : Word) (s : State) : (issue w s).dbuf = s.dbuf := rfl
@[simp] theorem issue_pending (w : Word) (s : State) : (issue w s).pending = w := rfl
@[simp] theorem issue_params (w : Word) (s : State) : (issue w s).params = s.params := rfl
@[simp] theorem issue_script (w : Word) (s : State) : (issue w s).script = s.script := rfl
@[simp] theorem issue_reads (w : Word) (s : State) : (issue w s).reads = s.reads := rfl
@[simp] theorem issue_turns (w : Word) (s : State) : (issue w s).turns = s.turns := rfl

/-! ### `setScript` -/

@[simp] theorem setScript_busy (l : List HostOp) (s : State) : (setScript l s).busy = s.busy := rfl
@[simp] theorem setScript_err (l : List HostOp) (s : State) : (setScript l s).err = s.err := rfl
@[simp] theorem setScript_rc4Valid (l : List HostOp) (s : State) : (setScript l s).rc4Valid = s.rc4Valid := rfl
@[simp] theorem setScript_rabbitValid (l : List HostOp) (s : State) : (setScript l s).rabbitValid = s.rabbitValid := rfl
@[simp] theorem setScript_rabbitCanon (l : List HostOp) (s : State) : (setScript l s).rabbitCanon = s.rabbitCanon := rfl
@[simp] theorem setScript_klen (l : List HostOp) (s : State) : (setScript l s).klen = s.klen := rfl
@[simp] theorem setScript_nlen (l : List HostOp) (s : State) : (setScript l s).nlen = s.nlen := rfl
@[simp] theorem setScript_ctrLo (l : List HostOp) (s : State) : (setScript l s).ctrLo = s.ctrLo := rfl
@[simp] theorem setScript_ctrHi (l : List HostOp) (s : State) : (setScript l s).ctrHi = s.ctrHi := rfl
@[simp] theorem setScript_doff (l : List HostOp) (s : State) : (setScript l s).doff = s.doff := rfl
@[simp] theorem setScript_dlen (l : List HostOp) (s : State) : (setScript l s).dlen = s.dlen := rfl
@[simp] theorem setScript_olen (l : List HostOp) (s : State) : (setScript l s).olen = s.olen := rfl
@[simp] theorem setScript_key (l : List HostOp) (s : State) : (setScript l s).key = s.key := rfl
@[simp] theorem setScript_nonce (l : List HostOp) (s : State) : (setScript l s).nonce = s.nonce := rfl
@[simp] theorem setScript_ks (l : List HostOp) (s : State) : (setScript l s).ks = s.ks := rfl
@[simp] theorem setScript_rc4 (l : List HostOp) (s : State) : (setScript l s).rc4 = s.rc4 := rfl
@[simp] theorem setScript_rabbit (l : List HostOp) (s : State) : (setScript l s).rabbit = s.rabbit := rfl
@[simp] theorem setScript_dbuf (l : List HostOp) (s : State) : (setScript l s).dbuf = s.dbuf := rfl
@[simp] theorem setScript_pending (l : List HostOp) (s : State) : (setScript l s).pending = s.pending := rfl
@[simp] theorem setScript_params (l : List HostOp) (s : State) : (setScript l s).params = s.params := rfl
@[simp] theorem setScript_script (l : List HostOp) (s : State) : (setScript l s).script = l := rfl
@[simp] theorem setScript_reads (l : List HostOp) (s : State) : (setScript l s).reads = s.reads := rfl
@[simp] theorem setScript_turns (l : List HostOp) (s : State) : (setScript l s).turns = s.turns := rfl

/-! ### `setTurns` -/

@[simp] theorem setTurns_busy (l : List Turn) (s : State) : (setTurns l s).busy = s.busy := rfl
@[simp] theorem setTurns_err (l : List Turn) (s : State) : (setTurns l s).err = s.err := rfl
@[simp] theorem setTurns_rc4Valid (l : List Turn) (s : State) : (setTurns l s).rc4Valid = s.rc4Valid := rfl
@[simp] theorem setTurns_rabbitValid (l : List Turn) (s : State) : (setTurns l s).rabbitValid = s.rabbitValid := rfl
@[simp] theorem setTurns_rabbitCanon (l : List Turn) (s : State) : (setTurns l s).rabbitCanon = s.rabbitCanon := rfl
@[simp] theorem setTurns_klen (l : List Turn) (s : State) : (setTurns l s).klen = s.klen := rfl
@[simp] theorem setTurns_nlen (l : List Turn) (s : State) : (setTurns l s).nlen = s.nlen := rfl
@[simp] theorem setTurns_ctrLo (l : List Turn) (s : State) : (setTurns l s).ctrLo = s.ctrLo := rfl
@[simp] theorem setTurns_ctrHi (l : List Turn) (s : State) : (setTurns l s).ctrHi = s.ctrHi := rfl
@[simp] theorem setTurns_doff (l : List Turn) (s : State) : (setTurns l s).doff = s.doff := rfl
@[simp] theorem setTurns_dlen (l : List Turn) (s : State) : (setTurns l s).dlen = s.dlen := rfl
@[simp] theorem setTurns_olen (l : List Turn) (s : State) : (setTurns l s).olen = s.olen := rfl
@[simp] theorem setTurns_key (l : List Turn) (s : State) : (setTurns l s).key = s.key := rfl
@[simp] theorem setTurns_nonce (l : List Turn) (s : State) : (setTurns l s).nonce = s.nonce := rfl
@[simp] theorem setTurns_ks (l : List Turn) (s : State) : (setTurns l s).ks = s.ks := rfl
@[simp] theorem setTurns_rc4 (l : List Turn) (s : State) : (setTurns l s).rc4 = s.rc4 := rfl
@[simp] theorem setTurns_rabbit (l : List Turn) (s : State) : (setTurns l s).rabbit = s.rabbit := rfl
@[simp] theorem setTurns_dbuf (l : List Turn) (s : State) : (setTurns l s).dbuf = s.dbuf := rfl
@[simp] theorem setTurns_pending (l : List Turn) (s : State) : (setTurns l s).pending = s.pending := rfl
@[simp] theorem setTurns_params (l : List Turn) (s : State) : (setTurns l s).params = s.params := rfl
@[simp] theorem setTurns_script (l : List Turn) (s : State) : (setTurns l s).script = s.script := rfl
@[simp] theorem setTurns_reads (l : List Turn) (s : State) : (setTurns l s).reads = s.reads := rfl
@[simp] theorem setTurns_turns (l : List Turn) (s : State) : (setTurns l s).turns = l := rfl

/-! ### `logRead` -/

@[simp] theorem logRead_busy (w : Word) (s : State) : (logRead w s).busy = s.busy := rfl
@[simp] theorem logRead_err (w : Word) (s : State) : (logRead w s).err = s.err := rfl
@[simp] theorem logRead_rc4Valid (w : Word) (s : State) : (logRead w s).rc4Valid = s.rc4Valid := rfl
@[simp] theorem logRead_rabbitValid (w : Word) (s : State) : (logRead w s).rabbitValid = s.rabbitValid := rfl
@[simp] theorem logRead_rabbitCanon (w : Word) (s : State) : (logRead w s).rabbitCanon = s.rabbitCanon := rfl
@[simp] theorem logRead_klen (w : Word) (s : State) : (logRead w s).klen = s.klen := rfl
@[simp] theorem logRead_nlen (w : Word) (s : State) : (logRead w s).nlen = s.nlen := rfl
@[simp] theorem logRead_ctrLo (w : Word) (s : State) : (logRead w s).ctrLo = s.ctrLo := rfl
@[simp] theorem logRead_ctrHi (w : Word) (s : State) : (logRead w s).ctrHi = s.ctrHi := rfl
@[simp] theorem logRead_doff (w : Word) (s : State) : (logRead w s).doff = s.doff := rfl
@[simp] theorem logRead_dlen (w : Word) (s : State) : (logRead w s).dlen = s.dlen := rfl
@[simp] theorem logRead_olen (w : Word) (s : State) : (logRead w s).olen = s.olen := rfl
@[simp] theorem logRead_key (w : Word) (s : State) : (logRead w s).key = s.key := rfl
@[simp] theorem logRead_nonce (w : Word) (s : State) : (logRead w s).nonce = s.nonce := rfl
@[simp] theorem logRead_ks (w : Word) (s : State) : (logRead w s).ks = s.ks := rfl
@[simp] theorem logRead_rc4 (w : Word) (s : State) : (logRead w s).rc4 = s.rc4 := rfl
@[simp] theorem logRead_rabbit (w : Word) (s : State) : (logRead w s).rabbit = s.rabbit := rfl
@[simp] theorem logRead_dbuf (w : Word) (s : State) : (logRead w s).dbuf = s.dbuf := rfl
@[simp] theorem logRead_pending (w : Word) (s : State) : (logRead w s).pending = s.pending := rfl
@[simp] theorem logRead_params (w : Word) (s : State) : (logRead w s).params = s.params := rfl
@[simp] theorem logRead_script (w : Word) (s : State) : (logRead w s).script = s.script := rfl
@[simp] theorem logRead_reads (w : Word) (s : State) : (logRead w s).reads = s.reads ++ [w] := rfl
@[simp] theorem logRead_turns (w : Word) (s : State) : (logRead w s).turns = s.turns := rfl

/-! ### `platformReset` -/

@[simp] theorem platformReset_busy (s : State) : (platformReset s).busy = (State.resetWith s.params).busy := rfl
@[simp] theorem platformReset_err (s : State) : (platformReset s).err = (State.resetWith s.params).err := rfl
@[simp] theorem platformReset_rc4Valid (s : State) : (platformReset s).rc4Valid = (State.resetWith s.params).rc4Valid := rfl
@[simp] theorem platformReset_rabbitValid (s : State) : (platformReset s).rabbitValid = (State.resetWith s.params).rabbitValid := rfl
@[simp] theorem platformReset_rabbitCanon (s : State) : (platformReset s).rabbitCanon = (State.resetWith s.params).rabbitCanon := rfl
@[simp] theorem platformReset_klen (s : State) : (platformReset s).klen = (State.resetWith s.params).klen := rfl
@[simp] theorem platformReset_nlen (s : State) : (platformReset s).nlen = (State.resetWith s.params).nlen := rfl
@[simp] theorem platformReset_ctrLo (s : State) : (platformReset s).ctrLo = (State.resetWith s.params).ctrLo := rfl
@[simp] theorem platformReset_ctrHi (s : State) : (platformReset s).ctrHi = (State.resetWith s.params).ctrHi := rfl
@[simp] theorem platformReset_doff (s : State) : (platformReset s).doff = (State.resetWith s.params).doff := rfl
@[simp] theorem platformReset_dlen (s : State) : (platformReset s).dlen = (State.resetWith s.params).dlen := rfl
@[simp] theorem platformReset_olen (s : State) : (platformReset s).olen = (State.resetWith s.params).olen := rfl
@[simp] theorem platformReset_key (s : State) : (platformReset s).key = (State.resetWith s.params).key := rfl
@[simp] theorem platformReset_nonce (s : State) : (platformReset s).nonce = (State.resetWith s.params).nonce := rfl
@[simp] theorem platformReset_ks (s : State) : (platformReset s).ks = (State.resetWith s.params).ks := rfl
@[simp] theorem platformReset_rc4 (s : State) : (platformReset s).rc4 = (State.resetWith s.params).rc4 := rfl
@[simp] theorem platformReset_rabbit (s : State) : (platformReset s).rabbit = (State.resetWith s.params).rabbit := rfl
@[simp] theorem platformReset_dbuf (s : State) : (platformReset s).dbuf = (State.resetWith s.params).dbuf := rfl
@[simp] theorem platformReset_pending (s : State) : (platformReset s).pending = (State.resetWith s.params).pending := rfl
@[simp] theorem platformReset_params (s : State) : (platformReset s).params = s.params := rfl
@[simp] theorem platformReset_script (s : State) : (platformReset s).script = s.script := rfl
@[simp] theorem platformReset_reads (s : State) : (platformReset s).reads = s.reads := rfl
@[simp] theorem platformReset_turns (s : State) : (platformReset s).turns = s.turns := rfl

end Sys2Proof.Machine
end

