-- ==== Sys2Proof/Laws/Ops.lean ====
section
/-! SUPPORT. The execution template and the tiling driver: once for each, everything it can do. -/

namespace Sys2Proof.Machine

/-! ## The execution template (rules R107, R262, R263) -/

/-- The first failing check of a list, the passing ones before it aside. -/
theorem firstFailure_cons (k : Check) (ks : List Check) :
    firstFailure (k :: ks) = if k.passes then firstFailure ks else some k.code := rfl

@[simp] theorem firstFailure_nil : firstFailure [] = none := rfl

theorem firstFailure_append (ks ls : List Check) :
    firstFailure (ks ++ ls) = (match firstFailure ks with | some e => some e | none => firstFailure ls) := by
  induction ks with
  | nil => rfl
  | cons k ks ih =>
    simp only [List.cons_append, firstFailure_cons]
    split <;> simp_all

/-- A command either fails, writing only ERR and BUSY, or runs its body and completes with OK. -/
theorem runCommand_cases {checks : State → List Check} {body : State → State} {s : State}
    {o : Host.Outcome State Fault Refusal} (h : runCommand checks body s = o) :
    (∃ e, firstFailure (checks s) = some e ∧ o = .next (finish e s)) ∨
    (firstFailure (checks s) = none ∧ o = .next (finish .ok (body s))) := by
  unfold runCommand at h
  split at h
  · exact .inl ⟨_, ‹_›, h.symm⟩
  · exact .inr ⟨‹_›, h.symm⟩

theorem runCommand_fails {checks : State → List Check} {body : State → State} {s : State} {e : ErrCode}
    (h : firstFailure (checks s) = some e) : runCommand checks body s = .next (finish e s) := by
  simp [runCommand, h, failWith]

theorem runCommand_succeeds {checks : State → List Check} {body : State → State} {s : State}
    (h : firstFailure (checks s) = none) : runCommand checks body s = .next (finish .ok (body s)) := by
  simp [runCommand, h]

/-! ## One tile -/

theorem xorTile_wf {T : Nat} (K : Vector Byte T) (a n : Nat) {m : Memory} (h : Memory.wf m = true) :
    Memory.wf (xorTile K a n m) = true := by
  induction n with
  | zero => exact h
  | succ n ih => exact memWrite_wf ih _ _

theorem xorTile_below {T hi : Nat} (K : Vector Byte T) (a n : Nat) {m : Memory}
    (h : memBelow hi m = true) (hn : a + n ≤ hi) : memBelow hi (xorTile K a n m) = true := by
  induction n with
  | zero => exact h
  | succ n ih => exact memBelow_memWrite (ih (by omega)) (by omega) _

/-- A tile XORs the first `n` keystream bytes into DBUF from `a` on and touches nothing else. -/
theorem memRead_xorTile {T : Nat} (K : Vector Byte T) (a n : Nat) {m : Memory} (h : Memory.wf m = true)
    (b : Nat) : memRead (xorTile K a n m) b =
      if a ≤ b ∧ b < a + n then memRead m b ^^^ elt K (b - a) else memRead m b := by
  induction n with
  | zero => rw [if_neg (by omega)]; rfl
  | succ n ih =>
    simp only [xorTile]
    rw [memRead_memWrite (xorTile_wf K a n h)]
    by_cases hb : b = a + n
    · subst hb
      rw [if_pos rfl, ih, if_neg (by omega), if_pos (by omega)]
      congr 2; omega
    · rw [if_neg hb, ih]
      by_cases hr : a ≤ b ∧ b < a + n
      · rw [if_pos hr, if_pos (by omega)]
      · rw [if_neg hr, if_neg (by omega)]

/-! ## All tiles (rule R106) -/

/-- The generator's state before the tile `n` tiles after tile `t`. -/
def tileState {σ : Type} {T : Nat} (gen : Nat → σ → σ × Vector Byte T) : Nat → σ → Nat → σ
  | _, g, 0 => g
  | t, g, n + 1 => tileState gen (t + 1) (gen t g).1 n

section tiles

variable {σ : Type} {T : Nat} (gen : Nat → σ → σ × Vector Byte T) (doff dlen : Nat)

theorem xorTilesFrom_wf (n t : Nat) (g : σ) {m : Memory} (h : Memory.wf m = true) :
    Memory.wf (xorTilesFrom gen doff dlen n t g m).2 = true := by
  induction n generalizing t g m with
  | zero => exact h
  | succ n ih => exact ih _ _ (xorTile_wf _ _ _ h)

theorem xorTilesFrom_below {hi : Nat} (n t : Nat) (g : σ) {m : Memory} (h : memBelow hi m = true)
    (hr : doff + dlen ≤ hi) (ht : doff + T * t ≤ hi) :
    memBelow hi (xorTilesFrom gen doff dlen n t g m).2 = true := by
  induction n generalizing t g m with
  | zero => exact h
  | succ n ih =>
    simp only [xorTilesFrom]
    by_cases hd : T * (t + 1) ≤ dlen
    · exact ih _ _ (xorTile_below _ _ _ h (by omega)) (by omega)
    · have key : ∀ (n t : Nat) (g : σ) (m : Memory), dlen ≤ T * t → memBelow hi m = true →
          memBelow hi (xorTilesFrom gen doff dlen n t g m).2 = true := by
        intro n
        induction n with
        | zero => exact fun _ _ _ _ h => h
        | succ n ih' =>
          intro t g m hle hm
          simp only [xorTilesFrom, show dlen - T * t = 0 by omega, Nat.min_zero, xorTile]
          exact ih' _ _ _ (by rw [Nat.mul_add]; omega) hm
      exact key _ _ _ _ (by omega) (xorTile_below _ _ _ h (by omega))

theorem xorTilesFrom_state (n t : Nat) (g : σ) (m : Memory) :
    (xorTilesFrom gen doff dlen n t g m).1 = tileState gen t g n := by
  induction n generalizing t g m with
  | zero => rfl
  | succ n ih => exact ih _ _ _

/-- What `n` tiles from tile `t` on leave in DBUF: data XOR keystream in their part of the data range, the old
bytes elsewhere. -/
theorem memRead_xorTilesFrom (hT : 0 < T) (n t : Nat) (g : σ) {m : Memory} (h : Memory.wf m = true)
    (b : Nat) : memRead (xorTilesFrom gen doff dlen n t g m).2 b =
      if doff + T * t ≤ b ∧ b < doff + min dlen (T * (t + n)) then
        memRead m b ^^^ elt (gen ((b - doff) / T) (tileState gen t g ((b - doff) / T - t))).2 ((b - doff) % T)
      else memRead m b := by
  induction n generalizing t g m with
  | zero => rw [if_neg (by simp only [Nat.add_zero]; omega)]; rfl
  | succ n ih =>
    have e1 : T * (t + 1) = T * t + T := Nat.mul_succ T t
    have e2 : T * (t + (n + 1)) = T * (t + 1 + n) := by congr 1; omega
    have e3 : T * (t + 1 + n) = T * (t + 1) + T * n := Nat.mul_add T (t + 1) n
    simp only [xorTilesFrom]
    rw [ih _ _ (xorTile_wf _ _ _ h), memRead_xorTile _ _ _ h]
    by_cases hb : doff + T * (t + 1) ≤ b ∧ b < doff + min dlen (T * (t + 1 + n))
    · have hq : t + 1 ≤ (b - doff) / T := by
        rw [Nat.le_div_iff_mul_le hT, Nat.mul_comm]; omega
      rw [if_pos hb, if_neg (by omega), if_pos (by omega)]
      congr 3
      rw [show (b - doff) / T - t = ((b - doff) / T - (t + 1)) + 1 by omega]
      rfl
    · rw [if_neg hb]
      by_cases hc : doff + T * t ≤ b ∧ b < doff + T * t + min T (dlen - T * t)
      · have hq : (b - doff) / T = t := by
          rw [Nat.div_eq_iff hT, Nat.mul_comm]; omega
        rw [if_pos hc, if_pos (by omega), hq, Nat.sub_self]
        congr 2
        have := Nat.div_add_mod (b - doff) T
        rw [hq] at this
        omega
      · rw [if_neg hc, if_neg (by omega)]

theorem tileCount_covers (hT : 0 < T) : dlen ≤ T * tileCount T dlen := by
  have h1 := Nat.div_add_mod (dlen + T - 1) T
  have h2 := Nat.mod_lt (dlen + T - 1) hT
  unfold tileCount
  omega

/-- What the tiling driver leaves in DBUF (rule R106). -/
theorem memRead_xorTiles (hT : 0 < T) (g : σ) {m : Memory} (h : Memory.wf m = true) (b : Nat) :
    memRead (xorTiles gen doff dlen g m).2 b =
      if doff ≤ b ∧ b < doff + dlen then
        memRead m b ^^^ elt (gen ((b - doff) / T) (tileState gen 0 g ((b - doff) / T))).2 ((b - doff) % T)
      else memRead m b := by
  have hc := tileCount_covers (T := T) dlen hT
  unfold xorTiles
  rw [memRead_xorTilesFrom gen doff dlen hT _ _ _ h]
  by_cases hb : doff ≤ b ∧ b < doff + dlen
  · rw [if_pos hb, if_pos (by simp only [Nat.mul_zero, Nat.zero_add]; omega)]; rfl
  · rw [if_neg hb, if_neg (by simp only [Nat.mul_zero, Nat.zero_add]; omega)]

theorem xorTiles_wf (g : σ) {m : Memory} (h : Memory.wf m = true) :
    Memory.wf (xorTiles gen doff dlen g m).2 = true := xorTilesFrom_wf gen doff dlen _ _ _ h

theorem xorTiles_below {hi : Nat} (g : σ) {m : Memory} (h : memBelow hi m = true) (hr : doff + dlen ≤ hi) :
    memBelow hi (xorTiles gen doff dlen g m).2 = true :=
  xorTilesFrom_below gen doff dlen _ _ _ h hr (by omega)

theorem xorTiles_state (g : σ) (m : Memory) :
    (xorTiles gen doff dlen g m).1 = tileState gen 0 g (tileCount T dlen) :=
  xorTilesFrom_state gen doff dlen _ _ _ _

/-- Tiles can be made in two runs: the first `n`, then `p` more. -/
theorem xorTilesFrom_add (n p t : Nat) (g : σ) (m : Memory) :
    xorTilesFrom gen doff dlen (n + p) t g m =
      (let r := xorTilesFrom gen doff dlen n t g m
       xorTilesFrom gen doff dlen p (t + n) r.1 r.2) := by
  induction n generalizing t g m with
  | zero => simp [xorTilesFrom]
  | succ n ih =>
    rw [show n + 1 + p = (n + p) + 1 by omega]
    simp only [xorTilesFrom]
    rw [ih, show t + 1 + n = t + (n + 1) by omega]

/-- Tiles from tile `k` on are the tiles of the range that starts at tile `k`. -/
theorem xorTilesFrom_shift (k rest n t : Nat) (g : σ) (m : Memory) :
    xorTilesFrom gen doff (T * k + rest) n (k + t) g m =
      xorTilesFrom (fun u => gen (k + u)) (doff + T * k) rest n t g m := by
  induction n generalizing t g m with
  | zero => rfl
  | succ n ih =>
    simp only [xorTilesFrom]
    rw [show k + t + 1 = k + (t + 1) by omega, ih, Nat.mul_add, Nat.add_sub_add_left, Nat.add_assoc]

/-- The whole tiles of a range do not depend on what follows them. -/
theorem xorTilesFrom_whole (k rest n t : Nat) (hn : t + n ≤ k) (g : σ) (m : Memory) :
    xorTilesFrom gen doff (T * k + rest) n t g m = xorTilesFrom gen doff (T * k) n t g m := by
  induction n generalizing t g m with
  | zero => rfl
  | succ n ih =>
    simp only [xorTilesFrom]
    have h : T * (t + 1) ≤ T * k := Nat.mul_le_mul_left T (by omega)
    rw [Nat.mul_add] at h
    rw [ih (t + 1) (by omega), Nat.min_eq_left (by omega), Nat.min_eq_left (by omega)]

theorem tileCount_whole (hT : 0 < T) (k rest : Nat) :
    tileCount T (T * k + rest) = k + tileCount T rest := by
  unfold tileCount
  rw [Nat.add_assoc, Nat.add_sub_assoc (by omega), Nat.mul_add_div hT]

end tiles

end Sys2Proof.Machine
end

