-- ==== Sys2Proof/Laws/Block.lean ====
section
/-! SUPPORT. The counter-mode driver of ChaCha20 and Salsa20, and the keystream bytes as block bytes at a counter
computed in naturals. -/

namespace Sys2Proof.Machine

/-- What the driver leaves in DBUF: data XOR the block of the data's tile. -/
theorem memRead_blockCryptBody (tile : Nat → Vector Byte 64) {s : State} (h : Memory.wf s.dbuf = true)
    (b : Nat) : memRead (blockCryptBody tile s).dbuf b =
      if dataOff s ≤ b ∧ b < dataOff s + dataLen s then
        memRead s.dbuf b ^^^ elt (tile ((b - dataOff s) / 64)) ((b - dataOff s) % 64)
      else memRead s.dbuf b :=
  memRead_xorTiles (fun t (_ : Unit) => ((), tile t)) (dataOff s) (dataLen s) (by decide) () h b

theorem blockCryptBody_wf (tile : Nat → Vector Byte 64) {s : State} (h : Memory.wf s.dbuf = true) :
    Memory.wf (blockCryptBody tile s).dbuf = true := xorTiles_wf _ _ _ _ h

theorem blockCryptBody_below (tile : Nat → Vector Byte 64) {s : State} {hi : Nat}
    (h : memBelow hi s.dbuf = true) (hr : dataOff s + dataLen s ≤ hi) :
    memBelow hi (blockCryptBody tile s).dbuf = true := xorTiles_below _ _ _ _ h hr

/-- Besides DBUF the driver writes KS, where there is a tile, and OLEN. -/
theorem blockCryptBody_eq (tile : Nat → Vector Byte 64) (s : State) :
    blockCryptBody tile s = { s with
      dbuf := (blockCryptBody tile s).dbuf
      ks := if dataLen s = 0 then s.ks else tile (tileCount 64 (dataLen s) - 1)
      olen := s.dlen } := rfl

theorem add_ofNat_eq {w : Nat} (x : BitVec w) (t : Nat) :
    x + BitVec.ofNat w t = BitVec.ofNat w ((x.toNat + t) % 2 ^ w) := by
  apply BitVec.eq_of_toNat_eq
  simp

/-- The Salsa20 counter register pair as a number (rule R199). -/
theorem counter64_toNat (s : State) : (counter64 s).toNat = salsaCounter s := by
  simp only [counter64, salsaCounter, BitVec.toNat_append]
  rw [← Nat.shiftLeft_add_eq_or_of_lt s.ctrLo.isLt, Nat.shiftLeft_eq]

/-- The keystream byte the ChaCha20 tiles give is the one rule R170 names. -/
theorem chachaTile_byte (s : State) (n : Nat) : elt (chachaTile s (n / 64)) (n % 64) = chachaByte s n := by
  unfold chachaTile chachaByte
  rw [add_ofNat_eq]

/-- The keystream byte the Salsa20 tiles give is the one rule R199 names. -/
theorem salsaTile_byte (s : State) (n : Nat) : elt (salsaTile s (n / 64)) (n % 64) = salsaByte s n := by
  unfold salsaTile salsaByte
  rw [add_ofNat_eq, counter64_toNat]

end Sys2Proof.Machine
end

