-- ==== Sys2Proof/Laws/Exec.lean ====
section
/-! SUPPORT. Everything performing a command can do: it runs the command's checks and then its body, and the
checks give the code the priority rule names. -/

namespace Sys2Proof.Machine

/-- The body of each command. -/
def commandBody : Instr → State → State
  | .nop => id
  | .zeroize => zeroizeBody
  | .rc4Ksa => rc4KsaBody
  | .rc4Prga => rc4PrgaBody
  | .rc4Crypt => rc4CryptBody
  | .rc4wCrypt => rc4wCryptBody
  | .chachaBlock => chachaBlockBody
  | .chachaCrypt => chachaCryptBody
  | .salsaBlock => salsaBlockBody
  | .salsaCrypt => salsaCryptBody
  | .rabbitInit => rabbitInitBody
  | .rabbitInitIv => rabbitInitIvBody
  | .rabbitNext => rabbitNextBody
  | .rabbitExtract => rabbitExtractBody
  | .rabbitCrypt => rabbitCryptBody

/-- The checks of each command, in order. -/
def commandChecks : Instr → State → List Check
  | .nop | .zeroize => fun _ => []
  | .rc4Ksa => fun s => [rc4KeyCheck s]
  | .rc4Prga => fun s => [rangeCheck (dataLen s) s, rc4ValidCheck s]
  | .rc4Crypt => fun s => [rc4KeyCheck s, rangeCheck (dataLen s) s]
  | .rc4wCrypt => fun s => [rc4KeyCheck s, rangeCheck (paddedLen s) s]
  | .chachaBlock => chachaChecks
  | .chachaCrypt => fun s => chachaChecks s ++ [rangeCheck (dataLen s) s]
  | .salsaBlock => salsaChecks
  | .salsaCrypt => fun s => salsaChecks s ++ [rangeCheck (dataLen s) s]
  | .rabbitInit => fun s => [keyLenCheck 16 s]
  | .rabbitInitIv => fun s => [keyLenCheck 16 s, nonceLenCheck 8 s]
  | .rabbitNext | .rabbitExtract => fun s => [rabbitValidCheck s]
  | .rabbitCrypt => fun s => [keyLenCheck 16 s, optionalIvCheck s, rangeCheck (dataLen s) s]

theorem exec_eq_runCommand (i : Instr) (s : State) :
    exec i s = runCommand (commandChecks i) (commandBody i) s := by cases i <;> rfl

/-- The first failing check is the one the priority rule names. -/
theorem firstFailure_commandChecks (i : Instr) (s : State) :
    firstFailure (commandChecks i s) =
      if expectedCode i s = .ok then none else some (expectedCode i s) := by
  unfold expectedCode
  cases hk : keyMeets i s <;> cases hn : nonceMeets i s <;> cases hr : rangeMeets i s <;>
    cases hv : initMeets i s <;> cases i <;>
    simp [commandChecks, chachaChecks, salsaChecks, firstFailure, rc4KeyCheck, rangeCheck, inRange,
      keyLenCheck, nonceLenCheck, rc4ValidCheck, rabbitValidCheck, optionalIvCheck, keyLen, nonceLen,
      dataOff, dataLen, paddedLen, keyMeets, nonceMeets, rangeMeets, initMeets, outLen]
      at hk hn hr hv ⊢ <;>
    simp_all

theorem runs_iff_code (i : Instr) (s : State) : runs i s = true ↔ expectedCode i s = .ok := by
  unfold runs expectedCode
  cases keyMeets i s <;> cases nonceMeets i s <;> cases rangeMeets i s <;> cases initMeets i s <;> simp

/-- A command whose requirements are met runs its body and reports OK. -/
theorem exec_of_runs {i : Instr} {s : State} (h : runs i s = true) :
    exec i s = .next (finish .ok (commandBody i s)) := by
  rw [exec_eq_runCommand]
  exact runCommand_succeeds (by rw [firstFailure_commandChecks, if_pos ((runs_iff_code i s).1 h)])

/-- A command one of whose requirements is not met only reports its code. -/
theorem exec_of_not_runs {i : Instr} {s : State} (h : runs i s = false) :
    exec i s = .next (finish (expectedCode i s) s) := by
  have hc : expectedCode i s ≠ .ok := by rw [Ne, ← runs_iff_code, h]; simp
  rw [exec_eq_runCommand]
  exact runCommand_fails (by rw [firstFailure_commandChecks, if_neg hc])

/-- Everything a performed command can do. -/
theorem exec_cases {i : Instr} {s t : State} (h : exec i s = .next t) :
    (runs i s = true ∧ t = finish .ok (commandBody i s)) ∨
    (runs i s = false ∧ expectedCode i s ≠ .ok ∧ t = finish (expectedCode i s) s) := by
  cases hr : runs i s with
  | true =>
    rw [exec_of_runs hr] at h
    exact .inl ⟨rfl, by simpa using h.symm⟩
  | false =>
    rw [exec_of_not_runs hr] at h
    exact .inr ⟨rfl, by rw [Ne, ← runs_iff_code, hr]; simp, by simpa using h.symm⟩

theorem execNext_of_runs {i : Instr} {s : State} (h : runs i s = true) :
    execNext i s = some (finish .ok (commandBody i s)) := by
  unfold execNext; rw [exec_of_runs h]

theorem execAll_cons_of_runs {i : Instr} {s : State} (h : runs i s = true) (is : List Instr) :
    execAll (i :: is) s = execAll is (finish .ok (commandBody i s)) := by
  simp [execAll, execNext_of_runs h]

end Sys2Proof.Machine
end

