-- ==== Sys2Proof/Laws/HostPort.lean ====
section
/-! SUPPORT. The host's side: what an address resolves to, what a write changes, and everything a host turn can
do. -/

namespace Sys2Proof.Machine

/-- An address resolves exactly when the host may access it (rules R60, R61, R287). -/
theorem resolve_of_addrOk {p : Params} {addr : Nat} (h : addrOk p addr = true) :
    resolve p addr = .ok (locate (addr - p.base)) := by
  simp only [addrOk, Bool.and_eq_true, decide_eq_true_eq, beq_iff_eq] at h
  unfold resolve spanBytes registerBlockBytes
  rw [if_neg (by omega), if_neg (by omega)]

theorem addrOk_of_resolve {p : Params} {addr : Nat} {l : Loc} (h : resolve p addr = .ok l) :
    addrOk p addr = true ∧ l = locate (addr - p.base) := by
  unfold resolve spanBytes registerBlockBytes at h
  split_ifs at h with h1 h2
  refine ⟨?_, by simpa using h.symm⟩
  simp only [addrOk, Bool.and_eq_true, decide_eq_true_eq, beq_iff_eq]
  omega

/-- Where an aligned offset in the span lands in DBUF, the whole word lies in the buffer. -/
theorem locate_dbuf_bound {p : Params} {off a : Nat} (hw : p.dbufBytes % 4 = 0) (ho : off % 4 = 0)
    (hs : off < 0x1000 + p.dbufBytes) (h : locate off = .dbuf a) : a + 3 < p.dbufBytes := by
  have hr : ∀ o, locateRegister o ≠ .dbuf a := by
    intro o; unfold locateRegister; split <;> simp
  unfold locate at h
  split_ifs at h
  all_goals first | exact absurd h (hr _) | (simp at h; done) | (simp only [Loc.dbuf.injEq] at h; omega)

/-- The register map read backwards: the aligned offsets at which a place stands. -/
def standsAt (off : Nat) : Loc → Prop
  | .id => off = 0x000
  | .cmd => off = 0x004
  | .status => off = 0x008
  | .ctrl => off = 0x00C
  | .klen => off = 0x010
  | .nlen => off = 0x014
  | .ctrLo => off = 0x018
  | .ctrHi => off = 0x01C
  | .doff => off = 0x020
  | .dlen => off = 0x024
  | .olen => off = 0x028
  | .rc4Ij => off = 0x02C
  | .rabbitCarry => off = 0x030
  | .key o => off = 0x100 + o ∧ o < 256
  | .nonce o => off = 0x200 + o ∧ o < 16
  | .ks o => off = 0x240 + o ∧ o < 64
  | .s o => off = 0x300 + o ∧ o < 256
  | .x k => off = 0x400 + 4 * k ∧ k < 8
  | .c k => off = 0x420 + 4 * k ∧ k < 8
  | .dbuf a => off = 0x1000 + a
  | .reserved => (0x034 ≤ off ∧ off < 0x100) ∨ (0x210 ≤ off ∧ off < 0x240) ∨ (0x280 ≤ off ∧ off < 0x300) ∨
      (0x440 ≤ off ∧ off < 0x1000)

theorem locateRegister_standsAt {off : Nat} (h4 : off % 4 = 0) (h : off < 0x100) :
    standsAt off (locateRegister off) := by
  unfold locateRegister
  split
  case h_14 => simp only [standsAt]; simp only [imp_false] at *; omega
  all_goals rfl

/-- Everything the register map says at an aligned offset. -/
theorem locate_standsAt {off : Nat} (h4 : off % 4 = 0) : standsAt off (locate off) := by
  unfold locate
  split_ifs
  · exact locateRegister_standsAt h4 ‹_›
  all_goals simp only [standsAt]; omega

/-- CMD stands at 0x004 and nowhere else. -/
theorem locate_eq_cmd {off : Nat} (h4 : off % 4 = 0) : locate off = .cmd ↔ off = 0x004 := by
  refine ⟨fun h => ?_, by rintro rfl; rfl⟩
  have := locate_standsAt h4
  rwa [h] at this

/-- What a write to an idle engine changes, field by field: only the host-written registers, the two writable
windows, and (for CMD) PENDING and BUSY. -/
theorem idleWrite_keeps (l : Loc) (w : Word) (s : State) :
    (idleWrite l w s).err = s.err ∧ (idleWrite l w s).rc4Valid = s.rc4Valid ∧
    (idleWrite l w s).rabbitValid = s.rabbitValid ∧ (idleWrite l w s).olen = s.olen ∧
    (idleWrite l w s).ks = s.ks ∧ (idleWrite l w s).rc4 = s.rc4 ∧ (idleWrite l w s).rabbit = s.rabbit ∧
    (idleWrite l w s).params = s.params ∧ (idleWrite l w s).script = s.script ∧
    (idleWrite l w s).reads = s.reads ∧ (idleWrite l w s).turns = s.turns := by
  cases l <;> simp [idleWrite]

theorem hostWrite_keeps (l : Loc) (w : Word) (s : State) :
    (hostWrite l w s).err = s.err ∧ (hostWrite l w s).rc4Valid = s.rc4Valid ∧
    (hostWrite l w s).rabbitValid = s.rabbitValid ∧ (hostWrite l w s).olen = s.olen ∧
    (hostWrite l w s).ks = s.ks ∧ (hostWrite l w s).rc4 = s.rc4 ∧ (hostWrite l w s).rabbit = s.rabbit ∧
    (hostWrite l w s).params = s.params ∧ (hostWrite l w s).script = s.script ∧
    (hostWrite l w s).reads = s.reads ∧ (hostWrite l w s).turns = s.turns := by
  unfold hostWrite; split
  · simp
  · exact idleWrite_keeps l w s

/-- DBUF after a host write: written only through its own window, and only while the engine is idle. -/
theorem hostWrite_dbuf (l : Loc) (w : Word) (s : State) :
    (hostWrite l w s).dbuf = s.dbuf ∨
      ∃ a, l = .dbuf a ∧ s.busy = false ∧ (hostWrite l w s).dbuf = memWriteWord s.dbuf a w := by
  unfold hostWrite
  split
  · exact .inl rfl
  · rename_i hb
    have hb' : s.busy = false := by cases h : s.busy <;> simp_all
    cases l <;> first | exact .inl rfl | exact .inr ⟨_, rfl, hb', rfl⟩

/-- Everything a host turn can do. -/
theorem hostTurn_cases {s : State} {o : Host.Outcome State Fault Refusal} (h : hostTurn s = o) :
    (s.script = [] ∧ o = .next s) ∨
    (∃ addr rest, s.script = .rd addr :: rest ∧ addrOk s.params addr = true ∧
      o = .next (setScript rest (logRead (hostRead s (locate (addr - s.params.base))) s))) ∨
    (∃ addr w rest, s.script = .wr addr w :: rest ∧ addrOk s.params addr = true ∧
      o = .next (setScript rest (hostWrite (locate (addr - s.params.base)) w s))) ∨
    (∃ rest, s.script = .poll :: rest ∧
      o = .next (setScript (if (hostRead s .status).getLsbD 0 then .poll :: rest else rest)
        (logRead (hostRead s .status) s))) ∨
    (∃ addr rest f, (s.script = .rd addr :: rest ∨ ∃ w, s.script = .wr addr w :: rest) ∧
      resolve s.params addr = .error f ∧ o = .fault f) := by
  unfold hostTurn at h
  split at h
  · exact .inl ⟨‹_›, h.symm⟩
  · rename_i addr rest hs
    unfold hostReadOp at h
    split at h
    · rename_i f hf
      exact .inr (.inr (.inr (.inr ⟨addr, rest, f, .inl hs, hf, h.symm⟩)))
    · rename_i l hl
      obtain ⟨ha, rfl⟩ := addrOk_of_resolve hl
      exact .inr (.inl ⟨addr, rest, hs, ha, h.symm⟩)
  · rename_i addr w rest hs
    unfold hostWriteOp at h
    split at h
    · rename_i f hf
      exact .inr (.inr (.inr (.inr ⟨addr, rest, f, .inr ⟨w, hs⟩, hf, h.symm⟩)))
    · rename_i l hl
      obtain ⟨ha, rfl⟩ := addrOk_of_resolve hl
      exact .inr (.inr (.inl ⟨addr, w, rest, hs, ha, h.symm⟩))
  · rename_i rest hs
    exact .inr (.inr (.inr (.inl ⟨rest, hs, h.symm⟩)))

/-- Bit 0 of STATUS is BUSY (rule R23). -/
@[simp] theorem statusWord_bit0 (s : State) : (statusWord s).getLsbD 0 = s.busy := by
  cases hb : s.busy <;> cases hv : s.rc4Valid <;> cases hr : s.rabbitValid <;> cases he : s.err <;>
    simp [statusWord, hb, hv, hr, he, errCode]

/-- The same in the form simp gives a bit number that is a numeral. -/
@[simp] theorem statusWord_getElem_zero (s : State) : (statusWord s)[0] = s.busy := statusWord_bit0 s

@[simp] theorem hostRead_status (s : State) : hostRead s .status = statusWord s := by
  unfold hostRead; split <;> rfl

end Sys2Proof.Machine
end

