-- ==== Sys2Proof/Laws/PerInstr.lean ====
section
/-! SUPPORT. A statement about every command as syntax, one lemma per constructor. -/

namespace Sys2Proof.Laws.EncodedLegal

/-- The word of a command is a legal command word (30_encoding.md rules R83, R84), and its OP field is the
table's opcode. -/
def Statement (i : Instr) : Prop := wordWf (encode i) = true ∧ opField (encode i) = opOf i

theorem nop : Statement .nop := by unfold Statement; decide
theorem zeroize : Statement .zeroize := by unfold Statement; decide
theorem rc4Ksa : Statement .rc4Ksa := by unfold Statement; decide
theorem rc4Prga : Statement .rc4Prga := by unfold Statement; decide
theorem rc4Crypt : Statement .rc4Crypt := by unfold Statement; decide
theorem rc4wCrypt : Statement .rc4wCrypt := by unfold Statement; decide
theorem chachaBlock : Statement .chachaBlock := by unfold Statement; decide
theorem chachaCrypt : Statement .chachaCrypt := by unfold Statement; decide
theorem salsaBlock : Statement .salsaBlock := by unfold Statement; decide
theorem salsaCrypt : Statement .salsaCrypt := by unfold Statement; decide
theorem rabbitInit : Statement .rabbitInit := by unfold Statement; decide
theorem rabbitInitIv : Statement .rabbitInitIv := by unfold Statement; decide
theorem rabbitNext : Statement .rabbitNext := by unfold Statement; decide
theorem rabbitExtract : Statement .rabbitExtract := by unfold Statement; decide
theorem rabbitCrypt : Statement .rabbitCrypt := by unfold Statement; decide

end Sys2Proof.Laws.EncodedLegal
end

