-- ==== Sys2Proof/Laws/Rabbit.lean ====
section
/-! SUPPORT. The Rabbit driver: its generator's states and bytes, and what the two counter systems write. -/

namespace Sys2Proof.Machine

theorem rabbitAfter_succ (canon : Bool) (n : Nat) (r : Rabbit) :
    rabbitAfter canon (n + 1) r = rabbitAfter canon n (nextState canon r) := rfl

theorem rabbitAfter_succ_last (canon : Bool) (n : Nat) (r : Rabbit) :
    rabbitAfter canon (n + 1) r = nextState canon (rabbitAfter canon n r) := repeatN_succ_last _ _ _

/-- Before the tile `n` tiles on, the generator has made `n` next-state steps (rule R238). -/
theorem tileState_rabbit (canon : Bool) (n t : Nat) (r : Rabbit) :
    tileState (rabbitTile canon) t r n = rabbitAfter canon n r := by
  induction n generalizing t r with
  | zero => rfl
  | succ n ih => exact ih _ _

/-- The keystream byte the Rabbit tiles give is the one rule R238 names. -/
theorem rabbitTile_byte (canon : Bool) (r : Rabbit) (n t : Nat) :
    elt (rabbitTile canon t (tileState (rabbitTile canon) 0 r (n / 16))).2 (n % 16) =
      rabbitByte canon r n := by
  rw [tileState_rabbit]
  unfold rabbitByte
  rw [rabbitAfter_succ_last]
  rfl

/-- Every lane after the ORIGINAL counter system (rule R222). -/
theorem elt_counterOrig (r : Rabbit) (k : Nat) (h : k < 8) :
    elt (counterOrig r).c k = elt r.c k + elt rabbitA k + (if k = 0 then 1 else 0) :=
  elt_build_inside _ k h

@[simp] theorem counterOrig_carry (r : Rabbit) : (counterOrig r).carry = r.carry := rfl

@[simp] theorem counterOrig_x (r : Rabbit) : (counterOrig r).x = r.x := rfl

@[simp] theorem counterCanon_x (r : Rabbit) : (counterCanon r).x = r.x := rfl

/-- Key setup and IV setup read 16 key bytes and 8 IV bytes. -/
theorem elt_putBlock16 (ks : Vector Byte 64) (b : Vector Byte 16) (k : Nat) (h : k < 64) :
    elt (putBlock16 ks b) k = if k < 16 then elt b k else elt ks k := elt_build_inside _ k h

end Sys2Proof.Machine
end

