-- ==== Sys2Proof/Laws/Rc4.lean ====
section
/-! SUPPORT. The RC4 loops: the states they end in, what they leave in DBUF, and permutations. -/

namespace Sys2Proof.Machine

/-! ## The byte-wise loop -/

@[simp] theorem rc4After_zero (r : Rc4) : rc4After 0 r = r := rfl

theorem rc4After_succ (n : Nat) (r : Rc4) : rc4After (n + 1) r = rc4After n (prga r).1 := rfl

theorem rc4Byte_succ (r : Rc4) (n : Nat) : rc4Byte r (n + 1) = rc4Byte (prga r).1 n := rfl

theorem prgaXor_state (n a : Nat) (r : Rc4) (m : Memory) : (prgaXor n a r m).1 = rc4After n r := by
  induction n generalizing a r m with
  | zero => rfl
  | succ n ih => exact ih _ _ _

theorem prgaXor_wf (n a : Nat) (r : Rc4) {m : Memory} (h : Memory.wf m = true) :
    Memory.wf (prgaXor n a r m).2 = true := by
  induction n generalizing a r m with
  | zero => exact h
  | succ n ih => exact ih _ _ (memWrite_wf h _ _)

theorem prgaXor_below {hi : Nat} (n a : Nat) (r : Rc4) {m : Memory} (h : memBelow hi m = true)
    (hn : a + n ≤ hi) : memBelow hi (prgaXor n a r m).2 = true := by
  induction n generalizing a r m with
  | zero => exact h
  | succ n ih => exact ih _ _ (memBelow_memWrite h (by omega) _) (by omega)

/-- What the loop of RC4_PRGA and RC4_CRYPT leaves in DBUF. -/
theorem memRead_prgaXor (n a : Nat) (r : Rc4) {m : Memory} (h : Memory.wf m = true) (b : Nat) :
    memRead (prgaXor n a r m).2 b =
      if a ≤ b ∧ b < a + n then memRead m b ^^^ rc4Byte r (b - a) else memRead m b := by
  induction n generalizing a r m with
  | zero => rw [if_neg (by omega)]; rfl
  | succ n ih =>
    simp only [prgaXor]
    rw [ih _ _ (memWrite_wf h _ _), memRead_memWrite h]
    by_cases hb : b = a
    · subst hb
      rw [if_neg (by omega), if_pos rfl, if_pos (by omega), Nat.sub_self]
      rfl
    · rw [if_neg hb]
      by_cases hr : a + 1 ≤ b ∧ b < a + 1 + n
      · rw [if_pos hr, if_pos (by omega), show b - a = b - (a + 1) + 1 by omega, rc4Byte_succ]
      · rw [if_neg hr, if_neg (by omega)]

/-- The loop can be made in two runs: the first `n` bytes, then `p` more (rule R135). -/
theorem prgaXor_add (n p a : Nat) (r : Rc4) (m : Memory) :
    prgaXor (n + p) a r m = (let q := prgaXor n a r m; prgaXor p (a + n) q.1 q.2) := by
  induction n generalizing a r m with
  | zero => simp [prgaXor]
  | succ n ih =>
    rw [show n + 1 + p = (n + p) + 1 by omega]
    simp only [prgaXor]
    rw [ih, show a + 1 + n = a + (n + 1) by omega]

/-! ## The 2-byte loop -/

theorem pairByte_even (p : PairChoice) (r : Rc4) (n : Nat) (h : n % 2 = 0) :
    pairByte p r n = (pairStep p (pairAfter p (n / 2) r)).2.1 := by simp [pairByte, h]

theorem pairByte_odd (p : PairChoice) (r : Rc4) (n : Nat) (h : n % 2 = 1) :
    pairByte p r n = (pairStep p (pairAfter p (n / 2) r)).2.2 := by simp [pairByte, h]

theorem pairByte_add_two (p : PairChoice) (r : Rc4) (n : Nat) :
    pairByte p r (n + 2) = pairByte p (pairStep p r).1 n := by
  unfold pairByte
  rw [show (n + 2) / 2 = n / 2 + 1 by omega, show (n + 2) % 2 = n % 2 by omega]
  rfl

theorem pairXor_state (p : PairChoice) (doff dlen n t : Nat) (r : Rc4) (m : Memory) :
    (pairXor p doff dlen n t r m).1 = pairAfter p n r := by
  induction n generalizing t r m with
  | zero => rfl
  | succ n ih => exact ih _ _ _

theorem pairXor_wf (p : PairChoice) (doff dlen n t : Nat) (r : Rc4) {m : Memory}
    (h : Memory.wf m = true) : Memory.wf (pairXor p doff dlen n t r m).2 = true := by
  induction n generalizing t r m with
  | zero => exact h
  | succ n ih => exact ih _ _ (memWrite_wf (memWrite_wf h _ _) _ _)

theorem pairXor_below {hi : Nat} (p : PairChoice) (doff dlen n t : Nat) (r : Rc4) {m : Memory}
    (h : memBelow hi m = true) (hn : doff + 2 * (t + n) ≤ hi) :
    memBelow hi (pairXor p doff dlen n t r m).2 = true := by
  induction n generalizing t r m with
  | zero => exact h
  | succ n ih =>
    exact ih _ _ (memBelow_memWrite (memBelow_memWrite h (by omega) _) (by omega) _) (by omega)

/-- What the loop of RC4W_CRYPT leaves in DBUF: data XOR keystream, the zero pad byte standing for the data past
DLEN (rule R138). `t` tiles are done; the data of the tiles to come is still in place. -/
theorem memRead_pairXor (p : PairChoice) (doff dlen n t : Nat) (r : Rc4) {m : Memory}
    (h : Memory.wf m = true) (hd : 2 * (t + n) ≤ dlen + 1) (b : Nat) :
    memRead (pairXor p doff dlen n t r m).2 b =
      if doff + 2 * t ≤ b ∧ b < doff + 2 * (t + n) then
        (if b - doff < dlen then memRead m b else 0) ^^^ pairByte p r (b - doff - 2 * t)
      else memRead m b := by
  induction n generalizing t r m with
  | zero => rw [if_neg (by omega)]; rfl
  | succ n ih =>
    simp only [pairXor]
    rw [ih (t + 1) _ (memWrite_wf (memWrite_wf h _ _) _ _) (by omega),
      memRead_memWrite (memWrite_wf h _ _), memRead_memWrite h]
    by_cases ho : doff + 2 * t ≤ b ∧ b < doff + 2 * (t + (n + 1))
    · rw [if_pos ho]
      by_cases h0 : b = doff + 2 * t
      · subst h0
        rw [if_neg (by omega), if_neg (by omega), if_pos rfl, if_pos (by omega),
          pairByte_even _ _ _ (by omega), show (doff + 2 * t - doff - 2 * t) / 2 = 0 by omega]
        rfl
      · by_cases h1 : b = doff + 2 * t + 1
        · subst h1
          rw [if_neg (by omega), if_pos rfl, pairByte_odd _ _ _ (by omega),
            show (doff + 2 * t + 1 - doff - 2 * t) / 2 = 0 by omega,
            show doff + 2 * t + 1 - doff = 2 * t + 1 by omega]
          rfl
        · rw [if_pos (by omega), if_neg h1, if_neg h0,
            show b - doff - 2 * t = b - doff - 2 * (t + 1) + 2 by omega, pairByte_add_two]
    · rw [if_neg ho, if_neg (by omega), if_neg (by omega), if_neg (by omega)]

/-! ## Permutations (rules R38, R131, R132) -/

theorem toList_put {w n : Nat} (A : Vector (BitVec w) n) (k : Nat) (v : BitVec w) :
    (put A k v).toArray.toList = A.toArray.toList.set k v := rfl

/-- A swap only rearranges the entries. -/
theorem swapAt_perm (P : Vector Byte 256) (p q : Byte) :
    List.Perm (swapAt P p q).toArray.toList P.toArray.toList := by
  have hp : p.toNat < P.toArray.toList.length := by simpa using p.isLt
  have hq : q.toNat < P.toArray.toList.length := by simpa using q.isLt
  have ep : elt P p.toNat = P.toArray.toList[p.toNat] := elt_eq_getElem P _ p.isLt
  have eq' : elt P q.toNat = P.toArray.toList[q.toNat] := elt_eq_getElem P _ q.isLt
  unfold swapAt
  rw [toList_put, toList_put, ep, eq']
  exact List.set_set_perm hp hq

theorem swapAt_isPerm {P : Vector Byte 256} (h : IsPerm P) (p q : Byte) : IsPerm (swapAt P p q) :=
  (swapAt_perm P p q).trans h

theorem identityPerm_isPerm : IsPerm identityPerm := List.Perm.refl _

end Sys2Proof.Machine
end

