-- ==== Sys2Proof/Laws/Step.lean ====
section
/-! SUPPORT. Everything a step can do, and the three agents' turns. -/

namespace Sys2Proof.Machine

theorem perform_of_decode {s : State} {i : Instr} (h : decode s.pending = .ok i) : perform s = exec i s := by
  simp [perform, h]

theorem perform_of_illegal {s : State} {e : Illegal} (h : decode s.pending = .error e) :
    perform s = .next (finish .illegalCommand s) := by
  simp [perform, h, illegalCommand, failWith]

theorem engineTurn_busy {s : State} (h : s.busy = true) : engineTurn s = perform s := by
  simp [engineTurn, h]

theorem engineTurn_idle {s : State} (h : s.busy = false) : engineTurn s = .next s := by
  simp [engineTurn, h]

/-- A step is a turn of one agent, in the state with that turn taken off the list. -/
theorem step_cases (s : State) :
    (∃ rest, s.turns = .host :: rest ∧ step s = hostTurn (setTurns rest s)) ∨
    (∃ rest, s.turns = .engine :: rest ∧ step s = engineTurn (setTurns rest s)) ∨
    (∃ rest, s.turns = .reset :: rest ∧ step s = .next (platformReset (setTurns rest s))) ∨
    (s.turns = [] ∧ s.busy = true ∧ step s = perform s) ∨
    (s.turns = [] ∧ s.busy = false ∧ step s = hostTurn s) := by
  unfold step
  cases ht : s.turns with
  | nil =>
    cases hb : s.busy with
    | true => simp [engineTurn, hb]
    | false => simp
  | cons t rest => cases t <;> simp

theorem step_host {s : State} {rest : List Turn} (h : s.turns = .host :: rest) :
    step s = hostTurn (setTurns rest s) := by simp [step, h]

theorem step_engine {s : State} {rest : List Turn} (h : s.turns = .engine :: rest) :
    step s = engineTurn (setTurns rest s) := by simp [step, h]

theorem step_reset {s : State} {rest : List Turn} (h : s.turns = .reset :: rest) :
    step s = .next (platformReset (setTurns rest s)) := by simp [step, h]

theorem step_busy {s : State} (h : s.turns = []) (hb : s.busy = true) : step s = perform s := by
  simp [step, h, hb, engineTurn]

theorem step_idle {s : State} (h : s.turns = []) (hb : s.busy = false) : step s = hostTurn s := by
  simp [step, h, hb]

end Sys2Proof.Machine
end

