-- ==== Sys2Proof/Tests/Slice0.lean ====
section
/-! SUPPORT. The model's own tests. Expected values are the rows of spec/95_test_vectors.md (their ids stand in the
comments), the examples of the rules, or hand calculation from a rule, never the model's own answers. The
`test_witness_…` theorems show concrete states and operands that meet the hypotheses of the obligation they
name, clause by clause. -/

namespace Sys2Proof.Machine

/-! ## Small states -/

/-- An array from its first bytes, zeros after them. -/
def bytesOf (n : Nat) (l : List Byte) : Vector Byte n := build n fun k => l.getD k 0

/-- An array of eight lanes. -/
def lanesOf (l : List Word) : Vector Word 8 := build 8 fun k => l.getD k 0

/-- The reset state with the operand registers of a command set. -/
def testState (klen : BitVec 9) (nlen : BitVec 5) (doff dlen : Word) : State :=
  { State.reset with klen := klen, nlen := nlen, doff := doff, dlen := dlen }

/-- The same with both cipher states marked valid. -/
def validState (klen : BitVec 9) (nlen : BitVec 5) (doff dlen : Word) : State :=
  { testState klen nlen doff dlen with rc4Valid := true, rabbitValid := true }

/-- A busy engine with a command word pending. -/
def busyState (w : Word) : State := { State.reset with pending := w, busy := true }

/-- An idle engine whose host has one operation to make. -/
def hostState (ops : List HostOp) : State := { State.reset with script := ops }

/-- What a test reads off an outcome. -/
def outcomeIs (p : State → Bool) : Host.Outcome State Fault Refusal → Bool
  | .next t => p t
  | .fault _ => false
  | .refused _ => false

/-- The first `n` bytes of DBUF from `a` on. -/
def dbufBytes (s : State) (a n : Nat) : List Byte := (List.range n).map fun k => memRead s.dbuf (a + k)

/-- The first `n` bytes of KS. -/
def ksBytes (s : State) (n : Nat) : List Byte := (List.range n).map fun k => elt s.ks k

/-! ## Decoding (30_encoding.md rules R83, R84, R89) -/

/-- Every row of the table, each word written out bit by bit. -/
theorem test_decode_common :
    decode 0b00000000000000000000000000000000 = .ok .nop ∧
    decode 0b00000000000000000000000000000001 = .ok .zeroize := by decide

theorem test_decode_rc4 :
    decode 0b00000000000000000000000000010000 = .ok .rc4Ksa ∧
    decode 0b00000000000000000000000000010001 = .ok .rc4Prga ∧
    decode 0b00000000000000000000000000010010 = .ok .rc4Crypt ∧
    decode 0b00000000000000000000000000010011 = .ok .rc4wCrypt := by decide

theorem test_decode_chacha_salsa :
    decode 0b00000000000000000000000000100000 = .ok .chachaBlock ∧
    decode 0b00000000000000000000000000100001 = .ok .chachaCrypt ∧
    decode 0b00000000000000000000000000110000 = .ok .salsaBlock ∧
    decode 0b00000000000000000000000000110001 = .ok .salsaCrypt := by decide

theorem test_decode_rabbit :
    decode 0b00000000000000000000000001000000 = .ok .rabbitInit ∧
    decode 0b00000000000000000000000001000001 = .ok .rabbitInitIv ∧
    decode 0b00000000000000000000000001000010 = .ok .rabbitNext ∧
    decode 0b00000000000000000000000001000011 = .ok .rabbitExtract ∧
    decode 0b00000000000000000000000001000100 = .ok .rabbitCrypt := by decide

/-- Rows CM-10 and CM-11. -/
theorem test_decode_illegal :
    decode 0x00000002 = .error (.reservedOp 0x02) ∧ decode 0x00000014 = .error (.reservedOp 0x14) ∧
    decode 0x00000022 = .error (.reservedOp 0x22) ∧ decode 0x00000032 = .error (.reservedOp 0x32) ∧
    decode 0x00000045 = .error (.reservedOp 0x45) ∧ decode 0x000000FF = .error (.reservedOp 0xFF) ∧
    decode 0x00000112 = .error .mbzNotZero ∧ decode 0x80000000 = .error .mbzNotZero ∧
    decode 0xFFFFFF10 = .error .mbzNotZero := by decide

theorem test_decodeTableWord : decodeTableWord 32 0x44 = some .rabbitCrypt ∧
    decodeTableWord 32 0x144 = none := by decide

/-! ## Well-formedness smoke tests: each check refuses an ill-formed term -/

theorem test_wordWf_refuses_mbz : wordWf 0x00000110 = false := by decide
theorem test_wordWf_refuses_reserved_op : wordWf 0x00000045 = false := by decide
theorem test_wordWf_accepts : wordWf 0x00000044 = true := by decide
theorem test_paramsWf_refuses_base : Params.wf { Params.default with base := 0x800 } = false := by decide
theorem test_paramsWf_refuses_partial_word :
    Params.wf { Params.default with dbufBytes := 4098 } = false := by decide
theorem test_paramsWf_refuses_small : Params.wf { Params.default with dbufBytes := 60 } = false := by decide
theorem test_paramsWf_refuses_large :
    Params.wf { Params.default with dbufBytes := 1048580 } = false := by decide
theorem test_paramsWf_accepts : Params.default.wf = true ∧
    Params.wf { Params.default with base := 0x1000, dbufBytes := 64 } = true ∧
    Params.wf { Params.default with dbufBytes := 1048576 } = true := by decide
theorem test_memoryWf_refuses : Memory.wf [(3, 1), (3, 2)] = false ∧ Memory.wf [(4, 1), (3, 2)] = false ∧
    Memory.wf [(3, 0)] = false := by decide

/-! ## Numeric helpers and cipher functions -/

/-- Rows CM-1 to CM-7. -/
theorem test_numeric : add32 0xFFFFFFFF 0x00000001 = 0 ∧ rotl32 0x80000001 1 = 0x00000003 ∧
    rotl32 0x12345678 16 = 0x56781234 ∧ rotl32 0x12345678 8 = 0x34567812 ∧
    le32 (bytesOf 4 [0x65, 0x78, 0x70, 0x61]) 0 = 0x61707865 ∧ st32 0x61707865 = [0x65, 0x78, 0x70, 0x61] ∧
    hi32 (sq64 0xFFFFFFFF) = 0xFFFFFFFE ∧ lo32 (sq64 0xFFFFFFFF) = 0x00000001 := by decide

/-- Row CH-1. -/
theorem test_chachaQuarter : chachaQuarter 0x11111111 0x01020304 0x9B8D6F43 0x01234567 =
    (0xEA2A92F4, 0xCB1CF8CE, 0x4581472E, 0x5881C4BB) := by decide

/-- Rows SA-1 to SA-3. -/
theorem test_salsaQuarter :
    salsaQuarter 1 0 0 0 = (0x08008145, 0x00000080, 0x00010200, 0x20500000) ∧
    salsaQuarter 0 1 0 0 = (0x88000100, 0x00000001, 0x00000200, 0x00402000) ∧
    salsaQuarter 0xE7E8C006 0xC4F9417D 0x6479B4B2 0x68C67137 =
      (0xE876D72B, 0x9361DFD5, 0xF1460244, 0x948541A3) := by decide

/-- Rows RB-1 and RB-2. -/
theorem test_gFn : gFn 0x12345678 0x9ABCDEF0 = 0x2C213949 ∧ gFn 0 0 = 0 ∧ gFn 0xFFFFFFFF 1 = 0 ∧
    gFn 1 0 = 1 ∧ gFn 0x00010000 0 = 1 ∧ gFn 0xFFFFFFFF 0 = 0xFFFFFFFF := by decide

/-- Row RB-4. -/
theorem test_counterCanon : counterCanon { x := lanesOf [], c := Vector.replicate 8 0xFFFFFFFF, carry := false } =
    { x := lanesOf [], carry := true, c := lanesOf [0x4D34D34C, 0xD34D34D3, 0x34D34D34, 0x4D34D34D,
      0xD34D34D3, 0x34D34D34, 0x4D34D34D, 0xD34D34D3] } := by decide +kernel

/-- Row RB-5. -/
theorem test_counterOrig : counterOrig { x := lanesOf [], c := Vector.replicate 8 0xFFFFFFFF, carry := true } =
    { x := lanesOf [], carry := true, c := lanesOf [0x4D34D34D, 0xD34D34D2, 0x34D34D33, 0x4D34D34C,
      0xD34D34D2, 0x34D34D33, 0x4D34D34C, 0xD34D34D2] } := by decide +kernel

/-- Row RB-7. -/
theorem test_mix : mix (lanesOf [1, 2, 3, 4, 5, 6, 7, 8]) = lanesOf [0x000F0001, 0x0000010A, 0x00030003,
    0x00000306, 0x00070005, 0x0000050A, 0x000B0007, 0x0000070E] := by decide +kernel

/-- Row RB-8. -/
theorem test_extract : extract (lanesOf [0x11111111, 0x22222222, 0x33333333, 0x44444444, 0x55555555,
    0x66666666, 0x77777777, 0x88888888]) = bytesOf 16 [0x77, 0x77, 0x55, 0x55, 0xBB, 0xBB, 0x55, 0x55,
    0x77, 0x77, 0xDD, 0xDD, 0x33, 0x33, 0x55, 0x55] := by decide +kernel

/-- Row RB-9. -/
theorem test_expandKey : expandKey (bytesOf 256 [0, 1, 2, 3, 4, 5, 6, 7, 8, 9, 10, 11, 12, 13, 14, 15]) =
    { x := lanesOf [0x03020100, 0x0D0C0B0A, 0x07060504, 0x01000F0E, 0x0B0A0908, 0x05040302, 0x0F0E0D0C,
        0x09080706]
      c := lanesOf [0x09080B0A, 0x03020504, 0x0D0C0F0E, 0x07060908, 0x01000302, 0x0B0A0D0C, 0x05040706,
        0x0F0E0100]
      carry := false } := by decide +kernel

/-! ## Commands -/

/-- Row CM-26. -/
theorem test_nop : outcomeIs (fun t => statusWord t == 0x00010000)
    (exec .nop { State.reset with err := .invalidNonceLength, rc4Valid := true, busy := true }) = true := by
  decide

/-- Row CM-27. -/
theorem test_zeroize : outcomeIs (fun t => statusWord t == 0 && elt t.key 0 == 0 && elt t.ks 63 == 0 &&
      t.klen == 3 && memRead t.dbuf 5 == 9 && t.olen == 0 && rc4IjWord t == 0)
    (exec .zeroize { validState 3 0 0 0 with
      key := bytesOf 256 [7], ks := Vector.replicate 64 1, dbuf := [(5, 9)], olen := 2
      rc4 := { s := Vector.replicate 256 2, i := 3, j := 4 } }) = true := by decide +kernel

/-- Row RC4-1. -/
theorem test_rc4Ksa : outcomeIs (fun t => le32 t.rc4.s 0 == 0x9D84334B && le32 t.rc4.s 4 == 0xA81DC8C0 &&
      rc4IjWord t == 0 && statusWord t == 0x00010000)
    (exec .rc4Ksa { testState 3 0 0 0 with key := bytesOf 256 [0x4B, 0x65, 0x79] }) = true := by
  decide +kernel

/-- Rows ERR-1 and ERR-2. -/
theorem test_rc4Ksa_key : outcomeIs (fun t => statusWord t == 0x00000100) (exec .rc4Ksa (testState 0 0 0 0)) ∧
    outcomeIs (fun t => statusWord t == 0x00000100) (exec .rc4Ksa (testState 257 0 0 0)) := by decide

/-- By hand from rule R132, from the identity and i = j = 0: i = 1, j = 0 + P[1] = 1, no exchange,
k = P[1 + 1] = 2. -/
theorem test_rc4Prga : outcomeIs (fun t => memRead t.dbuf 7 == 0x52 && rc4IjWord t == 0x0101 && t.olen == 1)
    (exec .rc4Prga { validState 0 0 7 1 with
      dbuf := [(7, 0x50)], rc4 := { s := identityPerm, i := 0, j := 0 } }) = true := by decide +kernel

/-- Rows ERR-10 and ERR-11. -/
theorem test_rc4Prga_checks :
    outcomeIs (fun t => statusWord t == 0x00000400) (exec .rc4Prga (testState 0 0 4096 1)) ∧
    outcomeIs (fun t => statusWord t == 0x00000500) (exec .rc4Prga (testState 0 0 4095 1)) := by decide

/-- Row RC4-5, the first four bytes (row RC4-6 gives their keystream). -/
theorem test_rc4Crypt : outcomeIs (fun t => dbufBytes t 0 5 == [0xBB, 0xF3, 0x16, 0xE8, 0] &&
      t.olen == 4 && statusWord t == 0x00010000)
    (exec .rc4Crypt { testState 3 0 0 4 with
      key := bytesOf 256 [0x4B, 0x65, 0x79]
      dbuf := [(0, 0x50), (1, 0x6C), (2, 0x61), (3, 0x69)] }) = true := by decide +kernel

/-- Row ERR-16: the sum does not wrap. -/
theorem test_rc4Crypt_range : outcomeIs (fun t => statusWord t == 0x00000400)
    (exec .rc4Crypt (testState 3 0 0xFFFFFFFF 2)) := by decide

/-- Row RC4W-2: the pad byte's old value is not read. -/
theorem test_rc4wCrypt : outcomeIs (fun t => dbufBytes t 0 4 == [0x8A, 0xFD, 0x14, 0x81] && t.olen == 4 &&
      rc4IjWord t == 0x00001404)
    (exec .rc4wCrypt { testState 3 0 0 3 with
      key := bytesOf 256 [0x4B, 0x65, 0x79]
      dbuf := [(0, 0x61), (1, 0x62), (2, 0x63), (3, 0xFF)] }) = true := by decide +kernel

/-- Row RC4W-7: the pad byte would fall outside DBUF. -/
theorem test_rc4wCrypt_range : outcomeIs (fun t => statusWord t == 0x00000400)
    (exec .rc4wCrypt (testState 3 0 4093 3)) := by decide

/-- Vector V4. -/
theorem test_chachaBlock : outcomeIs (fun t => le32 t.ks 0 == 0xE4E7F110 && le32 t.ks 4 == 0x15593BD1 &&
      le32 t.ks 60 == 0x4E3C50A2)
    (exec .chachaBlock { testState 32 12 0 0 with
      key := build 256 fun k => if k < 32 then BitVec.ofNat 8 k else 0
      nonce := bytesOf 16 [0, 0, 0, 9, 0, 0, 0, 0x4A], ctrLo := 1 }) = true := by decide +kernel

/-- Rows CH-12 and CH-13. -/
theorem test_chachaBlock_checks :
    outcomeIs (fun t => statusWord t == 0x00000100) (exec .chachaBlock (testState 33 12 0 0)) ∧
    outcomeIs (fun t => statusWord t == 0x00000200) (exec .chachaBlock (testState 32 8 0 0)) := by decide

/-- Row CH-7: the counter wraps from tile 0 to tile 1. -/
theorem test_chachaCrypt : outcomeIs (fun t => dbufBytes t 0 4 == [0xAC, 0xE4, 0xCD, 0x09] &&
      dbufBytes t 64 2 == [0x76, 0] && le32 t.ks 0 == 0xADE0B876 && t.olen == 65)
    (exec .chachaCrypt { testState 32 12 0 65 with ctrLo := 0xFFFFFFFF }) = true := by decide +kernel

/-- Rows ERR-4 and ERR-5. -/
theorem test_chachaCrypt_priority :
    outcomeIs (fun t => statusWord t == 0x00000100) (exec .chachaCrypt (testState 16 8 0 0)) ∧
    outcomeIs (fun t => statusWord t == 0x00000200) (exec .chachaCrypt (testState 32 8 4096 1)) := by decide

/-- Vector V7. -/
theorem test_salsaBlock : outcomeIs (fun t => le32 t.ks 0 == 0xDD8FBEE3 && le32 t.ks 60 == 0x17A1F17E)
    (exec .salsaBlock { testState 32 8 0 0 with key := bytesOf 256 [0x80] }) = true := by decide +kernel

/-- Row SA-15. -/
theorem test_salsaBlock_nonce : outcomeIs (fun t => statusWord t == 0x00000200)
    (exec .salsaBlock (testState 32 12 0 0)) := by decide

/-- Row SA-12, cut after the first byte of tile 1: the low counter word carries into the high one. -/
theorem test_salsaCrypt : outcomeIs (fun t => dbufBytes t 0 4 == [0x59, 0xFC, 0x4D, 0xD7] &&
      dbufBytes t 64 2 == [0xB6, 0] && le32 t.ks 0 == 0x77C75FB6 && t.ctrLo == 0xFFFFFFFF)
    (exec .salsaCrypt { testState 32 8 0 65 with ctrLo := 0xFFFFFFFF }) = true := by decide +kernel

/-- Row SA-16. -/
theorem test_salsaCrypt_key : outcomeIs (fun t => statusWord t == 0x00000100)
    (exec .salsaCrypt (testState 16 8 0 0)) := by decide

/-- Row RB-10. -/
theorem test_rabbitInit : outcomeIs (fun t => elt t.rabbit.x 0 == 0x6E9E1D18 && elt t.rabbit.x 7 == 0x53F371D0 &&
      elt t.rabbit.c 0 == 0xE802074F && elt t.rabbit.c 7 == 0xD6A0F672 && statusWord t == 0x00020000 &&
      rabbitCarryWord t == 1)
    (exec .rabbitInit { testState 16 5 0 0 with rabbitCanon := true }) = true := by decide +kernel

/-- Row RB-14. -/
theorem test_rabbitInit_original : outcomeIs (fun t => elt t.rabbit.x 0 == 0x40A588C9 &&
      elt t.rabbit.c 0 == 0x34D34D38 && rabbitCarryWord t == 0)
    (exec .rabbitInit (testState 16 0 0 0)) = true := by decide +kernel

/-- Row RB-18. -/
theorem test_rabbitInitIv : outcomeIs (fun t => elt t.rabbit.x 0 == 0x825CE07B && rabbitCarryWord t == 1)
    (exec .rabbitInitIv { testState 16 8 0 0 with rabbitCanon := true }) = true := by decide +kernel

/-- Row RB-31. -/
theorem test_rabbitInitIv_needs_iv : outcomeIs (fun t => statusWord t == 0x00000200)
    (exec .rabbitInitIv (testState 16 0 0 0)) := by decide

/-- Row RB-11, from row RB-10's state. -/
theorem test_rabbitNext : outcomeIs (fun t => t.rabbit.x == lanesOf [0xB572E827, 0x7F2DDA66, 0x4303151B,
      0xFCABA938, 0x8F00A9C1, 0x1F25B668, 0x6B31A85B, 0x503DB9A5] && elt t.rabbit.c 0 == 0x3536DA9D &&
      rabbitCarryWord t == 1)
    (exec .rabbitNext { validState 0 0 0 0 with
      rabbitCanon := true
      rabbit := {
        x := lanesOf [0x6E9E1D18, 0xF5A54E5C, 0xF8FD49C6, 0x9B94253F, 0xDCD14A79, 0x1F32FA20, 0xD2055921,
          0x53F371D0]
        c := lanesOf [0xE802074F, 0x5206296D, 0x01486DF2, 0x67203CE4, 0x23AACE55, 0x26E87A8F, 0xCC2E04F2,
          0xD6A0F672]
        carry := true } }) = true := by decide +kernel

/-- Row RB-28. -/
theorem test_rabbit_not_initialized :
    outcomeIs (fun t => statusWord t == 0x00000500) (exec .rabbitNext (testState 0 0 0 0)) ∧
    outcomeIs (fun t => statusWord t == 0x00000500) (exec .rabbitExtract (testState 0 0 0 0)) := by decide

/-- Row RB-12, from row RB-11's X. -/
theorem test_rabbitExtract : outcomeIs (fun t => ksBytes t 17 == [0x02, 0xF7, 0x4A, 0x1C, 0x26, 0x45, 0x6B,
      0xF5, 0xEC, 0xD6, 0xA5, 0x36, 0xF0, 0x54, 0x57, 0xB1, 0x55])
    (exec .rabbitExtract { validState 0 0 0 0 with
      ks := Vector.replicate 64 0x55
      rabbit := {
        x := lanesOf [0xB572E827, 0x7F2DDA66, 0x4303151B, 0xFCABA938, 0x8F00A9C1, 0x1F25B668, 0x6B31A85B,
          0x503DB9A5]
        c := lanesOf [], carry := true } }) = true := by decide +kernel

/-- Row RB-23: a whole tile and a partial one. -/
theorem test_rabbitCrypt : outcomeIs (fun t => dbufBytes t 0 21 == [0x02, 0xF7, 0x4A, 0x1C, 0x26, 0x45, 0x6B,
      0xF5, 0xEC, 0xD6, 0xA5, 0x36, 0xF0, 0x54, 0x57, 0xB1, 0xA7, 0x8A, 0xC6, 0x89, 0] &&
      ksBytes t 8 == [0xA7, 0x8A, 0xC6, 0x89, 0x47, 0x6C, 0x69, 0x7B] && elt t.rabbit.x 0 == 0x9FAD21F0 &&
      t.olen == 20)
    (exec .rabbitCrypt { testState 16 0 0 20 with rabbitCanon := true }) = true := by decide +kernel

/-- Row RB-32. -/
theorem test_rabbitCrypt_iv : outcomeIs (fun t => statusWord t == 0x00000200)
    (exec .rabbitCrypt (testState 16 12 0 0)) := by decide

/-! ## Steps, the host's accesses and reset -/

/-- The word placed by `withFetchWord` is what the next step performs. -/
theorem test_withFetchWord : outcomeIs (fun t => statusWord t == 0x00000100)
      (step (State.reset.withFetchWord 32 0x10)) ∧
    outcomeIs (fun t => statusWord t == 0x00000300) (step (State.reset.withFetchWord 32 0x112)) := by decide

/-- Rows CM-12 to CM-17. -/
theorem test_registers :
    hostRead (hostWrite (locate 0x000) 0 State.reset) (locate 0x000) = 0x53434531 ∧
    hostRead State.reset (locate 0x004) = 0 ∧
    hostRead (hostWrite (locate 0x010) 0xFFFFFFFF State.reset) (locate 0x010) = 0x000001FF ∧
    hostRead (hostWrite (locate 0x010) 0x00000200 State.reset) (locate 0x010) = 0 ∧
    hostRead (hostWrite (locate 0x014) 0x0000002C State.reset) (locate 0x014) = 0x0000000C ∧
    hostRead (hostWrite (locate 0x00C) 0xFFFFFFFF State.reset) (locate 0x00C) = 0x00000001 := by decide

/-- Row CM-21. -/
theorem test_wrb : scriptWrb Params.default .key 0 [0x4B, 0x65, 0x79] = [.wr 0x100 0x0079654B] := by decide

/-- Row CM-22. -/
theorem test_rdb : scriptRdb Params.default .dbuf 1 2 = [.rd 0x1000] ∧
    hostRead (hostWrite (locate 0x1000) 0x44332211 State.reset) (locate 0x1000) = 0x44332211 ∧
    rdbBytes 1 2 [0x44332211] = [0x22, 0x33] := by decide

/-- Rows CM-23 and CM-24: a CMD write, then the host moves twice before the engine does. -/
theorem test_busy_accesses : outcomeIs (fun t => t.reads == [1, 0] && t.klen == 3 && t.busy && t.pending == 0x10)
    (core.run 5 { testState 3 0 0 0 with
      script := [.wr 4 0x10, .rd 8, .rd 0x10, .wr 0x10 5, .wr 4 0]
      turns := [.host, .host, .host, .host, .host] }) = true := by decide +kernel

/-- Row RS-2. -/
theorem test_reset_while_busy : outcomeIs (fun t => t == State.reset)
    (step { busyState 0x10 with turns := [.reset], klen := 3, dbuf := [(5, 9)], olen := 1 }) = true := by
  decide +kernel

/-! ## Witnesses: encoding and steps -/

/-- Both kinds of illegal word, at the ends of the reserved ranges, pending in a busy engine. -/
theorem test_witness_IllegalWordsCompleteWithCode3 :
    ([0x02, 0x0F, 0x14, 0x1F, 0x22, 0x2F, 0x32, 0x3F, 0x45, 0xFF].all fun op =>
      decide (op < 256) && !definedOps.contains op && (busyState (BitVec.ofNat 32 op)).busy &&
        !definedOps.contains ((busyState (BitVec.ofNat 32 op)).pending.toNat % 256)) = true ∧
    (busyState 0x100).busy = true ∧ (busyState 0x100).pending.toNat / 256 ≠ 0 := by decide

theorem test_witness_EngineStepRunsTheDecodedCommand :
    (busyState 0x44).busy = true ∧ decode (busyState 0x44).pending = .ok .rabbitCrypt ∧
    (busyState 0x44).turns = [] ∧
    ({ busyState 0x00 with turns := [.engine, .host] } : State).turns = .engine :: [.host] ∧
    decode ({ busyState 0x00 with turns := [.engine, .host] } : State).pending = .ok .nop := by decide

theorem test_witness_CmdWriteIssuesTheCommand :
    ((hostState [.wr 4 0x10]).busy = false ∧
      (hostState [.wr 4 0x10]).script = .wr ((hostState [.wr 4 0x10]).params.base + 4) 0x10 :: []) ∧
    (({ busyState 0 with script := [.wr 4 1] } : State).busy = true ∧
      ({ busyState 0 with script := [.wr 4 1] } : State).script =
        .wr (({ busyState 0 with script := [.wr 4 1] } : State).params.base + 4) 1 :: []) ∧
    (hostState [.rd 4]).script = .rd ((hostState [.rd 4]).params.base + 4) :: [] := by decide

/-- Reads of STATUS and of other places, and writes, at both ends of the span. -/
theorem test_witness_BusyEngineHidesItsState :
    ([0, 8, 0x100, 0x1FFC].all fun addr =>
      ({ busyState 1 with script := [.rd addr] } : State).busy && addrOk Params.default addr &&
        (({ busyState 1 with script := [.rd addr] } : State).script == [.rd addr]) &&
        (({ busyState 1 with script := [.wr addr 7] } : State).script == [.wr addr 7])) = true ∧
    addrOk Params.default 0x2000 = false := by decide

/-- Every range of the statement at its ends. -/
theorem test_witness_ReservedAndReadOnlyPlacesIgnoreWrites :
    ([0x034, 0x0FC, 0x210, 0x23C, 0x280, 0x2FC, 0x440, 0xFFC, 0x000, 0x008, 0x028, 0x02C, 0x030, 0x240,
      0x27C, 0x300, 0x43C].all fun off =>
      !(hostState [.rd off]).busy && addrOk (hostState [.rd off]).params off &&
        decide (off = off - (hostState [.rd off]).params.base) &&
        ((hostState [.rd off]).script == [.rd off]) && ((hostState [.wr off 7]).script == [.wr off 7])) = true ∧
    (0x00000003 : Word) &&& 0x00000001 = 0x00000005 &&& 0x00000001 ∧
    (0x00000203 : Word) &&& 0x000001FF = 0x00000003 &&& 0x000001FF ∧
    (0x00000023 : Word) &&& 0x0000001F = 0x00000003 &&& 0x0000001F := by decide

theorem test_witness_HostRegistersStoreWhatIsWritten : State.reset.busy = false := by decide

/-- The last word of each window. -/
theorem test_witness_WindowReadsAreLittleEndian :
    State.reset.busy = false ∧ locate (0x100 + 4 * 63) = .key 252 ∧ locate (0x200 + 4 * 3) = .nonce 12 ∧
    locate (0x240 + 4 * 15) = .ks 60 ∧ locate (0x300 + 4 * 63) = .s 252 ∧ locate (0x400 + 4 * 7) = .x 7 ∧
    locate (0x420 + 4 * 7) = .c 7 ∧ locate (0x1000 + 4 * 1023) = .dbuf 4092 := by decide

theorem test_witness_WindowWritesStoreFourBytes :
    ({ State.reset with dbuf := [(5, 9)] } : State).busy = false ∧ Memory.wf [(5, 9)] = true ∧
    locate (0x100 + 4 * 0) = .key 0 ∧ locate (0x200 + 4 * 0) = .nonce 0 ∧
    locate (0x1000 + 4 * 0) = .dbuf 0 := by decide

/-- A read; a write, to an idle and to a busy engine, at both ends of the span, at CMD, at a register, at both ends
of KEY and NONCE and at a read-only place; and a write-back at the ends of each read-write range. -/
theorem test_witness_HostAccessesHaveNoSideEffects :
    (addrOk Params.default 0x1FFC = true ∧ (hostState [.rd 0x1FFC]).script = .rd 0x1FFC :: []) ∧
    ([0x000, 0x004, 0x010, 0x100, 0x1FC, 0x200, 0x20C, 0x300, 0x1000, 0x1FFC].all fun off =>
      addrOk (hostState [.wr off 3]).params off && decide (off = off - (hostState [.wr off 3]).params.base) &&
        ((hostState [.wr off 3]).script == [.wr off 3]) && !(hostState [.wr off 3]).busy &&
        (({ busyState 1 with script := [.wr off 3] } : State).script == [.wr off 3])) = true ∧
    Memory.wf (hostState [.wr 0x1000 3]).dbuf = true ∧ (busyState 1).busy = true ∧
    ([0x00C, 0x024, 0x100, 0x20C, 0x1000, 0x1FFC].all fun off =>
      addrOk Params.default off && (hostState [.wr off (hostRead State.reset (locate off))]).script ==
        [.wr off (hostRead (hostState [.wr off (hostRead State.reset (locate off))]) (locate off))]) = true := by
  decide +kernel

/-- A read made twice and a write made twice. -/
theorem test_witness_HostAccessesHaveNoSideEffects_twice :
    (∃ t u, hostTurn (hostState [.rd 8, .rd 8]) = .next t ∧ hostTurn t = .next u) ∧
    (∃ t u, 0x1000 ≠ (hostState [.wr 0x1000 3, .wr 0x1000 3]).params.base + 4 ∧
      Memory.wf (hostState [.wr 0x1000 3, .wr 0x1000 3]).dbuf = true ∧
      hostTurn (hostState [.wr 0x1000 3, .wr 0x1000 3]) = .next t ∧ hostTurn t = .next u) :=
  ⟨⟨_, _, rfl, rfl⟩, ⟨_, _, by decide, by decide, rfl, rfl⟩⟩

/-- The first address past the span, one below a base above 0, and a misaligned one. -/
theorem test_witness_ProtocolBreachesHaveNoStep :
    (hostState [.rd 0x2000]).params.base + 0x1000 + (hostState [.rd 0x2000]).params.dbufBytes ≤ 0x2000 ∧
    0xFFF < ({ hostState [.wr 0xFFF 0] with params := { Params.default with base := 0x1000 } } : State).params.base ∧
    ((0x1FFF - (hostState [.rd 0x1FFF]).params.base) % 4 ≠ 0 ∧
      0x1FFF < (hostState [.rd 0x1FFF]).params.base + 0x1000 + (hostState [.rd 0x1FFF]).params.dbufBytes ∧
      (hostState [.rd 0x1FFF]).script = .rd 0x1FFF :: []) := by decide

theorem test_witness_PollReadsStatusUntilIdle : (hostState [.poll, .rd 8]).script = .poll :: [.rd 8] ∧
    ({ busyState 1 with script := [.poll] } : State).script = .poll :: [] := by decide

theorem test_witness_PlatformResetKeepsTheHost :
    ({ busyState 1 with turns := [.reset, .host], script := [.poll] } : State).turns = .reset :: [.host] := by
  decide

theorem test_witness_PlatformResetSetsTheTable :
    ({ busyState 1 with turns := [.reset, .host] } : State).turns = .reset :: [.host] := by decide

/-- Without a reset in the schedule, and with one. -/
theorem test_witness_IssuedCommandsArePerformed :
    ({ busyState 1 with turns := [.host, .host], script := [.poll, .wr 4 0] } : State).busy = true ∧
    hostDuty { busyState 1 with turns := [.host, .host], script := [.poll, .wr 4 0] } = true ∧
    Turn.reset ∉ ({ busyState 1 with turns := [.host, .host], script := [.poll, .wr 4 0] } : State).turns ∧
    ({ busyState 1 with turns := [.reset, .engine], script := [.poll] } : State).busy = true ∧
    hostDuty { busyState 1 with turns := [.reset, .engine], script := [.poll] } = true := by decide

theorem test_witness_FinishedRunsStandStill : runOver State.reset = true ∧ State.reset.turns = [] := by decide

theorem test_witness_ParametersNeverChange : ∃ t, step (busyState 0x01) = .next t := ⟨_, rfl⟩

/-! ## Witnesses: errors and frames -/

theorem test_witness_ErrorsChangeOnlyErrAndBusy :
    ∃ t, perform (busyState 0x10) = .next t ∧ t.err ≠ .ok := ⟨_, rfl, by decide⟩

theorem test_witness_ZeroizeClearsTheSecrets :
    ∃ t, exec .zeroize (testState 0 0 4096 0) = .next t ∧ rangeMeets .rc4Prga t = true :=
  ⟨_, rfl, by decide⟩

/-- The ends of both ranges, and STATUS. -/
theorem test_witness_ZeroizeLeavesNothingToRead :
    (∃ t, exec .zeroize (validState 0 0 0 0) = .next t) ∧
    ([0x008, 0x028, 0x030, 0x100, 0x43C].all fun off => off % 4 == 0 &&
      (off == 0x008 || (decide (0x028 ≤ off) && decide (off ≤ 0x030)) ||
        (decide (0x100 ≤ off) && decide (off < 0x440)))) = true := ⟨⟨_, rfl⟩, by decide⟩

theorem test_witness_CommandsKeepTheHostsRegisters :
    (∃ t, exec .nop (validState 3 8 1 2) = .next t) ∧ Instr.nop ≠ .zeroize := ⟨⟨_, rfl⟩, by decide⟩

/-- A command for each clause. -/
theorem test_witness_CommandsKeepTheOtherCiphers :
    (∃ t, exec .rabbitExtract (validState 0 0 0 0) = .next t) ∧
    (∃ t, exec .rc4Prga (validState 0 0 0 0) = .next t) ∧
    (∃ t, exec .rabbitNext (validState 0 0 0 0) = .next t) ∧
    (∃ t, exec .rabbitCrypt (validState 16 0 0 0) = .next t) ∧
    Instr.rabbitExtract ∉ [Instr.rc4Ksa, .rc4Prga, .rc4Crypt, .rc4wCrypt] ∧
    Instr.rc4Prga ∉ [Instr.rabbitInit, .rabbitInitIv, .rabbitNext, .rabbitExtract, .rabbitCrypt] ∧
    Instr.rc4Prga ∉ [Instr.chachaBlock, .chachaCrypt, .salsaBlock, .salsaCrypt, .rabbitExtract, .rabbitCrypt] :=
  ⟨⟨_, rfl⟩, ⟨_, rfl⟩, ⟨_, rfl⟩, ⟨_, rfl⟩, by decide, by decide, by decide⟩

/-- A data command at the two addresses beside its range, and a command with no data. -/
theorem test_witness_CommandsWriteDbufOnlyInRange :
    Memory.wf (validState 0 0 4 2).dbuf = true ∧ (∃ t, exec .rc4Prga (validState 0 0 4 2) = .next t) ∧
    outLen .rc4Prga (validState 0 0 4 2) = some 2 ∧ ¬ (4 ≤ 3 ∧ 3 < 4 + 2) ∧ ¬ (4 ≤ 6 ∧ 6 < 4 + 2) ∧
    outLen .nop (validState 0 0 4 2) = none := ⟨by decide, ⟨_, rfl⟩, by decide⟩

/-- A failing command, and a succeeding one of each kind. -/
theorem test_witness_OlenFollowsTheDataCommands :
    (testState 0 0 0 0).params.wf = true ∧ (testState 0 0 0 0).busy = false ∧
    (∃ t, exec .rc4Crypt (testState 0 0 0 0) = .next t ∧ t.err ≠ .ok) ∧
    (∃ t, exec .rc4Prga (validState 0 0 0 0) = .next t ∧ t.err = .ok) ∧
    (∃ t, exec .rc4wCrypt (testState 1 0 4096 0) = .next t ∧ t.err = .ok) ∧
    (∃ t, exec .zeroize (testState 0 0 0 0) = .next t ∧ t.err = .ok) ∧
    (∃ t, exec .nop (testState 0 0 0 0) = .next t ∧ t.err = .ok) :=
  ⟨by decide, by decide, ⟨_, rfl, by decide⟩, ⟨_, rfl, by decide⟩, ⟨_, rfl, by decide⟩,
    ⟨_, rfl, by decide⟩, ⟨_, rfl, by decide⟩⟩

/-! ## Witnesses: RC4 -/

/-- Both ends of the legal lengths, and the two values beside them. -/
theorem test_witness_Rc4KsaSchedulesTheKey :
    (1 ≤ (testState 1 0 0 0).klen.toNat ∧ (testState 1 0 0 0).klen.toNat ≤ 256) ∧
    (1 ≤ (testState 256 0 0 0).klen.toNat ∧ (testState 256 0 0 0).klen.toNat ≤ 256) ∧
    ¬ (1 ≤ (testState 0 0 0 0).klen.toNat ∧ (testState 0 0 0 0).klen.toNat ≤ 256) ∧
    ¬ (1 ≤ (testState 257 0 0 0).klen.toNat ∧ (testState 257 0 0 0).klen.toNat ≤ 256) := by decide

theorem test_witness_KeyScheduleIsAPermutation : IsPerm ({ s := identityPerm, i := 0, j := 0 } : Rc4).s :=
  List.Perm.refl _

/-- Two keys that agree on one byte and differ in the next; and, at L = 256, one key. -/
theorem test_witness_KeyScheduleReadsOnlyTheKeyBytes :
    (1 ≤ 1 ∧ 1 ≤ 256 ∧ ∀ n, n < 1 → elt (bytesOf 256 [5, 6]) n = elt (bytesOf 256 [5, 7]) n) ∧
    (1 ≤ 256 ∧ 256 ≤ 256 ∧ ∀ n, n < 256 → elt (bytesOf 256 [5]) n = elt (bytesOf 256 [5]) n) :=
  ⟨by decide, by decide, by decide, fun _ _ => rfl⟩

/-- An empty range at the end of DBUF, and one that reaches the end. -/
theorem test_witness_Rc4PrgaContinuesTheKeystream :
    runs .rc4Prga (validState 0 0 4096 0) = true ∧ runs .rc4Prga (validState 0 0 4090 6) = true ∧
    Memory.wf (validState 0 0 4090 6).dbuf = true := by decide

theorem test_witness_Rc4CryptXorsTheKeystream :
    runs .rc4Crypt (testState 1 0 4096 0) = true ∧ runs .rc4Crypt (testState 256 0 4095 1) = true ∧
    Memory.wf (testState 256 0 4095 1).dbuf = true := by decide

/-- The pad byte is the last byte of DBUF. -/
theorem test_witness_Rc4wCryptXorsThePairs :
    runs .rc4wCrypt (testState 1 0 4092 3) = true ∧ runs .rc4wCrypt (testState 256 0 4096 0) = true ∧
    Memory.wf (testState 1 0 4092 3).dbuf = true ∧ (testState 1 0 4092 3).params.wf = true := by decide

theorem test_witness_SplitPrgaEqualsOneCrypt : runs .rc4Crypt (testState 3 0 4087 9) = true ∧
    (testState 3 0 4087 9).params.wf = true ∧ (testState 3 0 4087 9).dlen.toNat = 4 + 5 ∧
    (testState 3 0 4087 9).dlen.toNat = 0 + 9 := by decide

/-- An odd and an even length. -/
theorem test_witness_Rc4wRoundTripGivesDataAndPad :
    (runs .rc4wCrypt (testState 3 0 0 3) = true ∧ ∃ t, exec .rc4wCrypt (testState 3 0 0 3) = .next t) ∧
    (runs .rc4wCrypt (testState 3 0 0 2) = true ∧ ∃ t, exec .rc4wCrypt (testState 3 0 0 2) = .next t) ∧
    Memory.wf (testState 3 0 0 3).dbuf = true ∧ (testState 3 0 0 3).params.wf = true :=
  ⟨⟨by decide, ⟨_, rfl⟩⟩, ⟨by decide, ⟨_, rfl⟩⟩, by decide, by decide⟩

/-! ## Witnesses: ChaCha20 and Salsa20 -/

theorem test_witness_ChachaInitialStateLayout : 0 < 4 ∧ 3 < 4 ∧ 0 < 8 ∧ 7 < 8 ∧ 0 < 3 ∧ 2 < 3 := by decide

theorem test_witness_SalsaInitialStateLayout : 0 < 4 ∧ 3 < 4 := by decide

theorem test_witness_RotateLeftMovesEachBit : 0 < 32 ∧ 31 < 32 ∧ 1 ≤ 1 ∧ 1 ≤ 31 := by decide

/-- The lengths the commands need, and those beside them. -/
theorem test_witness_BlockCommandsWriteTheKeystreamBlock :
    ((testState 32 12 0 0).klen.toNat = 32 ∧ (testState 32 12 0 0).nlen.toNat = 12) ∧
    ((testState 32 8 0 0).klen.toNat = 32 ∧ (testState 32 8 0 0).nlen.toNat = 8) ∧
    (testState 31 0 0 0).klen.toNat ≠ 32 ∧ (testState 33 0 0 0).klen.toNat ≠ 32 ∧
    (testState 32 11 0 0).nlen.toNat ≠ 12 ∧ (testState 32 13 0 0).nlen.toNat ≠ 12 ∧
    (testState 32 7 0 0).nlen.toNat ≠ 8 ∧ (testState 32 9 0 0).nlen.toNat ≠ 8 := by decide

theorem test_witness_KeystreamWindowReadsTheBlockWords : runs .chachaBlock (testState 32 12 0 0) = true ∧
    runs .salsaBlock (testState 32 8 0 0) = true ∧ 15 < 16 := by decide

/-- An empty range, and one byte more than a tile at the end of DBUF. -/
theorem test_witness_ChachaCryptXorsTheBlocks :
    (runs .chachaCrypt (testState 32 12 4096 0) = true ∧ (testState 32 12 4096 0).dlen.toNat = 0) ∧
    (runs .chachaCrypt (testState 32 12 4031 65) = true ∧ 0 < (testState 32 12 4031 65).dlen.toNat) ∧
    Memory.wf (testState 32 12 4031 65).dbuf = true := by decide

theorem test_witness_SalsaCryptXorsTheBlocks :
    (runs .salsaCrypt (testState 32 8 4096 0) = true ∧ (testState 32 8 4096 0).dlen.toNat = 0) ∧
    (runs .salsaCrypt (testState 32 8 4031 65) = true ∧ 0 < (testState 32 8 4031 65).dlen.toNat) ∧
    Memory.wf (testState 32 8 4031 65).dbuf = true := by decide

theorem test_witness_ChachaChunksJoin : runs .chachaCrypt (testState 32 12 0 114) = true ∧
    (testState 32 12 0 114).params.wf = true ∧ (testState 32 12 0 114).dlen.toNat = 64 * 1 + 50 := by decide

theorem test_witness_SalsaChunksJoin : runs .salsaCrypt (testState 32 8 0 128) = true ∧
    (testState 32 8 0 128).params.wf = true ∧ (testState 32 8 0 128).dlen.toNat = 64 * 2 + 0 := by decide

/-! ## Witnesses: Rabbit -/

theorem test_witness_OriginalCounterAddsLaneByLane : 0 < 8 ∧ 7 < 8 := by decide

/-- Both counter systems. -/
theorem test_witness_RabbitInitRunsKeySetup : (testState 16 0 0 0).klen.toNat = 16 ∧
    ({ testState 16 0 0 0 with rabbitCanon := true } : State).klen.toNat = 16 ∧ 7 < 8 := by decide

theorem test_witness_RabbitInitIvRunsIvSetup :
    (testState 16 8 0 0).klen.toNat = 16 ∧ (testState 16 8 0 0).nlen.toNat = 8 := by decide

theorem test_witness_RabbitNextAndExtractResults : (validState 0 0 0 0).rabbitValid = true ∧
    (testState 0 0 0 0).rabbitValid = false ∧ 15 < 16 ∧ 16 ≤ 16 := by decide

/-- With and without an IV; an empty range, and one byte more than a tile at the end of DBUF. -/
theorem test_witness_RabbitCryptXorsTheBlocks :
    (runs .rabbitCrypt (testState 16 0 4096 0) = true ∧ (testState 16 0 4096 0).dlen.toNat = 0) ∧
    (runs .rabbitCrypt (testState 16 8 4079 17) = true ∧ 0 < (testState 16 8 4079 17).dlen.toNat) ∧
    Memory.wf (testState 16 8 4079 17).dbuf = true := by decide

/-- The shortest and the longest length of two tiles. -/
theorem test_witness_RabbitStreamEqualsOneCrypt :
    (runs .rabbitCrypt (testState 16 8 0 17) = true ∧ 16 * 1 < (testState 16 8 0 17).dlen.toNat ∧
      (testState 16 8 0 17).dlen.toNat ≤ 16 * (1 + 1)) ∧
    (runs .rabbitCrypt (testState 16 0 0 32) = true ∧ 16 * 1 < (testState 16 0 0 32).dlen.toNat ∧
      (testState 16 0 0 32).dlen.toNat ≤ 16 * (1 + 1)) := by decide

/-! ## Witnesses: headline results -/

theorem test_witness_CryptTwiceRestoresTheData :
    (runs .rc4Crypt (testState 5 0 0 3) = true ∧ ∃ t, exec .rc4Crypt (testState 5 0 0 3) = .next t) ∧
    (runs .chachaCrypt (testState 32 12 0 3) = true ∧ ∃ t, exec .chachaCrypt (testState 32 12 0 3) = .next t) ∧
    (runs .salsaCrypt (testState 32 8 0 3) = true ∧ ∃ t, exec .salsaCrypt (testState 32 8 0 3) = .next t) ∧
    (runs .rabbitCrypt (testState 16 0 0 3) = true ∧ ∃ t, exec .rabbitCrypt (testState 16 0 0 3) = .next t) ∧
    Memory.wf (testState 5 0 0 3).dbuf = true :=
  ⟨⟨by decide, ⟨_, rfl⟩⟩, ⟨by decide, ⟨_, rfl⟩⟩, ⟨by decide, ⟨_, rfl⟩⟩, ⟨by decide, ⟨_, rfl⟩⟩, by decide⟩

/-- One data byte at address 4, nothing else listed. -/
def plainState (klen : BitVec 9) (nlen : BitVec 5) : State := { testState klen nlen 4 1 with dbuf := [(4, 9)] }

/-- The same inputs, with other streaming state, another block, other flags and a byte beside the data. -/
def usedState (klen : BitVec 9) (nlen : BitVec 5) : State :=
  { validState klen nlen 4 1 with
    dbuf := [(4, 9), (5, 8)], ks := Vector.replicate 64 1, rc4 := { s := identityPerm, i := 1, j := 2 } }

theorem plainState_ne_usedState (klen : BitVec 9) (nlen : BitVec 5) : plainState klen nlen ≠ usedState klen nlen :=
  fun h => by simpa [plainState, usedState, validState, testState, State.reset, State.resetWith]
    using congrArg State.rc4Valid h

/-- The premises on the two states, at every length. -/
theorem test_witness_CryptIgnoresTheStreamingState_inputs (klen : BitVec 9) (nlen : BitVec 5) :
    let s := plainState klen nlen
    let s' := usedState klen nlen
    s.key = s'.key ∧ s.klen = s'.klen ∧ s.nonce = s'.nonce ∧ s.nlen = s'.nlen ∧ s.ctrLo = s'.ctrLo ∧
      s.ctrHi = s'.ctrHi ∧ s.rabbitCanon = s'.rabbitCanon ∧ s.params = s'.params ∧ s.doff = s'.doff ∧
      s.dlen = s'.dlen ∧ Memory.wf s.dbuf = true ∧ Memory.wf s'.dbuf = true ∧ 0 < s.dlen.toNat ∧
      ∀ n, n < s.dlen.toNat → memRead s.dbuf (s.doff.toNat + n) = memRead s'.dbuf (s.doff.toNat + n) :=
  ⟨rfl, rfl, rfl, rfl, rfl, rfl, rfl, rfl, rfl, rfl, rfl, rfl, Nat.one_pos, fun
    | 0, _ => rfl
    | n + 1, h => absurd h (Nat.not_lt.2 (Nat.succ_le_succ (Nat.zero_le n)))⟩

/-- All five commands succeed on both states; RABBIT_CRYPT with an IV. -/
theorem test_witness_CryptIgnoresTheStreamingState :
    (∃ t t', exec .rc4Crypt (plainState 5 0) = .next t ∧ exec .rc4Crypt (usedState 5 0) = .next t' ∧ t.err = .ok) ∧
    (∃ t t', exec .rc4wCrypt (plainState 5 0) = .next t ∧ exec .rc4wCrypt (usedState 5 0) = .next t' ∧
      t.err = .ok) ∧
    (∃ t t', exec .chachaCrypt (plainState 32 12) = .next t ∧ exec .chachaCrypt (usedState 32 12) = .next t' ∧
      t.err = .ok) ∧
    (∃ t t', exec .salsaCrypt (plainState 32 8) = .next t ∧ exec .salsaCrypt (usedState 32 8) = .next t' ∧
      t.err = .ok) ∧
    ∃ t t', exec .rabbitCrypt (plainState 16 8) = .next t ∧ exec .rabbitCrypt (usedState 16 8) = .next t' ∧
      t.err = .ok :=
  ⟨⟨_, _, rfl, rfl, by decide⟩, ⟨_, _, rfl, rfl, by decide⟩, ⟨_, _, rfl, rfl, by decide⟩,
    ⟨_, _, rfl, rfl, by decide⟩, _, _, rfl, rfl, by decide⟩

/-- A state other than reset meets the invariant, and steps. -/
theorem test_witness_StepKeepsTheInvariant : ∃ s t : State, Inv s ∧ step s = .next t ∧ s.dbuf ≠ [] :=
  ⟨{ hostState [.wr 0x2010 32] with
      params := { base := 0x2000, dbufBytes := 64, origCreinit := true, rc4wPair := .uninterpreted }
      dbuf := [(63, 1)], olen := 64, klen := 5 }, _,
    { params := by decide, canonical := by decide, inside := by decide, olen := by decide
      perm := fun h => absurd h (by decide), rc4Zero := fun _ => rfl, rabbitZero := fun _ => rfl },
    rfl, by decide⟩

end Sys2Proof.Machine
end

section
/-! PROOFS. The host's accesses (10_state.md rules R22 and R34): what a host turn does at an offset of the
register map, the places that ignore writes, and the bits that read 0. -/

namespace Sys2Proof.Machine

/-! ## A host turn at a legal address -/

theorem addrOk_iff {p : Params} {addr : Nat} : addrOk p addr = true ↔
    p.base ≤ addr ∧ addr - p.base < 0x1000 + p.dbufBytes ∧ (addr - p.base) % 4 = 0 := by
  simp only [addrOk, Bool.and_eq_true, decide_eq_true_eq, beq_iff_eq, and_assoc]

/-- Every aligned offset of the register block is legal, whatever the size of DBUF (rules R60, R61). -/
theorem addrOk_base_add (p : Params) {off : Nat} (hlt : off < 0x1000) (h4 : off % 4 = 0) :
    addrOk p (p.base + off) = true := by
  rw [addrOk_iff]; omega

theorem hostTurn_rd {s : State} {addr : Nat} {rest : List HostOp} (hs : s.script = .rd addr :: rest)
    (ha : addrOk s.params addr = true) :
    hostTurn s = .next (setScript rest (logRead (hostRead s (locate (addr - s.params.base))) s)) := by
  simp [hostTurn, hs, hostReadOp, resolve_of_addrOk ha]

theorem hostTurn_wr {s : State} {addr : Nat} {w : Word} {rest : List HostOp}
    (hs : s.script = .wr addr w :: rest) (ha : addrOk s.params addr = true) :
    hostTurn s = .next (setScript rest (hostWrite (locate (addr - s.params.base)) w s)) := by
  simp [hostTurn, hs, hostWriteOp, resolve_of_addrOk ha]

theorem hostWrite_of_busy {s : State} (hb : s.busy = true) (l : Loc) (w : Word) : hostWrite l w s = s := by
  simp [hostWrite, hb]

theorem hostWrite_of_idle {s : State} (hb : s.busy = false) (l : Loc) (w : Word) :
    hostWrite l w s = idleWrite l w s := by
  simp [hostWrite, hb]

/-! ## CMD (rule R22) -/

@[simp] theorem hostRead_cmd (s : State) : hostRead s .cmd = 0 := by
  unfold hostRead; split <;> rfl

/-- The address of CMD. -/
theorem locate_cmd_addr (p : Params) : locate (p.base + 4 - p.base) = .cmd := by
  rw [Nat.add_sub_cancel_left]; rfl

/-- Settles O6: each clause is the host's turn at the address of CMD, or the engine's while busy. -/
theorem cmdWriteIssuesTheCommand : Obligations.CmdWriteIssuesTheCommand := by
  intro s w rest
  have ha : addrOk s.params (s.params.base + 4) = true := addrOk_base_add _ (by decide) (by decide)
  refine ⟨fun hb hs => ?_, fun hb hs => ?_, fun hs => ?_, engineTurn_busy⟩
  · rw [hostTurn_wr hs ha, locate_cmd_addr, hostWrite_of_idle hb]; rfl
  · rw [hostTurn_wr hs ha, hostWrite_of_busy hb]; rfl
  · rw [hostTurn_rd hs ha, locate_cmd_addr, hostRead_cmd]; rfl

/-! ## Reserved offsets and read-only places (rule R34) -/

@[simp] theorem hostRead_reserved (s : State) : hostRead s .reserved = 0 := by
  unfold hostRead; split <;> rfl

/-- The places whose writes are ignored: the read-only registers and windows, and the reserved offsets. -/
def ignoresWrites : Loc → Bool
  | .id | .status | .olen | .rc4Ij | .rabbitCarry | .ks _ | .s _ | .x _ | .c _ | .reserved => true
  | _ => false

theorem hostWrite_of_ignoresWrites {l : Loc} (hl : ignoresWrites l = true) (w : Word) (s : State) :
    hostWrite l w s = s := by
  have hidle : idleWrite l w s = s := by
    cases l
    case id | status | olen | rc4Ij | rabbitCarry | ks | s | x | c | reserved => rfl
    all_goals cases hl
  simp [hostWrite, hidle]

/-- The reserved ranges of the register map. -/
theorem locate_eq_reserved {off : Nat} (h4 : off % 4 = 0) :
    locate off = .reserved ↔ (0x034 ≤ off ∧ off < 0x100) ∨ (0x210 ≤ off ∧ off < 0x240) ∨
      (0x280 ≤ off ∧ off < 0x300) ∨ (0x440 ≤ off ∧ off < 0x1000) := by
  have hat := locate_standsAt h4
  refine ⟨fun h => by rwa [h] at hat, fun hoff => ?_⟩
  generalize locate off = l at hat
  cases l
  case reserved => rfl
  all_goals simp only [standsAt] at hat; omega

/-- The read-only ranges of the register map. -/
theorem ignoresWrites_locate_readOnly {off : Nat} (h4 : off % 4 = 0)
    (hoff : off = 0x000 ∨ off = 0x008 ∨ off = 0x028 ∨ off = 0x02C ∨ off = 0x030 ∨
      (0x240 ≤ off ∧ off < 0x280) ∨ (0x300 ≤ off ∧ off < 0x440)) :
    ignoresWrites (locate off) = true := by
  have hat := locate_standsAt h4
  generalize locate off = l at hat
  cases l
  case id | status | olen | rc4Ij | rabbitCarry | ks | s | x | c | reserved => rfl
  all_goals simp only [standsAt] at hat; omega

theorem hostTurn_wr_ignored {s : State} {addr : Nat} {w : Word} {rest : List HostOp}
    (hs : s.script = .wr addr w :: rest) (ha : addrOk s.params addr = true)
    (hl : ignoresWrites (locate (addr - s.params.base)) = true) :
    hostTurn s = .next { s with script := rest } := by
  rw [hostTurn_wr hs ha, hostWrite_of_ignoresWrites hl]; rfl

/-! ## Reserved bits (rules R23 to R26, R32 to R34) -/

/-- A field of `n` bits at bit `p` shows no bit under a mask that is clear on those places. -/
theorem field_and_eq_zero {n : Nat} (v : BitVec n) (p : Nat) {m : Word}
    (hm : ∀ k, k < n → m.getLsbD (p + k) = false) : (v.setWidth 32 <<< p) &&& m = 0 := by
  refine BitVec.eq_of_getLsbD_eq fun j _ => ?_
  simp only [BitVec.getLsbD_and, BitVec.getLsbD_shiftLeft, BitVec.getLsbD_setWidth]
  by_cases hlow : j < p
  · simp [hlow]
  · by_cases hin : j - p < n
    · have hclear := hm (j - p) hin
      rw [Nat.add_sub_cancel' (Nat.le_of_not_lt hlow)] at hclear
      simp [hclear]
    · simp [BitVec.getLsbD_of_ge v (j - p) (Nat.le_of_not_lt hin)]

/-- The same for a field at bit 0. -/
theorem lowField_and_eq_zero {n : Nat} (v : BitVec n) {m : Word} (hm : ∀ k, k < n → m.getLsbD k = false) :
    v.setWidth 32 &&& m = 0 := by
  simpa using field_and_eq_zero v 0 (by simpa using hm)

theorem errField_and_eq_zero (e : ErrCode) : (BitVec.ofNat 32 (errCode e) <<< 8) &&& 0xFFFCF0FE = 0 := by
  cases e <;> decide

theorem statusWord_reservedBits (s : State) : statusWord s &&& 0xFFFCF0FE = 0 := by
  simp only [statusWord, BitVec.and_or_distrib_right]
  rw [lowField_and_eq_zero _ (by decide), errField_and_eq_zero, field_and_eq_zero _ 16 (by decide),
    field_and_eq_zero _ 17 (by decide)]
  rfl

theorem rc4IjWord_reservedBits (s : State) : rc4IjWord s &&& 0xFFFF0000 = 0 := by
  rw [rc4IjWord, BitVec.and_or_distrib_right, lowField_and_eq_zero _ (by decide),
    field_and_eq_zero _ 8 (by decide)]
  rfl

/-- Being busy shows no bit that an idle engine hides (rule R73). -/
theorem hostRead_and_eq_zero {s : State} {l : Loc} {m : Word} (h : idleRead s l &&& m = 0) :
    hostRead s l &&& m = 0 := by
  unfold hostRead
  split
  · split
    · subst l; exact h
    · exact BitVec.zero_and
  · exact h

theorem reservedBits_read_zero (s : State) :
    statusWord s &&& 0xFFFCF0FE = 0 ∧ hostRead s .ctrl &&& 0xFFFFFFFE = 0 ∧
    hostRead s .klen &&& 0xFFFFFE00 = 0 ∧ hostRead s .nlen &&& 0xFFFFFFE0 = 0 ∧
    hostRead s .rc4Ij &&& 0xFFFF0000 = 0 ∧ hostRead s .rabbitCarry &&& 0xFFFFFFFE = 0 :=
  ⟨statusWord_reservedBits s,
    hostRead_and_eq_zero (lowField_and_eq_zero (BitVec.ofBool s.rabbitCanon) (by decide)),
    hostRead_and_eq_zero (lowField_and_eq_zero s.klen (by decide)),
    hostRead_and_eq_zero (lowField_and_eq_zero s.nlen (by decide)),
    hostRead_and_eq_zero (rc4IjWord_reservedBits s),
    hostRead_and_eq_zero (lowField_and_eq_zero (BitVec.ofBool s.rabbit.carry) (by decide))⟩

/-! ## Defined bits (rules R24 to R26) -/

theorem getLsbD_eq_of_and_eq {w w' m : Word} (h : w &&& m = w' &&& m) {k : Nat} (hm : m.getLsbD k = true) :
    w.getLsbD k = w'.getLsbD k := by
  simpa [hm] using congrArg (·.getLsbD k) h

theorem extractLsb'_zero_eq_of_and_eq {w w' m : Word} (n : Nat) (h : w &&& m = w' &&& m)
    (hm : ∀ k, k < n → m.getLsbD k = true) : w.extractLsb' 0 n = w'.extractLsb' 0 n := by
  refine BitVec.eq_of_getLsbD_eq fun k hk => ?_
  simp [hk, getLsbD_eq_of_and_eq h (hm k hk)]

/-- A write stores the same where the engine, being idle, would store the same. -/
theorem hostWrite_congr {l : Loc} {w w' : Word} {s : State} (h : idleWrite l w s = idleWrite l w' s) :
    hostWrite l w s = hostWrite l w' s := by
  simp [hostWrite, h]

theorem hostWrite_ctrl_congr {w w' : Word} (s : State) (h : w &&& 0x00000001 = w' &&& 0x00000001) :
    hostWrite .ctrl w s = hostWrite .ctrl w' s :=
  hostWrite_congr (by simp only [idleWrite, getLsbD_eq_of_and_eq h (k := 0) (by decide)])

theorem hostWrite_klen_congr {w w' : Word} (s : State) (h : w &&& 0x000001FF = w' &&& 0x000001FF) :
    hostWrite .klen w s = hostWrite .klen w' s :=
  hostWrite_congr (by simp only [idleWrite, extractLsb'_zero_eq_of_and_eq 9 h (by decide)])

theorem hostWrite_nlen_congr {w w' : Word} (s : State) (h : w &&& 0x0000001F = w' &&& 0x0000001F) :
    hostWrite .nlen w s = hostWrite .nlen w' s :=
  hostWrite_congr (by simp only [idleWrite, extractLsb'_zero_eq_of_and_eq 5 h (by decide)])

/-- Settles O9: the register map places each offset of the statement at a place that ignores writes; the
reserved bits are those outside the fields of their register. The premise that the engine is idle is not needed. -/
theorem reservedAndReadOnlyPlacesIgnoreWrites : Obligations.ReservedAndReadOnlyPlacesIgnoreWrites := by
  refine ⟨?_, reservedBits_read_zero, fun s w w' =>
    ⟨hostWrite_ctrl_congr s, hostWrite_klen_congr s, hostWrite_nlen_congr s⟩⟩
  rintro s addr off w rest - ha rfl
  have h4 : (addr - s.params.base) % 4 = 0 := (addrOk_iff.1 ha).2.2
  refine ⟨fun hoff => ?_, fun hoff hs => hostTurn_wr_ignored hs ha (ignoresWrites_locate_readOnly h4 hoff)⟩
  have hl := (locate_eq_reserved h4).2 hoff
  refine ⟨fun hs => ?_, fun hs => hostTurn_wr_ignored hs ha (by rw [hl]; rfl)⟩
  rw [hostTurn_rd hs ha, hl, hostRead_reserved]; rfl

end Sys2Proof.Machine
end

section
/-! PROOFS. The host's accesses (20_memory.md rules R67 and R73): the register map as an equivalence, what a busy
engine shows, what a write to an idle one stores, and that accesses have no side effects. -/

namespace Sys2Proof.Machine

/-! ## The register map -/

theorem locate_of_standsAt {off : Nat} (h4 : off % 4 = 0) {l : Loc} (h : standsAt off l) : locate off = l := by
  cases l
  case dbuf a =>
    cases h
    simp (disch := omega) only [locate, if_neg, Nat.add_sub_cancel_left]
  case key | nonce | ks | s | x | c =>
    obtain ⟨rfl, hin⟩ := h
    simp (disch := omega) only [locate, if_neg, if_pos, Nat.add_sub_cancel_left, Nat.mul_div_cancel_left]
  case reserved => exact (locate_eq_reserved h4).2 h
  all_goals cases h; rfl

/-- A place is reached at exactly the aligned offsets at which it stands. -/
theorem locate_eq_iff {off : Nat} (h4 : off % 4 = 0) {l : Loc} : locate off = l ↔ standsAt off l :=
  ⟨fun h => h ▸ locate_standsAt h4, locate_of_standsAt h4⟩

theorem locate_eq_status {off : Nat} (h4 : off % 4 = 0) : locate off = .status ↔ off = 0x008 :=
  locate_eq_iff h4

/-! ## A busy engine (rule R73) -/

theorem hostRead_of_busy {s : State} (hb : s.busy = true) (l : Loc) :
    hostRead s l = if l = .status then statusWord s else 0 := by
  simp [hostRead, hb]

/-- Settles O7: the host's turn at a legal address, where the register map places STATUS at 0x008 alone. -/
theorem busyEngineHidesItsState : Obligations.BusyEngineHidesItsState := by
  intro s addr rest hb ha
  refine ⟨by rw [statusWord_bit0, hb], fun hs => ?_, fun w hs => ?_⟩
  · obtain ⟨hbase, -, h4⟩ := addrOk_iff.1 ha
    have hstatus : locate (addr - s.params.base) = .status ↔ addr = s.params.base + 8 := by
      rw [locate_eq_status h4]; omega
    rw [hostTurn_rd hs ha, hostRead_of_busy hb]
    simp only [hstatus]
    rfl
  · rw [hostTurn_wr hs ha, hostWrite_of_busy hb]; rfl

/-! ## What a write to an idle engine stores (rules R24 to R30, R62) -/

theorem extractLsb'_zero_eq_ofNat (w : Word) (n : Nat) :
    w.extractLsb' 0 n = BitVec.ofNat n (w.toNat % 2 ^ n) := by
  apply BitVec.eq_of_toNat_eq
  simp

/-- A write not to CMD: only the host-written register it names, and the three writable windows. -/
theorem idleWrite_eq {l : Loc} (hl : l ≠ .cmd) (w : Word) (s : State) :
    idleWrite l w s = { s with
      rabbitCanon := if l = .ctrl then w.getLsbD 0 else s.rabbitCanon
      klen := if l = .klen then w.extractLsb' 0 9 else s.klen
      nlen := if l = .nlen then w.extractLsb' 0 5 else s.nlen
      ctrLo := if l = .ctrLo then w else s.ctrLo
      ctrHi := if l = .ctrHi then w else s.ctrHi
      doff := if l = .doff then w else s.doff
      dlen := if l = .dlen then w else s.dlen
      key := (idleWrite l w s).key
      nonce := (idleWrite l w s).nonce
      dbuf := (idleWrite l w s).dbuf } := by
  cases l
  case cmd => exact absurd rfl hl
  all_goals rfl

theorem elt_putWord_aligned {n : Nat} (B : Vector Byte n) {o : Nat} (ho : o % 4 = 0) (w : Word) {k : Nat}
    (hk : k < n) : elt (putWord B o w) k = if o = 4 * (k / 4) then byteOf w (k % 4) else elt B k := by
  rw [elt_putWord B o w k hk]
  by_cases h : o = 4 * (k / 4)
  · rw [if_pos h, if_pos (by omega), show k - o = k % 4 by omega]
  · rw [if_neg h, if_neg (by omega)]

theorem memRead_memWriteWord_aligned {m : Memory} (h : Memory.wf m = true) {o : Nat} (ho : o % 4 = 0)
    (w : Word) (a : Nat) :
    memRead (memWriteWord m o w) a = if o = 4 * (a / 4) then byteOf w (a % 4) else memRead m a := by
  rw [memRead_memWriteWord h]
  by_cases hm : o = 4 * (a / 4)
  · rw [if_pos hm, if_pos (by omega), show a - o = a % 4 by omega]
  · rw [if_neg hm, if_neg (by omega)]

section window

variable {off : Nat} (h4 : off % 4 = 0) {s : State} (w : Word)
include h4

theorem elt_key_idleWrite {k : Nat} (hk : k < 256) : elt (idleWrite (locate off) w s).key k =
    if off = 0x100 + 4 * (k / 4) then byteOf w (k % 4) else elt s.key k := by
  have hat := locate_standsAt h4
  generalize locate off = l at hat
  cases l
  case key o =>
    obtain ⟨rfl, -⟩ := hat
    simpa [idleWrite] using elt_putWord_aligned s.key (o := o) (by omega) w hk
  all_goals rw [if_neg (by simp only [standsAt] at hat; omega)]; rfl

theorem elt_nonce_idleWrite {k : Nat} (hk : k < 16) : elt (idleWrite (locate off) w s).nonce k =
    if off = 0x200 + 4 * (k / 4) then byteOf w (k % 4) else elt s.nonce k := by
  have hat := locate_standsAt h4
  generalize locate off = l at hat
  cases l
  case nonce o =>
    obtain ⟨rfl, -⟩ := hat
    simpa [idleWrite] using elt_putWord_aligned s.nonce (o := o) (by omega) w hk
  all_goals rw [if_neg (by simp only [standsAt] at hat; omega)]; rfl

theorem dbuf_idleWrite (hoff : off < 0x1000) : (idleWrite (locate off) w s).dbuf = s.dbuf := by
  have hat := locate_standsAt h4
  generalize locate off = l at hat
  cases l
  case dbuf a => simp only [standsAt] at hat; omega
  all_goals rfl

theorem memRead_dbuf_idleWrite (hwf : Memory.wf s.dbuf = true) (a : Nat) :
    memRead (idleWrite (locate off) w s).dbuf a =
      if off = 0x1000 + 4 * (a / 4) then byteOf w (a % 4) else memRead s.dbuf a := by
  have hat := locate_standsAt h4
  generalize locate off = l at hat
  cases l
  case dbuf o =>
    simp only [standsAt] at hat
    subst hat
    simpa [idleWrite] using memRead_memWriteWord_aligned hwf (o := o) (by omega) w a
  all_goals rw [if_neg (by simp only [standsAt] at hat; omega)]; rfl

end window

/-! ## Reads and writes made twice, and written-back values (rule R67) -/

@[simp] theorem hostRead_setScript (rest : List HostOp) (s : State) (l : Loc) :
    hostRead (setScript rest s) l = hostRead s l := rfl

@[simp] theorem hostRead_logRead (v : Word) (s : State) (l : Loc) :
    hostRead (logRead v s) l = hostRead s l := rfl

theorem hostWrite_setScript (rest : List HostOp) (s : State) (l : Loc) (w : Word) :
    hostWrite l w (setScript rest s) = setScript rest (hostWrite l w s) := by
  unfold hostWrite
  split
  · rw [if_pos ‹_›]
  · rw [if_neg ‹_›]; cases l <;> rfl

theorem hostTurn_rd_next {s t : State} {addr : Nat} {rest : List HostOp}
    (hs : s.script = .rd addr :: rest) (h : hostTurn s = .next t) : addrOk s.params addr = true ∧
      t = setScript rest (logRead (hostRead s (locate (addr - s.params.base))) s) := by
  have hop : hostReadOp addr rest s = .next t := by simpa [hostTurn, hs] using h
  unfold hostReadOp at hop
  split at hop
  · cases hop
  · obtain ⟨ha, rfl⟩ := addrOk_of_resolve ‹_›
    cases hop
    exact ⟨ha, rfl⟩

theorem hostTurn_wr_next {s t : State} {addr : Nat} {w : Word} {rest : List HostOp}
    (hs : s.script = .wr addr w :: rest) (h : hostTurn s = .next t) : addrOk s.params addr = true ∧
      t = setScript rest (hostWrite (locate (addr - s.params.base)) w s) := by
  have hop : hostWriteOp addr w rest s = .next t := by simpa [hostTurn, hs] using h
  unfold hostWriteOp at hop
  split at hop
  · cases hop
  · obtain ⟨ha, rfl⟩ := addrOk_of_resolve ‹_›
    cases hop
    exact ⟨ha, rfl⟩

theorem putWord_putWord {n : Nat} (B : Vector Byte n) (o : Nat) (w : Word) :
    putWord (putWord B o w) o w = putWord B o w := by
  refine elt_ext fun k hk => ?_
  rw [elt_putWord (putWord B o w) o w k hk, elt_putWord B o w k hk]
  split <;> rfl

theorem memWriteWord_memWriteWord {m : Memory} (h : Memory.wf m = true) (a : Nat) (w : Word) :
    memWriteWord (memWriteWord m a w) a w = memWriteWord m a w := by
  have hheld := memWriteWord_memReadWord (memWriteWord_wf h a w) a
  rwa [memReadWord_memWriteWord h] at hheld

/-- A write not to CMD, made twice, does what it does once. -/
theorem hostWrite_hostWrite {l : Loc} (hl : l ≠ .cmd) (w : Word) {s : State} (hwf : Memory.wf s.dbuf = true) :
    hostWrite l w (hostWrite l w s) = hostWrite l w s := by
  cases hb : s.busy with
  | true => simp only [hostWrite_of_busy hb]
  | false =>
    have hb' : (idleWrite l w s).busy = false := by rw [idleWrite_eq hl]; exact hb
    rw [hostWrite_of_idle hb, hostWrite_of_idle hb']
    cases l
    case cmd => exact absurd rfl hl
    case key o => simp only [idleWrite, putWord_putWord]
    case nonce o => simp only [idleWrite, putWord_putWord]
    case dbuf a => simp only [idleWrite, setDbuf_dbuf, memWriteWord_memWriteWord hwf]; rfl
    all_goals rfl

/-- A register's low `n` bits hold the field they were read from. -/
theorem extractLsb'_setWidth_self {n : Nat} (v : BitVec n) (hn : n ≤ 32) :
    (v.setWidth 32).extractLsb' 0 n = v := by
  refine BitVec.eq_of_getLsbD_eq fun k hk => ?_
  simp [hk, show k < 32 by omega]

/-- Writing back, anywhere but at CMD, the value read there changes nothing. -/
theorem hostWrite_hostRead {l : Loc} (hl : l ≠ .cmd) {s : State} (hwf : Memory.wf s.dbuf = true) :
    hostWrite l (hostRead s l) s = s := by
  cases hb : s.busy with
  | true => exact hostWrite_of_busy hb _ _
  | false =>
    rw [hostWrite_of_idle hb, show hostRead s l = idleRead s l by simp [hostRead, hb]]
    cases l
    case cmd => exact absurd rfl hl
    case ctrl => simp [idleWrite, idleRead, ctrlWord]
    case klen => simp only [idleWrite, idleRead, extractLsb'_setWidth_self s.klen (by decide)]
    case nlen => simp only [idleWrite, idleRead, extractLsb'_setWidth_self s.nlen (by decide)]
    case key o => simp only [idleWrite, idleRead, putWord_le32]
    case nonce o => simp only [idleWrite, idleRead, putWord_le32]
    case dbuf a => simp only [idleWrite, idleRead, memWriteWord_memReadWord hwf]; rfl
    all_goals rfl

/-! ## The clauses of rule R67 -/

section clauses

variable {s : State} {addr : Nat} {w : Word} {rest : List HostOp}

/-- The write to an idle engine at any offset but that of CMD. -/
theorem hostWrite_idle_stores {off : Nat} (h4 : off % 4 = 0) (hb : s.busy = false) (hoff : off ≠ 0x004) :
    hostWrite (locate off) w s = { s with
      rabbitCanon := if off = 0x00C then w.getLsbD 0 else s.rabbitCanon
      klen := if off = 0x010 then BitVec.ofNat 9 (w.toNat % 512) else s.klen
      nlen := if off = 0x014 then BitVec.ofNat 5 (w.toNat % 32) else s.nlen
      ctrLo := if off = 0x018 then w else s.ctrLo
      ctrHi := if off = 0x01C then w else s.ctrHi
      doff := if off = 0x020 then w else s.doff
      dlen := if off = 0x024 then w else s.dlen
      key := (hostWrite (locate off) w s).key
      nonce := (hostWrite (locate off) w s).nonce
      dbuf := (hostWrite (locate off) w s).dbuf } := by
  have hcmd : locate off ≠ .cmd := fun h => hoff ((locate_eq_cmd h4).1 h)
  have hctrl : locate off = .ctrl ↔ off = 0x00C := locate_eq_iff h4
  have hklen : locate off = .klen ↔ off = 0x010 := locate_eq_iff h4
  have hnlen : locate off = .nlen ↔ off = 0x014 := locate_eq_iff h4
  have hctrLo : locate off = .ctrLo ↔ off = 0x018 := locate_eq_iff h4
  have hctrHi : locate off = .ctrHi ↔ off = 0x01C := locate_eq_iff h4
  have hdoff : locate off = .doff ↔ off = 0x020 := locate_eq_iff h4
  have hdlen : locate off = .dlen ↔ off = 0x024 := locate_eq_iff h4
  rw [hostWrite_of_idle hb]
  conv_lhs => rw [idleWrite_eq hcmd]
  simp only [hctrl, hklen, hnlen, hctrLo, hctrHi, hdoff, hdlen, extractLsb'_zero_eq_ofNat]
  rfl

/-- A read made twice gives one value twice. -/
theorem hostTurn_rd_twice {t u : State} (hs : s.script = .rd addr :: .rd addr :: rest)
    (ht : hostTurn s = .next t) (hu : hostTurn t = .next u) :
    ∃ v, u = { s with script := rest, reads := s.reads ++ [v, v] } := by
  obtain ⟨-, rfl⟩ := hostTurn_rd_next hs ht
  obtain ⟨-, hu⟩ := hostTurn_rd_next rfl hu
  refine ⟨hostRead s (locate (addr - s.params.base)), ?_⟩
  rw [hu, hostRead_setScript, hostRead_logRead]
  simp [setScript, logRead]

/-- A write not to CMD made twice leaves what it leaves once. -/
theorem hostTurn_wr_twice {t u : State} (haddr : addr ≠ s.params.base + 4) (hwf : Memory.wf s.dbuf = true)
    (hs : s.script = .wr addr w :: .wr addr w :: rest) (ht : hostTurn s = .next t)
    (hu : hostTurn t = .next u) : u = { t with script := rest } := by
  obtain ⟨ha, ht⟩ := hostTurn_wr_next hs ht
  have hcmd : locate (addr - s.params.base) ≠ .cmd := by
    obtain ⟨hbase, -, h4⟩ := addrOk_iff.1 ha
    rw [Ne, locate_eq_cmd h4]; omega
  have hparams : t.params = s.params := by simp [ht, hostWrite_keeps]
  have hagain : hostWrite (locate (addr - s.params.base)) w t = t := by
    rw [ht, hostWrite_setScript, hostWrite_hostWrite hcmd w hwf]
  obtain ⟨-, hu⟩ := hostTurn_wr_next (by rw [ht]; rfl) hu
  rw [hparams, hagain] at hu
  exact hu

end clauses

/-- Settles O13: each clause is the host's turn at a legal address, where the register map says which place the
offset reaches and the laws above what a read or write of that place does. -/
theorem hostAccessesHaveNoSideEffects : Obligations.HostAccessesHaveNoSideEffects := by
  refine ⟨fun s addr rest ha hs => ⟨_, hostTurn_rd hs ha⟩, ?_,
    fun s t u addr rest => hostTurn_rd_twice, fun s t u addr w rest => hostTurn_wr_twice, ?_⟩
  · rintro s addr off w rest ha rfl hs
    have h4 : (addr - s.params.base) % 4 = 0 := (addrOk_iff.1 ha).2.2
    refine ⟨_, hostTurn_wr hs ha, fun hb => ?_, fun hb hoff => ?_, fun hb hoff => ?_⟩
    · rw [hostWrite_of_busy hb]; rfl
    · rw [hoff, hostWrite_of_idle hb]; rfl
    · refine ⟨congrArg (setScript rest) (hostWrite_idle_stores h4 hb hoff), ?_⟩
      simp only [setScript_key, setScript_nonce, setScript_dbuf, hostWrite_of_idle hb]
      exact ⟨fun k => elt_key_idleWrite h4 w, fun k => elt_nonce_idleWrite h4 w, dbuf_idleWrite h4 w,
        memRead_dbuf_idleWrite h4 w⟩
  · rintro s addr off rest - hwf ha rfl hoff hs
    have h4 : (addr - s.params.base) % 4 = 0 := (addrOk_iff.1 ha).2.2
    have hcmd : locate (addr - s.params.base) ≠ .cmd := by
      rw [Ne, locate_eq_cmd h4]; omega
    rw [hostTurn_wr hs ha, hostWrite_hostRead hcmd hwf]
    rfl

end Sys2Proof.Machine
end

section
/-! PROOFS. Illegal command words (30_encoding.md rule R84): when the decoder rejects a word, and what a busy
engine makes of a rejected one. -/

namespace Sys2Proof.Machine

/-! ## The fields of a command word (rule R81) -/

theorem opField_toNat (w : Word) : (opField w).toNat = w.toNat % 256 := by
  simp [opField]

theorem mbzField_eq_zero_iff (w : Word) : mbzField w = 0 ↔ w.toNat / 256 = 0 := by
  have hval : (mbzField w).toNat = w.toNat / 256 := by
    have hfits : w.toNat / 256 < 2 ^ 24 := by omega
    rw [mbzField, BitVec.extractLsb'_toNat, Nat.shiftRight_eq_div_pow, Nat.mod_eq_of_lt hfits]
  rw [← BitVec.toNat_inj, hval]
  rfl

/-! ## The words the decoder rejects -/

/-- The opcode map has an arm for each defined OP and rejects every other. -/
theorem decodeOp_rejects_iff (op : Nat) : (∃ e, decodeOp op = .error e) ↔ op ∉ definedOps := by
  unfold decodeOp
  split
  case h_16 =>
    have hop : op ∉ definedOps := by
      simp only [definedOps, List.mem_cons, List.not_mem_nil, or_false, not_or]
      and_intros <;> assumption
    simp [hop]
  all_goals simp [definedOps]

theorem decode_rejects_iff (w : Word) :
    (∃ e, decode w = .error e) ↔ w.toNat / 256 ≠ 0 ∨ w.toNat % 256 ∉ definedOps := by
  rw [← decodeOp_rejects_iff, ← opField_toNat, ne_eq, ← mbzField_eq_zero_iff, decode]
  by_cases hmbz : mbzField w = 0
  · rw [if_pos hmbz, or_iff_right (not_not_intro hmbz)]
  · rw [if_neg hmbz]
    exact iff_of_true ⟨_, rfl⟩ (.inl hmbz)

/-- The reserved OP values are the gaps between the defined ones. -/
theorem not_mem_definedOps_iff {op : Nat} (hop : op < 256) : op ∉ definedOps ↔
    (0x02 ≤ op ∧ op ≤ 0x0F) ∨ (0x14 ≤ op ∧ op ≤ 0x1F) ∨ (0x22 ≤ op ∧ op ≤ 0x2F) ∨
    (0x32 ≤ op ∧ op ≤ 0x3F) ∨ (0x45 ≤ op ∧ op ≤ 0xFF) := by
  simp only [definedOps, List.mem_cons, List.not_mem_nil, or_false]
  omega

/-- Settles O4: the decoder rejects exactly the illegal words, and a busy engine finishes a rejected one with
ILLEGAL_COMMAND. -/
theorem illegalWordsCompleteWithCode3 : Obligations.IllegalWordsCompleteWithCode3 := by
  refine ⟨rfl, fun op => not_mem_definedOps_iff, decode_rejects_iff, fun s hb hw => ?_⟩
  obtain ⟨e, hdec⟩ := (decode_rejects_iff s.pending).2 hw
  rw [engineTurn_busy hb, perform_of_illegal hdec]
  rfl

end Sys2Proof.Machine
end

section
/-! PROOFS. The common commands (40_common.md): rotl32 bit by bit (rule R101), NOP (rule R108), and ZEROIZE with
what the streaming commands make of a zeroized engine (rule R109). -/

namespace Sys2Proof.Machine

/-! ## Rotation (rule R101) -/

@[simp] theorem rotl32_zero (x : Word) : rotl32 x 0 = x := by
  simp [rotl32, BitVec.ushiftRight_eq_zero]

theorem rotl32_eq_or_shifts (x : Word) {n : Nat} (hn : n < 32) :
    rotl32 x n = (x <<< n) ||| (x >>> (32 - n)) := by
  simp only [rotl32, Nat.mod_eq_of_lt hn]

theorem getLsbD_rotl32 (x : Word) {n k : Nat} (hn : n < 32) (hk : k < 32) :
    (rotl32 x n).getLsbD k = x.getLsbD ((k + 32 - n) % 32) := by
  rw [rotl32_eq_rotateLeft, BitVec.getLsbD_rotateLeft, Nat.mod_eq_of_lt hn, Bool.cond_decide]
  by_cases hwrap : k < n
  · rw [if_pos hwrap]
    congr 1; omega
  · rw [if_neg hwrap, decide_eq_true hk, Bool.true_and]
    congr 1; omega

/-- Settles O41: the rotation by 0, as the OR of two shifts, and bit by bit. -/
theorem rotateLeftMovesEachBit : Obligations.RotateLeftMovesEachBit :=
  fun x _ _ hn hk => ⟨rotl32_zero x, fun _ => rotl32_eq_or_shifts x hn, getLsbD_rotl32 x hn hk⟩

/-! ## NOP (rule R108) -/

/-- Settles O23: NOP has no requirement and its body changes nothing, so only its completion is left. -/
theorem nopOnlyClearsTheError : Obligations.NopOnlyClearsTheError :=
  ⟨rfl, fun _ => exec_of_runs rfl⟩

/-! ## ZEROIZE (rule R109) -/

theorem exec_zeroize (s : State) : exec .zeroize s = .next (finish .ok (zeroizeBody s)) := exec_of_runs rfl

/-- A command that misses only the state it continues from reports NOT_INITIALIZED (rule R264). -/
theorem exec_of_not_initialized {i : Instr} {s : State} (hkey : keyMeets i s = true)
    (hnonce : nonceMeets i s = true) (hrange : rangeMeets i s = true) (hinit : initMeets i s = false) :
    exec i s = .next (finish .notInitialized s) := by
  have hruns : runs i s = false := by simp [runs, hinit]
  have hcode : expectedCode i s = .notInitialized := by simp [expectedCode, hkey, hnonce, hrange, hinit]
  rw [exec_of_not_runs hruns, hcode]

/-- Settles O24: the state is ZEROIZE's body, finished; its arrays are all zeros and its two valid flags 0, which
is what the streaming commands miss. -/
theorem zeroizeClearsTheSecrets : Obligations.ZeroizeClearsTheSecrets := by
  refine ⟨rfl, fun s => ⟨_, exec_zeroize s, ?_⟩⟩
  have hzero : ∀ {w n : Nat} (k : Nat), elt (Vector.replicate n 0#w) k = 0 := elt_replicate_zero
  exact ⟨fun k _ => ⟨hzero k, hzero k⟩, fun k _ => hzero k, fun k _ => hzero k, fun k _ => ⟨hzero k, hzero k⟩,
    rfl, rfl, rfl, rfl, exec_of_not_initialized rfl rfl rfl rfl, exec_of_not_initialized rfl rfl rfl rfl,
    fun hrange => exec_of_not_initialized rfl rfl hrange rfl⟩

end Sys2Proof.Machine
end

section
/-! PROOFS. RC4 (41_rc4.md): RC4_KSA (rule R134). -/

namespace Sys2Proof.Machine

/-! ## A command whose key length is wrong -/

/-- A wrong key length is reported before any other breach (rule R264). -/
theorem exec_of_invalidKeyLength {i : Instr} {s : State} (hkey : keyMeets i s = false) :
    exec i s = .next (finish .invalidKeyLength s) := by
  have hruns : runs i s = false := by simp [runs, hkey]
  have hcode : expectedCode i s = .invalidKeyLength := by simp [expectedCode, hkey]
  rw [exec_of_not_runs hruns, hcode]

/-! ## RC4_KSA (rule R134) -/

/-- The key length is RC4_KSA's only requirement (rule R262). -/
theorem runs_rc4Ksa (s : State) : runs .rc4Ksa s = keyMeets .rc4Ksa s := by
  simp [runs, nonceMeets, rangeMeets, outLen, initMeets]

theorem keyMeets_rc4Ksa_iff (s : State) :
    keyMeets .rc4Ksa s = true ↔ 1 ≤ s.klen.toNat ∧ s.klen.toNat ≤ 256 := decide_eq_true_iff

/-- What RC4_KSA leaves where its requirement is met. -/
theorem finish_rc4KsaBody (s : State) : finish .ok (rc4KsaBody s) = { s with
    rc4 := { s := ksa s.key s.klen.toNat, i := 0, j := 0 }, rc4Valid := true
    err := .ok, busy := false } := by
  simp only [rc4KsaBody, scheduledRc4, setRc4, setRc4Valid, finish]

/-- Settles O30: with a key length in 1..256 the command runs its body, which sets S, I, J and RC4_VALID; with any
other it only reports the code of a wrong key length. -/
theorem rc4KsaSchedulesTheKey : Obligations.Rc4KsaSchedulesTheKey := by
  refine ⟨rfl, fun s => ⟨fun hlen => ?_, fun hlen => ?_⟩⟩
  · have hruns : runs .rc4Ksa s = true := (runs_rc4Ksa s).trans ((keyMeets_rc4Ksa_iff s).2 hlen)
    rw [exec_of_runs hruns, commandBody, finish_rc4KsaBody]
  · have hkey : keyMeets .rc4Ksa s = false := Bool.eq_false_iff.2 (mt (keyMeets_rc4Ksa_iff s).1 hlen)
    exact exec_of_invalidKeyLength hkey

end Sys2Proof.Machine
end

section
/-! PROOFS. ChaCha20 and Salsa20 (42_chacha20.md, 43_salsa20.md): CHACHA_BLOCK and SALSA_BLOCK (rules R169,
R200). -/

namespace Sys2Proof.Machine

/-! ## Commands with length requirements only -/

/-- A wrong nonce length is reported once the key length is right (rule R264). -/
theorem exec_of_invalidNonceLength {i : Instr} {s : State} (hkey : keyMeets i s = true)
    (hnonce : nonceMeets i s = false) : exec i s = .next (finish .invalidNonceLength s) := by
  have hruns : runs i s = false := by simp [runs, hnonce]
  have hcode : expectedCode i s = .invalidNonceLength := by simp [expectedCode, hkey, hnonce]
  rw [exec_of_not_runs hruns, hcode]

/-- A command that touches no data and continues from no state needs the right lengths only (rule R262). -/
theorem runs_of_lengths {i : Instr} {s : State} (hout : outLen i s = none) (hinit : initMeets i s = true)
    (hkey : keyMeets i s = true) (hnonce : nonceMeets i s = true) : runs i s = true := by
  simp [runs, rangeMeets, hout, hinit, hkey, hnonce]

/-! ## CHACHA_BLOCK (rule R169) -/

/-- What CHACHA_BLOCK leaves where its requirements are met. -/
theorem exec_chachaBlock_of_lengths {s : State} (hkey : keyMeets .chachaBlock s = true)
    (hnonce : nonceMeets .chachaBlock s = true) : exec .chachaBlock s = .next { s with
      ks := chachaBlockFn s.key s.nonce s.ctrLo, err := .ok, busy := false } := by
  rw [exec_of_runs (runs_of_lengths rfl rfl hkey hnonce), commandBody]
  simp only [chachaBlockBody, setKs, finish]

/-! ## SALSA_BLOCK (rule R200) -/

theorem counter64_eq_ofNat (s : State) : counter64 s = BitVec.ofNat 64 (salsaCounter s) := by
  rw [← counter64_toNat, BitVec.ofNat_toNat, BitVec.setWidth_eq]

/-- What SALSA_BLOCK leaves where its requirements are met, the counter as a number. -/
theorem exec_salsaBlock_of_lengths {s : State} (hkey : keyMeets .salsaBlock s = true)
    (hnonce : nonceMeets .salsaBlock s = true) : exec .salsaBlock s = .next { s with
      ks := salsaBlockFn s.key s.nonce (BitVec.ofNat 64 (salsaCounter s)), err := .ok, busy := false } := by
  rw [exec_of_runs (runs_of_lengths rfl rfl hkey hnonce), commandBody]
  simp only [salsaBlockBody, setKs, finish, counter64_eq_ofNat]

/-- Settles O42: for each command the right lengths, a wrong key length, and a wrong nonce length beside the right
key length. -/
theorem blockCommandsWriteTheKeystreamBlock : Obligations.BlockCommandsWriteTheKeystreamBlock := by
  refine ⟨rfl, rfl, fun s => ⟨fun hk hn => ?_, fun hk => ?_, fun hk hn => ?_⟩,
    fun s => ⟨fun hk hn => ?_, fun hk => ?_, fun hk hn => ?_⟩⟩
  · exact exec_chachaBlock_of_lengths (decide_eq_true hk) (decide_eq_true hn)
  · exact exec_of_invalidKeyLength (decide_eq_false hk)
  · exact exec_of_invalidNonceLength (decide_eq_true hk) (decide_eq_false hn)
  · exact exec_salsaBlock_of_lengths (decide_eq_true hk) (decide_eq_true hn)
  · exact exec_of_invalidKeyLength (decide_eq_false hk)
  · exact exec_of_invalidNonceLength (decide_eq_true hk) (decide_eq_false hn)

end Sys2Proof.Machine
end

section
/-! PROOFS. Rabbit (44_rabbit.md): the ORIGINAL counter system (rule R222), the g-function (rule R224), and
RABBIT_NEXT and RABBIT_EXTRACT (rules R236, R237). -/

namespace Sys2Proof.Machine

/-! ## The g-function (rules R105, R224) -/

/-- The square of a word fits in 64 bits, so it is exact. -/
theorem sq64_toNat (u : Word) : (sq64 u).toNat = u.toNat ^ 2 := by
  have hu : u.toNat ≤ 2 ^ 32 - 1 := Nat.le_pred_of_lt u.isLt
  have hsq : u.toNat * u.toNat < 2 ^ 64 := (Nat.mul_le_mul hu hu).trans_lt (by decide)
  rw [sq64, BitVec.toNat_mul, BitVec.toNat_setWidth_of_le (by decide), Nat.mod_eq_of_lt hsq, Nat.pow_two]

theorem hi32_toNat (v : DWord) : (hi32 v).toNat = v.toNat / 2 ^ 32 := by
  rw [hi32, BitVec.extractLsb'_toNat, Nat.shiftRight_eq_div_pow, Nat.mod_eq_of_lt (by omega)]

theorem lo32_toNat (v : DWord) : (lo32 v).toNat = v.toNat % 2 ^ 32 := by
  rw [lo32, BitVec.extractLsb'_toNat, Nat.shiftRight_zero]

theorem add32_toNat (a b : Word) : (add32 a b).toNat = (a.toNat + b.toNat) % 2 ^ 32 := BitVec.toNat_add a b

/-- The g-function in naturals. -/
theorem gFn_toNat (x c : Word) : (gFn x c).toNat =
    (((x.toNat + c.toNat) % 2 ^ 32) ^ 2 / 2 ^ 32) ^^^ (((x.toNat + c.toNat) % 2 ^ 32) ^ 2 % 2 ^ 32) := by
  simp only [gFn, BitVec.toNat_xor, hi32_toNat, lo32_toNat, sq64_toNat, add32_toNat]

/-- Settles O50: the value in naturals, and the five corner cases computed. -/
theorem gFunctionSquaresTheSum : Obligations.GFunctionSquaresTheSum :=
  ⟨gFn_toNat, by decide⟩

/-! ## The ORIGINAL counter system (rules R222, R226) -/

/-- A lane of the ORIGINAL counter system in naturals: only lane 0 adds 1, and no carry goes on. -/
theorem elt_counterOrig_toNat (r : Rabbit) {k : Nat} (hk : k < 8) : (elt (counterOrig r).c k).toNat =
    ((elt r.c k).toNat + (elt rabbitA k).toNat + (if k = 0 then 1 else 0)) % 2 ^ 32 := by
  rw [elt_counterOrig r k hk, BitVec.toNat_add, BitVec.toNat_add, Nat.mod_add_mod]
  split <;> rfl

/-- The new counters do not depend on CARRY. -/
theorem counterOrig_c_of_carry (r : Rabbit) (b : Bool) :
    (counterOrig { r with carry := b }).c = (counterOrig r).c := rfl

/-- In ORIGINAL mode the next state mixes the g-values over the ORIGINAL counter system's counters. -/
theorem nextState_original (r : Rabbit) :
    nextState false r = { counterOrig r with x := mix (gValues (counterOrig r)) } := rfl

/-- Settles O48: the frame, the independence of CARRY, each lane in naturals, and the use in ORIGINAL mode. -/
theorem originalCounterAddsLaneByLane : Obligations.OriginalCounterAddsLaneByLane :=
  fun r b => ⟨counterOrig_x r, counterOrig_carry r, counterOrig_c_of_carry r b,
    fun _ hk => elt_counterOrig_toNat r hk, nextState_original r⟩

/-! ## RABBIT_NEXT and RABBIT_EXTRACT (rules R236, R237) -/

/-- What RABBIT_NEXT leaves where there is a Rabbit state. -/
theorem exec_rabbitNext_of_valid {s : State} (hvalid : s.rabbitValid = true) :
    exec .rabbitNext s = .next { s with
      rabbit := nextState s.rabbitCanon s.rabbit, err := .ok, busy := false } := by
  have hruns : runs .rabbitNext s = true := runs_of_lengths rfl hvalid rfl rfl
  rw [exec_of_runs hruns, commandBody]
  simp only [rabbitNextBody, setRabbit, finish]

/-- What RABBIT_EXTRACT leaves where there is a Rabbit state. -/
theorem exec_rabbitExtract_of_valid {s : State} (hvalid : s.rabbitValid = true) :
    exec .rabbitExtract s = .next { s with
      ks := putBlock16 s.ks (extract s.rabbit.x), err := .ok, busy := false } := by
  have hruns : runs .rabbitExtract s = true := runs_of_lengths rfl hvalid rfl rfl
  rw [exec_of_runs hruns, commandBody]
  simp only [rabbitExtractBody, setKs, finish]

theorem elt_putBlock16_inside (ks : Vector Byte 64) (b : Vector Byte 16) {k : Nat} (hk : k < 16) :
    elt (putBlock16 ks b) k = elt b k := by
  rw [elt_putBlock16 ks b k (by omega), if_pos hk]

/-- Bytes 16..63 of KS are kept; past 63 both sides read 0. -/
theorem elt_putBlock16_past (ks : Vector Byte 64) (b : Vector Byte 16) {k : Nat} (hk : 16 ≤ k) :
    elt (putBlock16 ks b) k = elt ks k := by
  by_cases hin : k < 64
  · rw [elt_putBlock16 ks b k hin, if_neg (Nat.not_lt.2 hk)]
  · rw [elt_outside _ k (Nat.not_lt.1 hin), elt_outside ks k (Nat.not_lt.1 hin)]

/-- Settles O53: with a valid Rabbit state each command runs its body, of which RABBIT_EXTRACT's writes the block
over the first 16 bytes of KS; with none each misses only the state it continues from. -/
theorem rabbitNextAndExtractResults : Obligations.RabbitNextAndExtractResults := by
  refine ⟨rfl, rfl, fun s => ⟨exec_rabbitNext_of_valid, fun hvalid => ?_, fun hinvalid => ?_⟩⟩
  · exact ⟨_, exec_rabbitExtract_of_valid hvalid, rfl, fun _ => elt_putBlock16_inside s.ks _,
      fun _ => elt_putBlock16_past s.ks _⟩
  · exact ⟨exec_of_not_initialized rfl rfl rfl hinvalid, exec_of_not_initialized rfl rfl rfl hinvalid⟩

end Sys2Proof.Machine
end

section
/-! PROOFS. Exceptions (60_exceptions.md): the code a performed word reports (rules R262, R264) and what an error
leaves unchanged (rule R263). -/

namespace Sys2Proof.Machine

/-! ## The code a command reports (rules R262, R264) -/

/-- Every command completes, and its code is the one the priority rule names. -/
theorem exec_reports_expectedCode (i : Instr) (s : State) :
    ∃ t, exec i s = .next t ∧ t.err = expectedCode i s := by
  cases hruns : runs i s with
  | true => exact ⟨_, exec_of_runs hruns, ((runs_iff_code i s).1 hruns).symm⟩
  | false => exact ⟨_, exec_of_not_runs hruns, rfl⟩

/-- Settles O20: a rejected word only reports ILLEGAL_COMMAND; a decoded one is executed and reports its command's
code. -/
theorem errorCodesFollowThePriority : Obligations.ErrorCodesFollowThePriority := by
  intro s
  cases hdec : decode s.pending with
  | error e => exact ⟨_, perform_of_illegal hdec, rfl⟩
  | ok i =>
    rw [perform_of_decode hdec]
    exact exec_reports_expectedCode i s

/-! ## What an error leaves unchanged (rule R263) -/

/-- A command that reports an error did not run its body. -/
theorem exec_error_eq {i : Instr} {s t : State} (h : exec i s = .next t) (herr : t.err ≠ .ok) :
    t = finish t.err s := by
  obtain ⟨-, rfl⟩ | ⟨-, -, rfl⟩ := exec_cases h
  · exact absurd rfl herr
  · rfl

/-- Settles O21: a rejected word only ends, and so does a command that reports an error. -/
theorem errorsChangeOnlyErrAndBusy : Obligations.ErrorsChangeOnlyErrAndBusy := by
  intro s t h herr
  cases hdec : decode s.pending with
  | error e =>
    rw [perform_of_illegal hdec] at h
    cases h
    rfl
  | ok i =>
    rw [perform_of_decode hdec] at h
    exact exec_error_eq h herr

end Sys2Proof.Machine
end

section
/-! PROOFS. Reset (70_reset_and_hazards.md): the state a reset leaves (rules R281, R282). -/

namespace Sys2Proof.Machine

/-! ## The host's view of a reset engine (rule R281) -/

theorem statusWord_platformReset (s : State) : statusWord (platformReset s) = 0 := by
  simp [statusWord, State.resetWith, errCode]

/-- A reset engine is idle, so it does not hide its ID (rule R73). -/
theorem hostRead_id_platformReset (s : State) : hostRead (platformReset s) .id = 0x53434531 := by
  simp [hostRead, State.resetWith, idleRead, idWord]

/-! ## A reset turn (rules R281, R282) -/

/-- Settles O16: on a reset turn the step is the platform's reset, whatever the state. It leaves every register and
flag at its reset value, every array at zeros, and DBUF with no byte listed. -/
theorem platformResetSetsTheTable : Obligations.PlatformResetSetsTheTable := by
  intro s rest hturn
  refine ⟨_, step_reset hturn, statusWord_platformReset _, rfl, rfl, rfl, rfl, rfl, rfl, rfl, rfl, rfl, rfl, rfl,
    rfl, rfl, rfl, rfl, ?key_s, ?nonce, ?ks, ?x_c, ?dbuf, rfl, hostRead_id_platformReset _⟩
  case key_s => exact fun k _ => ⟨elt_replicate_zero k, elt_replicate_zero k⟩
  case nonce => exact fun k _ => elt_replicate_zero k
  case ks => exact fun k _ => elt_replicate_zero k
  case x_c => exact fun k _ => ⟨elt_replicate_zero k, elt_replicate_zero k⟩
  case dbuf => exact memRead_nil

end Sys2Proof.Machine
end

section
/-! PROOFS. What the body of a command leaves (40_common.md, 10_state.md): its data in DBUF, OLEN, and the fields no
body writes. -/

namespace Sys2Proof.Machine

/-! ## The requirements of a command (rule R262) -/

theorem runs_iff (i : Instr) (s : State) : runs i s = true ↔
    keyMeets i s = true ∧ nonceMeets i s = true ∧ rangeMeets i s = true ∧ initMeets i s = true := by
  simp only [runs, Bool.and_eq_true, and_assoc]

/-- A command that runs has its output range inside DBUF (rule R74). -/
theorem outRange_of_runs {i : Instr} {s : State} {n : Nat} (hruns : runs i s = true)
    (hout : outLen i s = some n) : s.doff.toNat + n ≤ s.params.dbufBytes := by
  obtain ⟨-, -, hrange, -⟩ := (runs_iff i s).1 hruns
  simpa [rangeMeets, hout] using hrange

theorem paramsWf_iff (p : Params) : p.wf = true ↔
    p.base % 0x1000 = 0 ∧ p.dbufBytes % 4 = 0 ∧ 64 ≤ p.dbufBytes ∧ p.dbufBytes ≤ 1048576 := by
  simp only [Params.wf, Bool.and_eq_true, decide_eq_true_eq, beq_iff_eq, and_assoc]

/-! ## The fields no body writes (rules R24 to R30, R43) -/

theorem commandBody_keeps (i : Instr) (s : State) :
    (commandBody i s).rabbitCanon = s.rabbitCanon ∧ (commandBody i s).klen = s.klen ∧
    (commandBody i s).nlen = s.nlen ∧ (commandBody i s).ctrLo = s.ctrLo ∧
    (commandBody i s).ctrHi = s.ctrHi ∧ (commandBody i s).doff = s.doff ∧
    (commandBody i s).dlen = s.dlen ∧ (commandBody i s).pending = s.pending ∧
    (commandBody i s).params = s.params ∧ (commandBody i s).script = s.script ∧
    (commandBody i s).reads = s.reads ∧ (commandBody i s).turns = s.turns := by
  cases i <;> simp [commandBody, zeroizeBody, rc4KsaBody, rc4PrgaBody, rc4CryptBody, rc4wCryptBody,
    chachaBlockBody, chachaCryptBody, salsaBlockBody, salsaCryptBody, blockCryptBody, rabbitInitBody,
    rabbitInitIvBody, rabbitNextBody, rabbitExtractBody, rabbitCryptBody]

@[simp] theorem commandBody_params (i : Instr) (s : State) : (commandBody i s).params = s.params := by
  obtain ⟨-, -, -, -, -, -, -, -, hparams, -⟩ := commandBody_keeps i s
  exact hparams

/-- KEY and NONCE are written by ZEROIZE alone (rules R35, R36). -/
theorem commandBody_secrets {i : Instr} (hi : i ≠ .zeroize) (s : State) :
    (commandBody i s).key = s.key ∧ (commandBody i s).nonce = s.nonce := by
  cases i
  case zeroize => exact absurd rfl hi
  case rc4Ksa => simp [commandBody, rc4KsaBody]
  all_goals exact ⟨rfl, rfl⟩

/-! ## DBUF (rule R41) -/

theorem commandBody_dbuf_of_noData {i : Instr} {s : State} (hout : outLen i s = none) :
    (commandBody i s).dbuf = s.dbuf := by
  cases i
  case rc4Prga | rc4Crypt | rc4wCrypt | chachaCrypt | salsaCrypt | rabbitCrypt => cases hout
  case zeroize | rc4Ksa => simp [commandBody, zeroizeBody, rc4KsaBody]
  all_goals rfl

/-- Every body keeps the canonical form of DBUF. -/
theorem commandBody_wf (i : Instr) {s : State} (h : Memory.wf s.dbuf = true) :
    Memory.wf (commandBody i s).dbuf = true := by
  cases i
  case rc4Prga | rc4Crypt => exact prgaXor_wf _ _ _ h
  case rc4wCrypt => exact pairXor_wf _ _ _ _ _ _ h
  case chachaCrypt | salsaCrypt => exact blockCryptBody_wf _ h
  case rabbitCrypt => exact xorTiles_wf _ _ _ _ h
  all_goals rwa [commandBody_dbuf_of_noData rfl]

/-- The padded length is a whole number of 2-byte tiles, and at most one byte past the data (rule R138). -/
theorem two_mul_half_paddedLen (s : State) : 2 * (paddedLen s / 2) = paddedLen s := by
  simp only [paddedLen]; omega

theorem paddedLen_le (s : State) : paddedLen s ≤ dataLen s + 1 := by
  simp only [paddedLen]; omega

/-- A body whose output range lies below a bound lists nothing past it. -/
theorem commandBody_below {i : Instr} {s : State} {hi : Nat} (h : memBelow hi s.dbuf = true)
    (hrange : ∀ n, outLen i s = some n → s.doff.toNat + n ≤ hi) :
    memBelow hi (commandBody i s).dbuf = true := by
  cases i
  case rc4Prga | rc4Crypt => exact prgaXor_below _ _ _ h (hrange _ rfl)
  case rc4wCrypt =>
    have hpad : dataOff s + paddedLen s ≤ hi := hrange _ rfl
    exact pairXor_below _ _ _ _ _ _ h (by rwa [Nat.zero_add, two_mul_half_paddedLen])
  case chachaCrypt | salsaCrypt => exact blockCryptBody_below _ h (hrange _ rfl)
  case rabbitCrypt => exact xorTiles_below _ _ _ _ h (hrange _ rfl)
  all_goals rwa [commandBody_dbuf_of_noData rfl]

/-- The result by address: the data byte at an address of the range is the byte in DBUF, or the zero pad byte. -/
theorem dataResult_eq (s : State) (len : Nat) (k : Nat → Byte) (a : Nat) : dataResult s len k a =
    if s.doff.toNat ≤ a ∧ a < s.doff.toNat + len then
      (if a - s.doff.toNat < s.dlen.toNat then memRead s.dbuf a else 0) ^^^ k (a - s.doff.toNat)
    else memRead s.dbuf a := by
  unfold dataResult dataByte
  split
  · rename_i hin
    rw [Nat.add_sub_cancel' hin.1]
  · rfl

/-- Where the output is as long as the data there is no pad byte. -/
theorem dataResult_dlen (s : State) (k : Nat → Byte) (a : Nat) : dataResult s s.dlen.toNat k a =
    if s.doff.toNat ≤ a ∧ a < s.doff.toNat + s.dlen.toNat then
      memRead s.dbuf a ^^^ k (a - s.doff.toNat)
    else memRead s.dbuf a := by
  rw [dataResult_eq]
  split
  · rw [if_pos (by omega)]
  · rfl

/-- What a data command leaves in DBUF (rules R135, R136, R138, R171, R202, R240): in its output range the data XOR
its keystream, everywhere else the old byte. -/
theorem memRead_commandBody {i : Instr} {s : State} {n : Nat} (hwf : Memory.wf s.dbuf = true)
    (hout : outLen i s = some n) (a : Nat) :
    memRead (commandBody i s).dbuf a = dataResult s n (streamByte i s) a := by
  cases i <;> cases hout
  case rc4Prga | rc4Crypt =>
    rw [dataResult_dlen]
    exact memRead_prgaXor _ _ _ hwf a
  case rc4wCrypt =>
    have htiles : 2 * (0 + paddedLen s / 2) = paddedLen s := by rw [Nat.zero_add, two_mul_half_paddedLen]
    refine (memRead_pairXor _ _ _ _ _ _ hwf (htiles.trans_le (paddedLen_le s)) a).trans ?_
    rw [htiles, dataResult_eq]
    rfl
  case chachaCrypt =>
    rw [dataResult_dlen]
    simp only [streamByte, ← chachaTile_byte]
    exact memRead_blockCryptBody _ hwf a
  case salsaCrypt =>
    rw [dataResult_dlen]
    simp only [streamByte, ← salsaTile_byte]
    exact memRead_blockCryptBody _ hwf a
  case rabbitCrypt =>
    rw [dataResult_dlen]
    simp only [streamByte, ← rabbitTile_byte _ _ _ ((a - s.doff.toNat) / 16)]
    exact memRead_xorTiles _ _ _ (by decide) _ hwf a

/-! ## The state of the other ciphers (rules R37 to R40) -/

theorem commandBody_rc4_of_other {i : Instr} (hz : i ≠ .zeroize)
    (hi : i ∉ [.rc4Ksa, .rc4Prga, .rc4Crypt, .rc4wCrypt]) (s : State) :
    (commandBody i s).rc4 = s.rc4 ∧ (commandBody i s).rc4Valid = s.rc4Valid := by
  cases i
  case zeroize => exact absurd rfl hz
  case rc4Ksa | rc4Prga | rc4Crypt | rc4wCrypt => simp at hi
  all_goals exact ⟨rfl, rfl⟩

theorem commandBody_rabbit_of_other {i : Instr} (hz : i ≠ .zeroize)
    (hi : i ∉ [.rabbitInit, .rabbitInitIv, .rabbitNext, .rabbitCrypt]) (s : State) :
    (commandBody i s).rabbit = s.rabbit ∧ (commandBody i s).rabbitValid = s.rabbitValid := by
  cases i
  case zeroize => exact absurd rfl hz
  case rabbitInit | rabbitInitIv | rabbitNext | rabbitCrypt => simp at hi
  case rc4Ksa => simp [commandBody, rc4KsaBody]
  all_goals exact ⟨rfl, rfl⟩

theorem commandBody_ks_of_other {i : Instr} (hz : i ≠ .zeroize)
    (hi : i ∉ [.chachaBlock, .chachaCrypt, .salsaBlock, .salsaCrypt, .rabbitExtract, .rabbitCrypt]) (s : State) :
    (commandBody i s).ks = s.ks := by
  cases i
  case zeroize => exact absurd rfl hz
  case chachaBlock | chachaCrypt | salsaBlock | salsaCrypt | rabbitExtract | rabbitCrypt => simp at hi
  case rc4Ksa => simp [commandBody, rc4KsaBody]
  all_goals rfl

/-- RABBIT_CRYPT writes the first 16 bytes of KS at most (rule R37). -/
theorem elt_rabbitCryptBody_ks_past (s : State) {k : Nat} (hk : 16 ≤ k) :
    elt (rabbitCryptBody s).ks k = elt s.ks k := by
  simp only [rabbitCryptBody, setOlen_ks, setRabbitValid_ks, setKs_ks]
  split
  · rfl
  · exact elt_putBlock16_past _ _ hk

/-! ## The RC4 state (rules R135, R136, R138) -/

theorem commandBody_rc4Prga_rc4 (s : State) : (commandBody .rc4Prga s).rc4 = rc4After (dataLen s) s.rc4 :=
  prgaXor_state _ _ _ _

theorem commandBody_rc4Crypt_rc4 (s : State) :
    (commandBody .rc4Crypt s).rc4 = rc4After (dataLen s) (scheduledRc4 s) := prgaXor_state _ _ _ _

theorem commandBody_rc4wCrypt_rc4 (s : State) : (commandBody .rc4wCrypt s).rc4 =
    pairAfter s.params.rc4wPair (paddedLen s / 2) (scheduledRc4 s) := pairXor_state _ _ _ _ _ _ _

/-! ## OLEN (rule R31) -/

theorem ofNat_toNat (w : Word) : BitVec.ofNat 32 w.toNat = w := by
  rw [BitVec.ofNat_toNat, BitVec.setWidth_eq]

theorem commandBody_olen {i : Instr} {s : State} {n : Nat} (hout : outLen i s = some n) :
    (commandBody i s).olen = BitVec.ofNat 32 n := by
  cases i <;> cases hout
  case rc4wCrypt => rfl
  all_goals exact (ofNat_toNat s.dlen).symm

theorem commandBody_olen_of_noData {i : Instr} {s : State} (hi : i ≠ .zeroize) (hout : outLen i s = none) :
    (commandBody i s).olen = s.olen := by
  cases i
  case zeroize => exact absurd rfl hi
  case rc4Prga | rc4Crypt | rc4wCrypt | chachaCrypt | salsaCrypt | rabbitCrypt => cases hout
  case rc4Ksa => simp [commandBody, rc4KsaBody]
  all_goals rfl

end Sys2Proof.Machine
end

section
/-! PROOFS. The invariant (rules R8, R31, R38 to R41): the key schedule and the PRGA keep permutations, and every
step of every agent keeps the invariant. -/

namespace Sys2Proof.Machine

/-! ## Permutations (rules R38, R131, R132) -/

theorem ksaStep_isPerm (K : Vector Byte 256) (L : Nat) {st : Vector Byte 256 × Byte} (h : IsPerm st.1) (i : Nat) :
    IsPerm (ksaStep K L st i).1 := swapAt_isPerm h _ _

theorem foldl_ksaStep_isPerm (K : Vector Byte 256) (L : Nat) (l : List Nat) {st : Vector Byte 256 × Byte}
    (h : IsPerm st.1) : IsPerm (l.foldl (ksaStep K L) st).1 := by
  induction l generalizing st with
  | nil => exact h
  | cons i l ih => exact ih (ksaStep_isPerm K L h i)

theorem ksa_isPerm (K : Vector Byte 256) (L : Nat) : IsPerm (ksa K L) := by
  rw [ksa]; exact foldl_ksaStep_isPerm K L _ identityPerm_isPerm

theorem prga_isPerm {r : Rc4} (h : IsPerm r.s) : IsPerm (prga r).1.s := swapAt_isPerm h _ _

theorem rc4After_isPerm (n : Nat) {r : Rc4} (h : IsPerm r.s) : IsPerm (rc4After n r).s :=
  repeatN_keeps (P := fun q : Rc4 => IsPerm q.s) (fun _ => prga_isPerm) n h

/-- Two PRGA steps keep a permutation; of another pair function nothing is known (rule R137). -/
theorem pairAfter_isPerm {p : PairChoice} (hp : p = .twoPrgaSteps) (n : Nat) {r : Rc4} (h : IsPerm r.s) :
    IsPerm (pairAfter p n r).s := by
  subst hp
  exact repeatN_keeps (P := fun q : Rc4 => IsPerm q.s) (fun _ hq => prga_isPerm (prga_isPerm hq)) n h

/-- Settles O31: every step of either only swaps, and the KSA starts at the identity. -/
theorem keyScheduleIsAPermutation : Obligations.KeyScheduleIsAPermutation :=
  ⟨ksa_isPerm, fun _ => prga_isPerm⟩

/-! ## Updates the invariant does not see -/

/-- The invariant speaks of seven fields only. -/
theorem inv_congr {s t : State} (h : Inv s) (hparams : t.params = s.params) (hdbuf : t.dbuf = s.dbuf)
    (holen : t.olen = s.olen) (hrc4 : t.rc4 = s.rc4) (hrc4Valid : t.rc4Valid = s.rc4Valid)
    (hrabbit : t.rabbit = s.rabbit) (hrabbitValid : t.rabbitValid = s.rabbitValid) : Inv t where
  params := by rw [hparams]; exact h.params
  canonical := by rw [hdbuf]; exact h.canonical
  inside := by rw [hparams, hdbuf]; exact h.inside
  olen := by rw [hparams, holen]; exact h.olen
  perm := by rw [hparams, hrc4, hrc4Valid]; exact h.perm
  rc4Zero := by rw [hrc4, hrc4Valid]; exact h.rc4Zero
  rabbitZero := by rw [hrabbit, hrabbitValid]; exact h.rabbitZero

theorem inv_finish {s : State} (h : Inv s) (e : ErrCode) : Inv (finish e s) := inv_congr h rfl rfl rfl rfl rfl rfl rfl

theorem inv_setTurns {s : State} (h : Inv s) (l : List Turn) : Inv (setTurns l s) :=
  inv_congr h rfl rfl rfl rfl rfl rfl rfl

theorem inv_setScript {s : State} (h : Inv s) (l : List HostOp) : Inv (setScript l s) :=
  inv_congr h rfl rfl rfl rfl rfl rfl rfl

theorem inv_logRead {s : State} (h : Inv s) (w : Word) : Inv (logRead w s) := inv_congr h rfl rfl rfl rfl rfl rfl rfl

/-! ## Reset -/

theorem inv_resetWith {p : Params} (hp : p.wf = true) : Inv (State.resetWith p) where
  params := hp
  canonical := rfl
  inside := rfl
  olen := Nat.zero_le _
  perm := fun _ hvalid => nomatch hvalid
  rc4Zero := fun _ => rfl
  rabbitZero := fun _ => rfl

theorem inv_platformReset {s : State} (h : Inv s) : Inv (platformReset s) :=
  inv_congr (inv_resetWith h.params) rfl rfl rfl rfl rfl rfl rfl

/-- Settles O59: the default parameters are legal, and reset leaves DBUF empty and no state valid. -/
theorem resetMeetsTheInvariant : Obligations.ResetMeetsTheInvariant := inv_resetWith (by decide)

/-! ## The engine -/

/-- OLEN is the length of an output range that lies inside DBUF, or what it was, or 0. -/
theorem commandBody_olen_le {i : Instr} {s : State} (h : Inv s) (hruns : runs i s = true) :
    (commandBody i s).olen.toNat ≤ s.params.dbufBytes := by
  cases hout : outLen i s with
  | some n =>
    have hrange := outRange_of_runs hruns hout
    have hmod : n % 2 ^ 32 ≤ n := Nat.mod_le _ _
    rw [commandBody_olen hout, BitVec.toNat_ofNat]
    omega
  | none =>
    by_cases hz : i = .zeroize
    · subst hz; exact Nat.zero_le _
    · rw [commandBody_olen_of_noData hz hout]; exact h.olen

/-- A valid RC4 state comes from the key schedule or continues from a valid one. -/
theorem commandBody_isPerm {i : Instr} {s : State} (h : Inv s) (hpair : s.params.rc4wPair = .twoPrgaSteps)
    (hvalid : (commandBody i s).rc4Valid = true) : IsPerm (commandBody i s).rc4.s := by
  cases i
  case zeroize => cases hvalid
  case rc4Ksa => exact ksa_isPerm _ _
  case rc4Prga => rw [commandBody_rc4Prga_rc4]; exact rc4After_isPerm _ (h.perm hpair hvalid)
  case rc4Crypt => rw [commandBody_rc4Crypt_rc4]; exact rc4After_isPerm _ (ksa_isPerm _ _)
  case rc4wCrypt => rw [commandBody_rc4wCrypt_rc4]; exact pairAfter_isPerm hpair _ (ksa_isPerm _ _)
  all_goals exact h.perm hpair hvalid

/-- RC4_PRGA runs only from a valid state; the other RC4 commands leave one. -/
theorem commandBody_rc4Zero {i : Instr} {s : State} (h : Inv s) (hinit : initMeets i s = true)
    (hvalid : (commandBody i s).rc4Valid = false) : (commandBody i s).rc4 = zeroRc4 := by
  cases i
  case zeroize => rfl
  case rc4Ksa | rc4Crypt | rc4wCrypt => cases hvalid
  case rc4Prga => cases (show s.rc4Valid = true from hinit).symm.trans hvalid
  all_goals exact h.rc4Zero hvalid

/-- RABBIT_NEXT runs only from a valid state; the setup commands leave one. -/
theorem commandBody_rabbitZero {i : Instr} {s : State} (h : Inv s) (hinit : initMeets i s = true)
    (hvalid : (commandBody i s).rabbitValid = false) : (commandBody i s).rabbit = zeroRabbit := by
  cases i
  case zeroize => rfl
  case rabbitInit | rabbitInitIv | rabbitCrypt => cases hvalid
  case rabbitNext => cases (show s.rabbitValid = true from hinit).symm.trans hvalid
  case rc4Ksa =>
    obtain ⟨hrabbit, hrabbitValid⟩ := commandBody_rabbit_of_other (i := .rc4Ksa) (by decide) (by decide) s
    rw [hrabbit]
    exact h.rabbitZero (hrabbitValid.symm.trans hvalid)
  all_goals exact h.rabbitZero hvalid

theorem inv_commandBody {i : Instr} {s : State} (h : Inv s) (hruns : runs i s = true) : Inv (commandBody i s) := by
  obtain ⟨-, -, -, hinit⟩ := (runs_iff i s).1 hruns
  refine { canonical := commandBody_wf i h.canonical, rc4Zero := commandBody_rc4Zero h hinit,
           rabbitZero := commandBody_rabbitZero h hinit, params := ?params, inside := ?inside, olen := ?olen,
           perm := ?perm } <;> rw [commandBody_params]
  case params => exact h.params
  case inside => exact commandBody_below h.inside fun n hout => outRange_of_runs hruns hout
  case olen => exact commandBody_olen_le h hruns
  case perm => exact commandBody_isPerm h

theorem inv_exec {i : Instr} {s t : State} (h : Inv s) (hexec : exec i s = .next t) : Inv t := by
  obtain ⟨hruns, rfl⟩ | ⟨-, -, rfl⟩ := exec_cases hexec
  · exact inv_finish (inv_commandBody h hruns) _
  · exact inv_finish h _

theorem inv_perform {s t : State} (h : Inv s) (hperform : perform s = .next t) : Inv t := by
  cases hdec : decode s.pending with
  | ok i =>
    rw [perform_of_decode hdec] at hperform
    exact inv_exec h hperform
  | error e =>
    rw [perform_of_illegal hdec] at hperform
    cases hperform
    exact inv_finish h _

theorem inv_engineTurn {s t : State} (h : Inv s) (hturn : engineTurn s = .next t) : Inv t := by
  cases hb : s.busy with
  | true =>
    rw [engineTurn_busy hb] at hturn
    exact inv_perform h hturn
  | false =>
    rw [engineTurn_idle hb] at hturn
    cases hturn
    exact h

/-! ## The host -/

/-- A host write at a legal address keeps the invariant: one to DBUF lies inside it. -/
theorem inv_hostWrite {s : State} {addr : Nat} (h : Inv s) (ha : addrOk s.params addr = true) (w : Word) :
    Inv (hostWrite (locate (addr - s.params.base)) w s) := by
  obtain ⟨-, hspan, h4⟩ := addrOk_iff.1 ha
  obtain ⟨-, hsize, -⟩ := (paramsWf_iff s.params).1 h.params
  obtain ⟨-, hrc4Valid, hrabbitValid, holen, -, hrc4, hrabbit, hparams, -⟩ :=
    hostWrite_keeps (locate (addr - s.params.base)) w s
  obtain hdbuf | ⟨a, hloc, -, hdbuf⟩ := hostWrite_dbuf (locate (addr - s.params.base)) w s
  · exact inv_congr h hparams hdbuf holen hrc4 hrc4Valid hrabbit hrabbitValid
  · have hin : a + 3 < s.params.dbufBytes := locate_dbuf_bound hsize h4 hspan hloc
    have hstored : Inv (setDbuf (memWriteWord s.dbuf a w) s) :=
      { h with canonical := memWriteWord_wf h.canonical a w, inside := memBelow_memWriteWord h.inside hin w }
    exact inv_congr hstored hparams hdbuf holen hrc4 hrc4Valid hrabbit hrabbitValid

theorem inv_hostTurn {s t : State} (h : Inv s) (hturn : hostTurn s = .next t) : Inv t := by
  obtain ⟨-, ht⟩ | ⟨addr, rest, -, -, ht⟩ | ⟨addr, w, rest, -, ha, ht⟩ | ⟨rest, -, ht⟩ | ⟨_, _, _, -, -, ht⟩ :=
    hostTurn_cases hturn <;> cases ht
  · exact h
  · exact inv_setScript (inv_logRead h _) _
  · exact inv_setScript (inv_hostWrite h ha w) _
  · exact inv_setScript (inv_logRead h _) _

/-- Settles O58: a step is a turn of the host, the engine or the platform's reset, and each keeps the invariant. -/
theorem stepKeepsTheInvariant : Obligations.StepKeepsTheInvariant := by
  intro s t h hstep
  obtain ⟨rest, -, hs⟩ | ⟨rest, -, hs⟩ | ⟨rest, -, hs⟩ | ⟨-, -, hs⟩ | ⟨-, -, hs⟩ := step_cases s <;>
    rw [hs] at hstep
  · exact inv_hostTurn (inv_setTurns h rest) hstep
  · exact inv_engineTurn (inv_setTurns h rest) hstep
  · cases hstep
    exact inv_platformReset (inv_setTurns h rest)
  · exact inv_perform h hstep
  · exact inv_hostTurn h hstep

end Sys2Proof.Machine
end

section
/-! PROOFS. Completion and frames (40_common.md section 3, 10_state.md): every command completes, and what it leaves
unchanged. -/

namespace Sys2Proof.Machine

/-! ## Completion (rules R107, R262) -/

theorem exec_idle {i : Instr} {s t : State} (h : exec i s = .next t) : t.busy = false := by
  obtain ⟨-, rfl⟩ | ⟨-, -, rfl⟩ := exec_cases h <;> rfl

/-- Settles O22: the code is OK exactly where every requirement is met. -/
theorem everyCommandCompletes : Obligations.EveryCommandCompletes := by
  intro i s
  obtain ⟨t, hexec, herr⟩ := exec_reports_expectedCode i s
  exact ⟨t, hexec, exec_idle hexec, by rw [herr, runs_iff_code]⟩

/-! ## The host-written registers (rules R24 to R30, R35, R36) -/

/-- Settles O26: a failing command writes ERR and BUSY only, and no body writes these fields. -/
theorem commandsKeepTheHostsRegisters : Obligations.CommandsKeepTheHostsRegisters := by
  intro i s t hexec
  obtain ⟨-, rfl⟩ | ⟨-, -, rfl⟩ := exec_cases hexec
  · obtain ⟨hcanon, hklen, hnlen, hctrLo, hctrHi, hdoff, hdlen, hpending, hparams, hscript, hreads, hturns⟩ :=
      commandBody_keeps i s
    exact ⟨hcanon, hklen, hnlen, hctrLo, hctrHi, hdoff, hdlen, hpending, hparams, hscript, hreads, hturns,
      fun hz => commandBody_secrets hz s⟩
  · exact ⟨rfl, rfl, rfl, rfl, rfl, rfl, rfl, rfl, rfl, rfl, rfl, rfl, fun _ => ⟨rfl, rfl⟩⟩

/-! ## The other ciphers (rules R37 to R40) -/

/-- The frame of the ciphers' state over a body. -/
theorem commandBody_keeps_other_ciphers {i : Instr} (hz : i ≠ .zeroize) (s : State) :
    (i ∉ [.rc4Ksa, .rc4Prga, .rc4Crypt, .rc4wCrypt] →
      (commandBody i s).rc4 = s.rc4 ∧ (commandBody i s).rc4Valid = s.rc4Valid) ∧
    (i ∉ [.rabbitInit, .rabbitInitIv, .rabbitNext, .rabbitExtract, .rabbitCrypt] →
      (commandBody i s).rabbit = s.rabbit ∧ (commandBody i s).rabbitValid = s.rabbitValid) ∧
    (i = .rabbitExtract →
      (commandBody i s).rabbit = s.rabbit ∧ (commandBody i s).rabbitValid = s.rabbitValid) ∧
    (i = .rc4Prga ∨ i = .rabbitNext →
      (commandBody i s).rc4Valid = s.rc4Valid ∧ (commandBody i s).rabbitValid = s.rabbitValid) ∧
    (i ∉ [.chachaBlock, .chachaCrypt, .salsaBlock, .salsaCrypt, .rabbitExtract, .rabbitCrypt] →
      (commandBody i s).ks = s.ks) ∧
    (i = .rabbitExtract ∨ i = .rabbitCrypt → ∀ k, 16 ≤ k → elt (commandBody i s).ks k = elt s.ks k) := by
  refine ⟨fun hi => commandBody_rc4_of_other hz hi s,
    fun hi => commandBody_rabbit_of_other hz (mt (by simp only [List.mem_cons]; tauto) hi) s, ?_, ?_,
    fun hi => commandBody_ks_of_other hz hi s, ?_⟩
  · rintro rfl; exact commandBody_rabbit_of_other hz (by decide) s
  · rintro (rfl | rfl) <;> exact ⟨rfl, rfl⟩
  · rintro (rfl | rfl) k hk
    · exact elt_putBlock16_past _ _ hk
    · exact elt_rabbitCryptBody_ks_past s hk

/-- Settles O27: a failing command writes ERR and BUSY only; the rest is the frame of the body. -/
theorem commandsKeepTheOtherCiphers : Obligations.CommandsKeepTheOtherCiphers := by
  intro i s t hexec hz
  obtain ⟨-, rfl⟩ | ⟨-, -, rfl⟩ := exec_cases hexec
  · exact commandBody_keeps_other_ciphers hz s
  · have hkept : ∀ {p : Prop} {α β : Type} {a : α} {b : β}, p → a = a ∧ b = b := fun _ => ⟨rfl, rfl⟩
    exact ⟨hkept, hkept, hkept, hkept, fun _ => rfl, fun _ _ _ => rfl⟩

/-! ## DBUF (rule R41) -/

theorem dataResult_outside {s : State} {len a : Nat} (k : Nat → Byte)
    (ha : ¬ (s.doff.toNat ≤ a ∧ a < s.doff.toNat + len)) : dataResult s len k a = memRead s.dbuf a :=
  if_neg ha

/-- Settles O28: outside its output range a data command leaves the old byte, and the other bodies leave DBUF. -/
theorem commandsWriteDbufOnlyInRange : Obligations.CommandsWriteDbufOnlyInRange := by
  intro i s t a hwf hexec
  obtain ⟨-, rfl⟩ | ⟨-, -, rfl⟩ := exec_cases hexec
  · refine ⟨fun n hout ha => ?_, commandBody_dbuf_of_noData⟩
    exact (memRead_commandBody hwf hout a).trans (dataResult_outside _ ha)
  · exact ⟨fun _ _ _ => rfl, fun _ => rfl⟩

/-! ## OLEN (rule R31) -/

/-- With legal parameters an output range that lies in DBUF has a length OLEN can hold. -/
theorem commandBody_olen_toNat {i : Instr} {s : State} {n : Nat} (hwf : s.params.wf = true)
    (hruns : runs i s = true) (hout : outLen i s = some n) : (commandBody i s).olen.toNat = n := by
  obtain ⟨-, -, -, hsize⟩ := (paramsWf_iff s.params).1 hwf
  have hrange := outRange_of_runs hruns hout
  rw [commandBody_olen hout, BitVec.toNat_ofNat, Nat.mod_eq_of_lt (by omega)]

/-- What each command that succeeds leaves in OLEN. -/
theorem commandBody_olen_cases {i : Instr} {s : State} (hwf : s.params.wf = true) (hruns : runs i s = true) :
    (i ∈ [.rc4Prga, .rc4Crypt, .chachaCrypt, .salsaCrypt, .rabbitCrypt] → (commandBody i s).olen = s.dlen) ∧
    (i = .rc4wCrypt → (commandBody i s).olen.toNat = s.dlen.toNat + s.dlen.toNat % 2) ∧
    (i = .zeroize → (commandBody i s).olen = 0) ∧
    (i ∉ [.rc4Prga, .rc4Crypt, .chachaCrypt, .salsaCrypt, .rabbitCrypt, .rc4wCrypt, .zeroize] →
      (commandBody i s).olen = s.olen) := by
  refine ⟨fun hi => ?_, ?_, ?_, fun hi => ?_⟩
  · have hout : outLen i s = some s.dlen.toNat := by
      simp only [List.mem_cons, List.not_mem_nil, or_false] at hi
      rcases hi with rfl | rfl | rfl | rfl | rfl <;> rfl
    rw [commandBody_olen hout, ofNat_toNat]
  · rintro rfl; exact commandBody_olen_toNat hwf hruns rfl
  · rintro rfl; rfl
  · simp only [List.mem_cons, List.not_mem_nil, or_false, not_or] at hi
    obtain ⟨hprga, hcrypt, hchacha, hsalsa, hrabbit, hpair, hz⟩ := hi
    refine commandBody_olen_of_noData hz ?_
    cases i
    case rc4Prga | rc4Crypt | rc4wCrypt | chachaCrypt | salsaCrypt | rabbitCrypt => contradiction
    all_goals rfl

/-- Settles O29: OLEN's offset is read-only; an error keeps OLEN, and a success leaves what the body does. -/
theorem olenFollowsTheDataCommands : Obligations.OlenFollowsTheDataCommands := by
  refine ⟨rfl, fun s w hb => ⟨?_, hostWrite_of_ignoresWrites rfl w s⟩, fun i s t hwf hexec => ?_⟩
  · simp only [hostRead, hb]; rfl
  · obtain ⟨hruns, rfl⟩ | ⟨-, herr, rfl⟩ := exec_cases hexec
    · exact ⟨fun h => absurd rfl h, fun _ => commandBody_olen_cases hwf hruns⟩
    · exact ⟨fun _ => rfl, fun h => absurd h herr⟩

end Sys2Proof.Machine
end

section
/-! PROOFS. The CRYPT commands (rules R14, R136, R171, R202, R240): they depend on their inputs alone, and applied
twice they restore the data. -/

namespace Sys2Proof.Machine

/-! ## The inputs of a CRYPT command (rule R14) -/

/-- The commands that combine data with a keystream set up from KEY. -/
def isCrypt : Instr → Bool
  | .rc4Crypt | .rc4wCrypt | .chachaCrypt | .salsaCrypt | .rabbitCrypt => true
  | _ => false

theorem isCrypt_of_mem {i : Instr} (hi : i ∈ [.rc4Crypt, .rc4wCrypt, .chachaCrypt, .salsaCrypt, .rabbitCrypt]) :
    isCrypt i = true := by
  simp only [List.mem_cons, List.not_mem_nil, or_false] at hi
  rcases hi with rfl | rfl | rfl | rfl | rfl <;> rfl

/-- Two states give a CRYPT command the same key, nonce, counter, mode and parameters. -/
structure SameKeying (s s' : State) : Prop where
  key : s.key = s'.key
  klen : s.klen = s'.klen
  nonce : s.nonce = s'.nonce
  nlen : s.nlen = s'.nlen
  ctrLo : s.ctrLo = s'.ctrLo
  ctrHi : s.ctrHi = s'.ctrHi
  rabbitCanon : s.rabbitCanon = s'.rabbitCanon
  params : s.params = s'.params

/-- A CRYPT command changes none of its keying inputs. -/
theorem sameKeying_commandBody {i : Instr} (hi : isCrypt i = true) (e : ErrCode) (s : State) :
    SameKeying (finish e (commandBody i s)) s := by
  obtain ⟨hcanon, hklen, hnlen, hctrLo, hctrHi, -, -, -, hparams, -⟩ := commandBody_keeps i s
  obtain ⟨hkey, hnonce⟩ := commandBody_secrets (i := i) (by rintro rfl; cases hi) s
  exact ⟨hkey, hklen, hnonce, hnlen, hctrLo, hctrHi, hcanon, hparams⟩

section keying

variable {s s' : State} (h : SameKeying s s')
include h

theorem scheduledRc4_congr : scheduledRc4 s = scheduledRc4 s' := by
  simp only [scheduledRc4, keyLen, h.key, h.klen]

theorem chachaTile_congr : chachaTile s = chachaTile s' := by
  funext t; simp only [chachaTile, h.key, h.nonce, h.ctrLo]

theorem salsaTile_congr : salsaTile s = salsaTile s' := by
  funext t; simp only [salsaTile, counter64, h.key, h.nonce, h.ctrLo, h.ctrHi]

theorem cryptRabbit_congr : cryptRabbit s = cryptRabbit s' := by
  simp only [cryptRabbit, keyedIvRabbit, keyedRabbit, nonceLen, h.key, h.nonce, h.nlen, h.rabbitCanon, h.params]

theorem streamByte_congr {i : Instr} (hi : isCrypt i = true) : streamByte i s = streamByte i s' := by
  funext n
  cases i
  case rc4Crypt => simp only [streamByte, scheduledRc4_congr h]
  case rc4wCrypt => simp only [streamByte, scheduledRc4_congr h, h.params]
  case chachaCrypt => simp only [streamByte, ← chachaTile_byte, chachaTile_congr h]
  case salsaCrypt => simp only [streamByte, ← salsaTile_byte, salsaTile_congr h]
  case rabbitCrypt => simp only [streamByte, cryptRabbit_congr h, h.rabbitCanon]
  all_goals cases hi

/-- With the same range too, the requirements of a CRYPT command are the same. -/
theorem expectedCode_congr {i : Instr} (hi : isCrypt i = true) (hdoff : s.doff = s'.doff)
    (hdlen : s.dlen = s'.dlen) : expectedCode i s = expectedCode i s' := by
  have hkey : keyMeets i s = keyMeets i s' := by unfold keyMeets; rw [h.klen]
  have hnonce : nonceMeets i s = nonceMeets i s' := by unfold nonceMeets; rw [h.nlen]
  have hrange : rangeMeets i s = rangeMeets i s' := by unfold rangeMeets outLen; rw [h.params, hdoff, hdlen]
  have hinit : ∀ q : State, initMeets i q = true := by
    cases i
    case rc4Crypt | rc4wCrypt | chachaCrypt | salsaCrypt | rabbitCrypt => exact fun _ => rfl
    all_goals cases hi
  rw [expectedCode, expectedCode, hkey, hnonce, hrange, hinit, hinit]

theorem runs_congr {i : Instr} (hi : isCrypt i = true) (hdoff : s.doff = s'.doff) (hdlen : s.dlen = s'.dlen)
    (hruns : runs i s' = true) : runs i s = true := by
  rw [runs_iff_code] at hruns ⊢
  rw [expectedCode_congr h hi hdoff hdlen, hruns]

end keying

/-! ## The bytes of the output range -/

/-- Byte `n` of the range: data XOR keystream. -/
theorem dataResult_at (s : State) {len n : Nat} (k : Nat → Byte) (hn : n < len) :
    dataResult s len k (s.doff.toNat + n) = dataByte s n ^^^ k n := by
  simp only [dataResult]
  rw [if_pos (by omega), Nat.add_sub_cancel_left]

/-- The data of a second pass over the whole output of a first one, under the same keystream, is the first one's
data: the two keystream bytes cancel. -/
theorem memRead_commandBody_again {i : Instr} {s t : State} {n : Nat} (hi : isCrypt i = true)
    (hwf : Memory.wf s.dbuf = true) (hout : outLen i s = some n) (hout' : outLen i t = some n)
    (hkeying : SameKeying t s) (hdoff : t.doff = s.doff) (hdlen : t.dlen.toNat = n)
    (hdbuf : t.dbuf = (commandBody i s).dbuf) (a : Nat) :
    memRead (commandBody i t).dbuf a =
      if s.doff.toNat ≤ a ∧ a < s.doff.toNat + n then dataByte s (a - s.doff.toNat) else memRead s.dbuf a := by
  have hread : memRead t.dbuf a = dataResult s n (streamByte i s) a := by
    rw [hdbuf, memRead_commandBody hwf hout]
  rw [memRead_commandBody (by rw [hdbuf]; exact commandBody_wf i hwf) hout', ← hdlen, dataResult_dlen, hdlen, hread,
    streamByte_congr hkeying hi, hdoff]
  by_cases ha : s.doff.toNat ≤ a ∧ a < s.doff.toNat + n
  · rw [if_pos ha, if_pos ha, dataResult, if_pos ha, BitVec.xor_assoc, BitVec.xor_self, BitVec.xor_zero]
  · rw [if_neg ha, if_neg ha, dataResult_outside _ ha]

/-- Settles O56: the second pass runs on the same inputs, and its data is the first pass's. -/
theorem cryptTwiceRestoresTheData : Obligations.CryptTwiceRestoresTheData := by
  intro i s t hi hruns hwf hexec
  have hout : ∀ q : State, outLen i q = some q.dlen.toNat := by
    simp only [List.mem_cons, List.not_mem_nil, or_false] at hi
    rcases hi with rfl | rfl | rfl | rfl <;> exact fun _ => rfl
  have hcrypt : isCrypt i = true := isCrypt_of_mem (by simp only [List.mem_cons] at hi ⊢; tauto)
  rw [exec_of_runs hruns] at hexec
  cases hexec
  obtain ⟨-, -, -, -, -, hdoff, hdlen, -⟩ := commandBody_keeps i s
  have hkeying := sameKeying_commandBody hcrypt .ok s
  refine ⟨_, exec_of_runs (runs_congr hkeying hcrypt hdoff hdlen hruns), rfl, ?_⟩
  refine memory_ext (commandBody_wf i (commandBody_wf i hwf)) hwf fun a => ?_
  have hout' : outLen i (finish .ok (commandBody i s)) = some s.dlen.toNat :=
    (hout _).trans (congrArg (fun d : Word => some d.toNat) hdlen)
  refine (memRead_commandBody_again hcrypt hwf (hout s) hout' hkeying hdoff (congrArg BitVec.toNat hdlen) rfl
    a).trans ?_
  split
  · rename_i ha
    rw [dataByte, if_pos (by omega), Nat.add_sub_cancel' ha.1]
  · rfl

/-! ## The cipher state a CRYPT command leaves -/

/-- One next-state step a tile (rule R238). -/
theorem commandBody_rabbitCrypt_rabbit (s : State) : (commandBody .rabbitCrypt s).rabbit =
    rabbitAfter s.rabbitCanon (tileCount 16 (dataLen s)) (cryptRabbit s) :=
  (xorTiles_state _ _ _ _ _).trans (tileState_rabbit _ _ _ _)

theorem commandBody_chachaCrypt_ks {s : State} (hlen : 0 < s.dlen.toNat) :
    (commandBody .chachaCrypt s).ks = chachaTile s (tileCount 64 (dataLen s) - 1) := if_neg hlen.ne'

theorem commandBody_salsaCrypt_ks {s : State} (hlen : 0 < s.dlen.toNat) :
    (commandBody .salsaCrypt s).ks = salsaTile s (tileCount 64 (dataLen s) - 1) := if_neg hlen.ne'

/-- The last block is the extract of the final state (log 15). -/
theorem commandBody_rabbitCrypt_ks {s : State} (hlen : 0 < s.dlen.toNat) : (commandBody .rabbitCrypt s).ks =
    putBlock16 s.ks (extract (commandBody .rabbitCrypt s).rabbit.x) := if_neg hlen.ne'

/-- What two states with the same inputs and the same data make of a CRYPT command that runs on both. -/
theorem commandBody_congr {i : Instr} {s s' : State} (hi : isCrypt i = true) (h : SameKeying s s')
    (hdoff : s.doff = s'.doff) (hdlen : s.dlen = s'.dlen) (hwf : Memory.wf s.dbuf = true)
    (hwf' : Memory.wf s'.dbuf = true)
    (hdata : ∀ n, n < s.dlen.toNat → memRead s.dbuf (s.doff.toNat + n) = memRead s'.dbuf (s.doff.toNat + n)) :
    (commandBody i s).olen = (commandBody i s').olen ∧
    (∀ n, n < (commandBody i s).olen.toNat → memRead (commandBody i s).dbuf (s.doff.toNat + n) =
      memRead (commandBody i s').dbuf (s.doff.toNat + n)) ∧
    (i = .rc4Crypt ∨ i = .rc4wCrypt → (commandBody i s).rc4 = (commandBody i s').rc4) ∧
    (i = .rabbitCrypt → (commandBody i s).rabbit = (commandBody i s').rabbit) ∧
    (0 < s.dlen.toNat →
      (i = .chachaCrypt ∨ i = .salsaCrypt → (commandBody i s).ks = (commandBody i s').ks) ∧
      (i = .rabbitCrypt → ∀ k, k < 16 → elt (commandBody i s).ks k = elt (commandBody i s').ks k)) := by
  have hdata_eq : dataByte s = dataByte s' := by
    funext n
    simp only [dataByte, ← hdlen, ← hdoff]
    split
    · exact hdata n ‹_›
    · rfl
  have hrabbit : (commandBody .rabbitCrypt s).rabbit = (commandBody .rabbitCrypt s').rabbit := by
    simp only [commandBody_rabbitCrypt_rabbit, dataLen, cryptRabbit_congr h, h.rabbitCanon, hdlen]
  obtain ⟨len, hout⟩ : ∃ len, outLen i s = some len := by
    cases i
    case rc4Crypt | rc4wCrypt | chachaCrypt | salsaCrypt | rabbitCrypt => exact ⟨_, rfl⟩
    all_goals cases hi
  have hout' : outLen i s' = some len := by
    rw [← hout]; simp only [outLen, hdlen]
  refine ⟨by rw [commandBody_olen hout, commandBody_olen hout'], fun n hn => ?_, ?_, ?_, fun hlen => ⟨?_, ?_⟩⟩
  · have hin : n < len := by
      rw [commandBody_olen hout, BitVec.toNat_ofNat] at hn
      exact hn.trans_le (Nat.mod_le _ _)
    rw [memRead_commandBody hwf hout, memRead_commandBody hwf' hout', dataResult_at s _ hin, hdoff,
      dataResult_at s' _ hin, hdata_eq, streamByte_congr h hi]
  · rintro (rfl | rfl)
    · simp only [commandBody_rc4Crypt_rc4, scheduledRc4_congr h, dataLen, hdlen]
    · simp only [commandBody_rc4wCrypt_rc4, scheduledRc4_congr h, paddedLen, dataLen, hdlen, h.params]
  · rintro rfl; exact hrabbit
  · have hlen' : 0 < s'.dlen.toNat := hdlen ▸ hlen
    rintro (rfl | rfl)
    · rw [commandBody_chachaCrypt_ks hlen, commandBody_chachaCrypt_ks hlen', chachaTile_congr h, dataLen, hdlen]
    · rw [commandBody_salsaCrypt_ks hlen, commandBody_salsaCrypt_ks hlen', salsaTile_congr h, dataLen, hdlen]
  · have hlen' : 0 < s'.dlen.toNat := hdlen ▸ hlen
    rintro rfl k hk
    rw [commandBody_rabbitCrypt_ks hlen, commandBody_rabbitCrypt_ks hlen', elt_putBlock16_inside _ _ hk,
      elt_putBlock16_inside _ _ hk, hrabbit]

/-- Settles O57: the command runs on both states or on neither, with one code; where it runs, its body reads the
inputs alone. -/
theorem cryptIgnoresTheStreamingState : Obligations.CryptIgnoresTheStreamingState := by
  intro i s s' t t' hi hkey hklen hnonce hnlen hctrLo hctrHi hcanon hparams hdoff hdlen hwf hwf' hdata hexec hexec'
  have hcrypt := isCrypt_of_mem hi
  have hkeying : SameKeying s s' := ⟨hkey, hklen, hnonce, hnlen, hctrLo, hctrHi, hcanon, hparams⟩
  have hcode := expectedCode_congr hkeying hcrypt hdoff hdlen
  obtain ⟨hruns, rfl⟩ | ⟨hruns, herr, rfl⟩ := exec_cases hexec
  · have hruns' : runs i s' = true := by rwa [runs_iff_code, ← hcode, ← runs_iff_code]
    rw [exec_of_runs hruns'] at hexec'
    cases hexec'
    exact ⟨rfl, fun _ => commandBody_congr hcrypt hkeying hdoff hdlen hwf hwf' hdata⟩
  · have hruns' : runs i s' = false := by
      rw [Bool.eq_false_iff, Ne, runs_iff_code, ← hcode]; exact herr
    rw [exec_of_not_runs hruns'] at hexec'
    cases hexec'
    exact ⟨hcode, fun hok => absurd hok herr⟩

end Sys2Proof.Machine
end

section
/-! PROOFS. RC4 (41_rc4.md): what the key schedule reads, the two keystreams, RC4_PRGA, RC4_CRYPT and RC4W_CRYPT. -/

namespace Sys2Proof.Machine

/-! ## The key schedule reads K[0..L-1] (rule R131) -/

theorem ksaStep_congr {K K' : Vector Byte 256} {L : Nat} (hL : 0 < L) (h : ∀ n, n < L → elt K n = elt K' n) :
    ksaStep K L = ksaStep K' L := by
  funext st i
  rw [ksaStep, ksaStep, h _ (Nat.mod_lt i hL)]

/-- Settles O32: each step reads K at an index modulo L. -/
theorem keyScheduleReadsOnlyTheKeyBytes : Obligations.KeyScheduleReadsOnlyTheKeyBytes := by
  intro K K' L hL _ h
  rw [ksa, ksa, ksaStep_congr hL h]

/-! ## The two keystreams (rule R137) -/

/-- A default pair step is two PRGA steps. -/
theorem pairAfter_twoPrgaSteps (n : Nat) (r : Rc4) : pairAfter .twoPrgaSteps n r = rc4After (2 * n) r := by
  induction n generalizing r with
  | zero => rfl
  | succ n ih => exact ih _

/-- The first byte of a pair is the byte of the even position, the second that of the odd one. -/
theorem pairByte_twoPrgaSteps (r : Rc4) (n : Nat) : pairByte .twoPrgaSteps r n = rc4Byte r n := by
  obtain heven | hodd := Nat.mod_two_eq_zero_or_one n
  · rw [pairByte_even _ _ _ heven, pairAfter_twoPrgaSteps, show 2 * (n / 2) = n by omega]
    rfl
  · rw [pairByte_odd _ _ _ hodd, pairAfter_twoPrgaSteps, rc4Byte]
    conv_rhs => rw [show n = 2 * (n / 2) + 1 by omega, rc4After, repeatN_succ_last]
    rfl

/-- Settles O36: byte by byte and step by step. -/
theorem defaultPairsGiveTheBytewiseKeystream : Obligations.DefaultPairsGiveTheBytewiseKeystream :=
  fun r n => ⟨pairByte_twoPrgaSteps r n, pairAfter_twoPrgaSteps n r⟩

/-! ## RC4_PRGA (rule R135) -/

/-- What RC4_PRGA leaves where its requirements are met, DBUF aside. -/
theorem finish_rc4PrgaBody (s : State) : finish .ok (rc4PrgaBody s) = { s with
    rc4 := rc4After s.dlen.toNat s.rc4, dbuf := (rc4PrgaBody s).dbuf, olen := s.dlen, err := .ok, busy := false } := by
  simp only [rc4PrgaBody, setRc4, setDbuf, setOlen, finish, prgaXor_state]

/-- Settles O33: the body's state, and its data in DBUF. -/
theorem rc4PrgaContinuesTheKeystream : Obligations.Rc4PrgaContinuesTheKeystream := fun s hruns hwf =>
  ⟨_, exec_of_runs hruns, finish_rc4PrgaBody s, memRead_commandBody (i := .rc4Prga) hwf rfl⟩

/-! ## RC4_CRYPT (rule R136) -/

/-- What RC4_CRYPT leaves where its requirements are met, DBUF aside. -/
theorem finish_rc4CryptBody (s : State) : finish .ok (rc4CryptBody s) = { s with
    rc4 := rc4After s.dlen.toNat { s := ksa s.key s.klen.toNat, i := 0, j := 0 }
    rc4Valid := true, dbuf := (rc4CryptBody s).dbuf, olen := s.dlen, err := .ok, busy := false } := by
  simp only [rc4CryptBody, setRc4, setRc4Valid, setDbuf, setOlen, finish, prgaXor_state, scheduledRc4]

/-- Settles O34: the body's state, and its data in DBUF. -/
theorem rc4CryptXorsTheKeystream : Obligations.Rc4CryptXorsTheKeystream := fun s hruns hwf =>
  ⟨_, exec_of_runs hruns, finish_rc4CryptBody s, memRead_commandBody (i := .rc4Crypt) hwf rfl⟩

/-! ## RC4_KSA and two RC4_PRGA (rule R135) -/

section range

variable {off len : Nat}

theorem withRange_doff_toNat (hoff : off < 2 ^ 32) (s : State) : (withRange off len s).doff.toNat = off :=
  (BitVec.toNat_ofNat off 32).trans (Nat.mod_eq_of_lt hoff)

theorem withRange_dlen_toNat (hlen : len < 2 ^ 32) (s : State) : (withRange off len s).dlen.toNat = len :=
  (BitVec.toNat_ofNat len 32).trans (Nat.mod_eq_of_lt hlen)

/-- RC4_PRGA over a fresh range, on a valid RC4 state. -/
theorem exec_rc4Prga_withRange {s : State} (hsize : s.params.dbufBytes < 2 ^ 32)
    (hrange : off + len ≤ s.params.dbufBytes) (hvalid : s.rc4Valid = true) :
    exec .rc4Prga (withRange off len s) = .next { withRange off len s with
      rc4 := (prgaXor len off s.rc4 s.dbuf).1, dbuf := (prgaXor len off s.rc4 s.dbuf).2
      olen := BitVec.ofNat 32 len, err := .ok, busy := false } := by
  have hdoff := withRange_doff_toNat (len := len) (show off < 2 ^ 32 by omega) s
  have hdlen := withRange_dlen_toNat (off := off) (show len < 2 ^ 32 by omega) s
  have hruns : runs .rc4Prga (withRange off len s) = true := by
    refine (runs_iff _ _).2 ⟨rfl, rfl, ?_, hvalid⟩
    simp only [rangeMeets, outLen, hdoff, hdlen]
    exact decide_eq_true hrange
  rw [exec_of_runs hruns, commandBody]
  simp only [rc4PrgaBody, dataLen, dataOff, hdoff, hdlen]
  rfl

end range

/-- RC4_KSA where the key length is legal, the state it leaves named. -/
theorem exec_rc4Ksa_scheduled {s : State} (hkey : keyMeets .rc4Ksa s = true) : exec .rc4Ksa s = .next { s with
    rc4 := scheduledRc4 s, rc4Valid := true, err := .ok, busy := false } := by
  rw [exec_of_runs ((runs_rc4Ksa s).trans hkey), commandBody, finish_rc4KsaBody]
  rfl

theorem exec_rc4Crypt_prgaXor {s : State} (hruns : runs .rc4Crypt s = true) : exec .rc4Crypt s = .next { s with
    rc4 := (prgaXor s.dlen.toNat s.doff.toNat (scheduledRc4 s) s.dbuf).1, rc4Valid := true
    dbuf := (prgaXor s.dlen.toNat s.doff.toNat (scheduledRc4 s) s.dbuf).2, olen := s.dlen
    err := .ok, busy := false } := exec_of_runs hruns

/-- Settles O37: the loop of RC4_CRYPT is the loop over the first range followed by the loop over the second, and
RC4_KSA leaves the state it starts from. -/
theorem splitPrgaEqualsOneCrypt : Obligations.SplitPrgaEqualsOneCrypt := by
  intro s n m hruns hwf hlen
  obtain ⟨hkey, -⟩ := (runs_iff _ _).1 hruns
  obtain ⟨-, -, -, hbound⟩ := (paramsWf_iff s.params).1 hwf
  have hsize : s.params.dbufBytes < 2 ^ 32 := Nat.lt_of_le_of_lt hbound (by decide)
  have hrange : s.doff.toNat + (n + m) ≤ s.params.dbufBytes := hlen ▸ outRange_of_runs hruns rfl
  have hfirst : s.doff.toNat + n ≤ s.params.dbufBytes := by omega
  have hsecond : s.doff.toNat + n + m ≤ s.params.dbufBytes := by omega
  have hjoin := prgaXor_add n m s.doff.toNat (scheduledRc4 s) s.dbuf
  refine ⟨_, _, _, _, exec_rc4Ksa_scheduled hkey, exec_rc4Prga_withRange hsize hfirst rfl,
    exec_rc4Prga_withRange hsize hsecond rfl, exec_rc4Crypt_prgaXor hruns, rfl, ?_, ?_, rfl⟩
  · rw [hlen, hjoin]
  · rw [hlen, hjoin]

/-! ## RC4W_CRYPT (rules R138, R139) -/

/-- What RC4W_CRYPT leaves where its requirements are met, DBUF and OLEN aside. -/
theorem finish_rc4wCryptBody (s : State) : finish .ok (rc4wCryptBody s) = { s with
    rc4 := pairAfter s.params.rc4wPair ((s.dlen.toNat + s.dlen.toNat % 2) / 2)
      { s := ksa s.key s.klen.toNat, i := 0, j := 0 }
    rc4Valid := true, dbuf := (rc4wCryptBody s).dbuf, olen := (rc4wCryptBody s).olen, err := .ok
    busy := false } := by
  simp only [rc4wCryptBody, setRc4, setRc4Valid, setDbuf, setOlen, finish, pairXor_state, scheduledRc4]

/-- Settles O35: the body's state, and its data and pad byte in DBUF. -/
theorem rc4wCryptXorsThePairs : Obligations.Rc4wCryptXorsThePairs := fun s hruns hwf hparams =>
  ⟨_, exec_of_runs hruns, finish_rc4wCryptBody s, commandBody_olen_toNat (i := .rc4wCrypt) hparams hruns rfl,
    memRead_commandBody (i := .rc4wCrypt) hwf rfl⟩

section again

variable {s t : State} (hkeying : SameKeying t s) (hdoff : t.doff = s.doff) (hdlen : t.dlen.toNat = paddedLen s)
include hdlen

/-- The output length is even, so a second pass has no pad byte. -/
theorem paddedLen_again : paddedLen t = paddedLen s := by
  simp only [paddedLen, dataLen] at hdlen ⊢; omega

include hkeying hdoff

theorem runs_rc4wCrypt_again (hruns : runs .rc4wCrypt s = true) : runs .rc4wCrypt t = true := by
  obtain ⟨hkey, -⟩ := (runs_iff _ _).1 hruns
  have hrange : dataOff s + paddedLen s ≤ s.params.dbufBytes := outRange_of_runs hruns rfl
  refine (runs_iff _ _).2 ⟨?_, rfl, decide_eq_true ?_, rfl⟩
  · rwa [keyMeets, hkeying.klen]
  · show dataOff t + paddedLen t ≤ t.params.dbufBytes
    rwa [hkeying.params, dataOff, hdoff, paddedLen_again hdlen]

/-- What a second pass over the whole output of a first one leaves: the first pass's data and pad byte. -/
theorem rc4wCrypt_again (hruns : runs .rc4wCrypt s = true) (hwf : Memory.wf s.dbuf = true)
    (hdbuf : t.dbuf = (commandBody .rc4wCrypt s).dbuf) :
    ∃ u, exec .rc4wCrypt t = .next u ∧ u.err = .ok ∧ u.olen = (commandBody .rc4wCrypt s).olen ∧
      Memory.wf u.dbuf = true ∧ ∀ a, memRead u.dbuf a =
        if s.doff.toNat ≤ a ∧ a < s.doff.toNat + paddedLen s then dataByte s (a - s.doff.toNat)
        else memRead s.dbuf a := by
  have hpadded := paddedLen_again hdlen
  refine ⟨_, exec_of_runs (runs_rc4wCrypt_again hkeying hdoff hdlen hruns), rfl,
    congrArg (BitVec.ofNat 32) hpadded, commandBody_wf _ (hdbuf ▸ commandBody_wf _ hwf), ?_⟩
  exact memRead_commandBody_again (i := .rc4wCrypt) rfl hwf rfl (congrArg some hpadded) hkeying hdoff hdlen hdbuf

end again

/-- Settles O38: the second pass has the first's keystream over the first's whole output, so its data is the first
pass's data and pad byte. -/
theorem rc4wRoundTripGivesDataAndPad : Obligations.Rc4wRoundTripGivesDataAndPad := by
  intro s t hruns hwf hparams hexec
  rw [exec_of_runs hruns] at hexec
  cases hexec
  have holen : (commandBody .rc4wCrypt s).olen.toNat = paddedLen s := commandBody_olen_toNat hparams hruns rfl
  have hkeying := sameKeying_commandBody (i := .rc4wCrypt) rfl .ok s
  obtain ⟨u, hexec, herr, hu, hwf', hread⟩ := rc4wCrypt_again
    (t := { finish .ok (commandBody .rc4wCrypt s) with dlen := (commandBody .rc4wCrypt s).olen })
    { hkeying with } rfl holen hruns hwf rfl
  refine ⟨holen, u, hexec, herr, hu, fun n hn => ?_, fun hodd => ?_, fun heven => ?_⟩
  · rw [hread, if_pos (by simp only [paddedLen, dataLen]; omega), Nat.add_sub_cancel_left, dataByte, if_pos hn]
  · rw [hread, if_pos (by simp only [paddedLen, dataLen]; omega), Nat.add_sub_cancel_left, dataByte,
      if_neg (Nat.lt_irrefl _)]
  · refine memory_ext hwf' hwf fun a => ?_
    rw [hread]
    split
    · rename_i ha
      simp only [paddedLen, dataLen, heven] at ha
      rw [dataByte, if_pos (by omega), Nat.add_sub_cancel' ha.1]
    · rfl

end Sys2Proof.Machine
end

section
/-! PROOFS. Encoding (30_encoding.md rules R83, R84, R89): a word decodes to a command exactly when it is the
command's word. -/

namespace Sys2Proof.Machine

/-- Settles O1: each word read as the opcode map says. -/
theorem decodeReadsTheTableWords : Obligations.DecodeReadsTheTableWords := by
  unfold Obligations.DecodeReadsTheTableWords
  decide

/-- The opcode map read backwards. -/
theorem decodeOp_eq_ok_iff {op : Nat} {i : Instr} : decodeOp op = .ok i ↔ op = (opOf i).toNat := by
  constructor
  · intro h
    unfold decodeOp at h
    split at h <;> cases h <;> rfl
  · rintro rfl
    cases i <;> rfl

theorem encode_toNat (i : Instr) : (encode i).toNat = (opOf i).toNat := by
  cases i <;> rfl

/-- Settles O3: MBZ is 0 and OP is the command's, and the two fields make up the word. -/
theorem onlyTheEncodedWordDecodes : Obligations.OnlyTheEncodedWordDecodes := by
  intro w i
  have hop : (opOf i).toNat < 256 := (opOf i).isLt
  have hword : w = encode i ↔ w.toNat / 256 = 0 ∧ w.toNat % 256 = (opOf i).toNat := by
    rw [← BitVec.toNat_inj, encode_toNat]; omega
  rw [hword, decode, ← mbzField_eq_zero_iff, ← opField_toNat, ← decodeOp_eq_ok_iff]
  by_cases hmbz : mbzField w = 0
  · rw [if_pos hmbz, and_iff_right hmbz]
  · rw [if_neg hmbz]; exact iff_of_false nofun fun h => hmbz h.1

/-- Settles O2: a command's word is its word. -/
theorem decodeOfEncodeIsTheCommand : Obligations.DecodeOfEncodeIsTheCommand :=
  fun i => (onlyTheEncodedWordDecodes (encode i) i).2 rfl

end Sys2Proof.Machine
end

section
/-! PROOFS. The host's accesses (10_state.md, 20_memory.md): the fields of STATUS, what the host-written registers
store, the windows byte by byte, breaches of the protocol, poll, and what is left to read after ZEROIZE. -/

namespace Sys2Proof.Machine

/-! ## Fields of a register -/

/-- A field of at most 32 bits at bit 0 of a register shows its own bits and no other. -/
theorem getLsbD_setWidth_field {n : Nat} (v : BitVec n) (hn : n ≤ 32) (k : Nat) :
    (v.setWidth 32).getLsbD k = v.getLsbD k := by
  rw [BitVec.getLsbD_setWidth]
  by_cases hk : k < 32
  · simp [hk]
  · rw [BitVec.getLsbD_of_ge v k (by omega), Bool.and_false]

/-- A field that holds a word's low `n` bits reads as the word under the mask of those bits. -/
theorem setWidth_eq_and {n : Nat} {v : BitVec n} {w m : Word} (hv : ∀ k, k < n → v.getLsbD k = w.getLsbD k)
    (hm : ∀ k, k < 32 → m.getLsbD k = decide (k < n)) : v.setWidth 32 = w &&& m := by
  refine BitVec.eq_of_getLsbD_eq fun k hk => ?_
  rw [BitVec.getLsbD_setWidth, BitVec.getLsbD_and, hm k hk]
  by_cases hin : k < n
  · rw [hv k hin, decide_eq_true hk, decide_eq_true hin, Bool.true_and, Bool.and_true]
  · rw [BitVec.getLsbD_of_ge v k (Nat.not_lt.1 hin), decide_eq_false hin, Bool.and_false, Bool.and_false]

/-! ## STATUS (rules R23, R261) -/

/-- An error code fits in the four bits of ERR. -/
theorem getLsbD_errCode_high (e : ErrCode) {k : Nat} (hk : 4 ≤ k) :
    (BitVec.ofNat 32 (errCode e)).getLsbD k = false := by
  have hsmall : errCode e < 2 ^ 4 := by cases e <;> decide
  have hbit := Nat.testBit_lt_two_pow (hsmall.trans_le (Nat.pow_le_pow_right (by decide) hk))
  rw [BitVec.getLsbD_ofNat, hbit, Bool.and_false]

/-- Every bit of STATUS below 32: one of its four fields, or 0. -/
theorem getLsbD_statusWord (s : State) {k : Nat} (hk : k < 32) : (statusWord s).getLsbD k =
    (decide (k = 0) && s.busy || (decide (8 ≤ k) && (BitVec.ofNat 32 (errCode s.err)).getLsbD (k - 8)) ||
      (decide (k = 16) && s.rc4Valid) || (decide (k = 17) && s.rabbitValid)) := by
  have hflag : ∀ (b : Bool) (p : Nat),
      ((BitVec.ofBool b).setWidth 32 <<< p).getLsbD k = (decide (k = p) && b) := by
    intro b p
    rw [BitVec.getLsbD_shiftLeft, getLsbD_setWidth_field _ (by decide), BitVec.getLsbD_ofBool]
    by_cases hlow : k < p
    · simp [hlow, hlow.ne]
    · simp [hk, hlow, show k - p = 0 ↔ k = p by omega]
  have herr : ((BitVec.ofNat 32 (errCode s.err)) <<< 8).getLsbD k =
      (decide (8 ≤ k) && (BitVec.ofNat 32 (errCode s.err)).getLsbD (k - 8)) := by
    rw [BitVec.getLsbD_shiftLeft]
    by_cases hlow : k < 8
    · simp [hlow]
    · simp [hk, hlow, Nat.not_lt.1 hlow]
  have hbusy := hflag s.busy 0
  rw [BitVec.shiftLeft_zero] at hbusy
  simp only [statusWord, BitVec.getLsbD_or, hflag, herr, hbusy]

/-- ERR at bits 11:8. -/
theorem statusWord_err (s : State) : (statusWord s).extractLsb' 8 4 = BitVec.ofNat 4 (errCode s.err) := by
  refine BitVec.eq_of_getLsbD_eq fun k hk => ?_
  have hcode : (BitVec.ofNat 32 (errCode s.err)).getLsbD k = (BitVec.ofNat 4 (errCode s.err)).getLsbD k := by
    rw [BitVec.getLsbD_ofNat, BitVec.getLsbD_ofNat, decide_eq_true hk, decide_eq_true (show k < 32 by omega)]
  rw [BitVec.getLsbD_extractLsb', getLsbD_statusWord s (by omega), Nat.add_sub_cancel_left, hcode]
  simp only [hk, show 8 + k ≠ 0 by omega, show 8 + k ≠ 16 by omega, show 8 + k ≠ 17 by omega, Nat.le_add_right,
    decide_true, decide_false, Bool.true_and, Bool.false_and, Bool.or_false, Bool.false_or]

theorem statusWord_rc4Valid (s : State) : (statusWord s).getLsbD 16 = s.rc4Valid := by
  rw [getLsbD_statusWord s (by decide), getLsbD_errCode_high s.err (by decide)]; simp

theorem statusWord_rabbitValid (s : State) : (statusWord s).getLsbD 17 = s.rabbitValid := by
  rw [getLsbD_statusWord s (by decide), getLsbD_errCode_high s.err (by decide)]; simp

/-- Settles O8: the four fields, the reserved bits, and the codes. -/
theorem statusFieldsStandInPlace : Obligations.StatusFieldsStandInPlace := fun s =>
  ⟨statusWord_bit0 s, statusWord_err s, statusWord_rc4Valid s, statusWord_rabbitValid s, statusWord_reservedBits s,
    rfl, rfl, rfl, rfl, rfl, rfl⟩

/-! ## Host-written registers (rules R21, R24 to R30) -/

theorem hostRead_of_idle {s : State} (hb : s.busy = false) (l : Loc) : hostRead s l = idleRead s l := by
  simp [hostRead, hb]

/-- A write not to CMD leaves the engine idle. -/
theorem hostRead_idleWrite {s : State} (hb : s.busy = false) {l : Loc} (hl : l ≠ .cmd) (w : Word) (l' : Loc) :
    hostRead (idleWrite l w s) l' = idleRead (idleWrite l w s) l' :=
  hostRead_of_idle (by rw [idleWrite_eq hl]; exact hb) l'

/-- Settles O10: an idle engine stores a register's defined bits and gives them back. -/
theorem hostRegistersStoreWhatIsWritten : Obligations.HostRegistersStoreWhatIsWritten := by
  intro s w hb
  have hread := fun l l' (hl : l ≠ Loc.cmd) => hostRead_idleWrite hb hl w l'
  have hbits : ∀ n k, k < n → (w.extractLsb' 0 n).getLsbD k = w.getLsbD k := fun n k hk => by simp [hk]
  simp only [hostWrite_of_idle hb]
  refine ⟨hostRead_of_idle hb _, rfl, ?_, ?_, rfl, rfl, rfl, rfl, (hread .ctrl .ctrl nofun).trans ?_,
    (hread .klen .klen nofun).trans ?_, (hread .nlen .nlen nofun).trans ?_, hread .ctrLo .ctrLo nofun,
    hread .ctrHi .ctrHi nofun, hread .doff .doff nofun, hread .dlen .dlen nofun⟩
  · exact congrArg (fun v => ({ s with klen := v } : State)) (extractLsb'_zero_eq_ofNat w 9)
  · exact congrArg (fun v => ({ s with nlen := v } : State)) (extractLsb'_zero_eq_ofNat w 5)
  · exact setWidth_eq_and (v := BitVec.ofBool (w.getLsbD 0)) (by simp) (by decide)
  · exact setWidth_eq_and (hbits 9) (by decide)
  · exact setWidth_eq_and (hbits 5) (by decide)

/-! ## Windows (rule R62) -/

/-- What an idle engine gives at an aligned offset of the register map. -/
theorem hostRead_of_standsAt {s : State} {off : Nat} {l : Loc} (hb : s.busy = false) (h4 : off % 4 = 0)
    (h : standsAt off l) : hostRead s (locate off) = idleRead s l := by
  rw [locate_of_standsAt h4 h, hostRead_of_idle hb]

theorem hostWrite_of_standsAt {s : State} {off : Nat} {l : Loc} (hb : s.busy = false) (h4 : off % 4 = 0)
    (h : standsAt off l) (w : Word) : hostWrite (locate off) w s = idleWrite l w s := by
  rw [locate_of_standsAt h4 h, hostWrite_of_idle hb]

/-- RC4_IJ: I at 7:0 and J at 15:8 (rule R32). -/
theorem getLsbD_rc4IjWord (s : State) (k : Nat) : (rc4IjWord s).getLsbD k =
    if k < 8 then s.rc4.i.getLsbD k else s.rc4.j.getLsbD (k - 8) := by
  rw [rc4IjWord, BitVec.getLsbD_or, getLsbD_setWidth_field _ (by decide), BitVec.getLsbD_shiftLeft,
    getLsbD_setWidth_field _ (by decide)]
  by_cases hlow : k < 8
  · simp [hlow]
  · rw [BitVec.getLsbD_of_ge s.rc4.i k (Nat.not_lt.1 hlow), if_neg hlow]
    by_cases hk : k < 32
    · simp [hlow, hk]
    · simp [hk, BitVec.getLsbD_of_ge s.rc4.j (k - 8) (by omega)]

/-- Settles O11: at each word of a window the idle engine gives the four bytes or the lane that stand there. -/
theorem windowReadsAreLittleEndian : Obligations.WindowReadsAreLittleEndian := by
  intro s m hb
  refine ⟨fun hm => ?key, fun hm => ?nonce, fun hm => ?ks, fun hm => ?s, ?dbuf, fun hm => ⟨?x, ?c⟩,
    fun k => ⟨?klen, ?nlen, ?ij⟩⟩
  case key => exact hostRead_of_standsAt hb (by omega) (l := .key (4 * m)) ⟨rfl, by omega⟩
  case nonce => exact hostRead_of_standsAt hb (by omega) (l := .nonce (4 * m)) ⟨rfl, by omega⟩
  case ks => exact hostRead_of_standsAt hb (by omega) (l := .ks (4 * m)) ⟨rfl, by omega⟩
  case s => exact hostRead_of_standsAt hb (by omega) (l := .s (4 * m)) ⟨rfl, by omega⟩
  case dbuf => exact hostRead_of_standsAt hb (by omega) (l := .dbuf (4 * m)) rfl
  case x => exact hostRead_of_standsAt hb (by omega) (l := .x m) ⟨rfl, hm⟩
  case c => exact hostRead_of_standsAt hb (by omega) (l := .c m) ⟨rfl, hm⟩
  case klen => rw [hostRead_of_idle hb]; exact getLsbD_setWidth_field s.klen (by decide) k
  case nlen => rw [hostRead_of_idle hb]; exact getLsbD_setWidth_field s.nlen (by decide) k
  case ij => rw [hostRead_of_idle hb]; exact getLsbD_rc4IjWord s k

/-- Settles O12: at each word of a writable window the idle engine stores the word's bytes. -/
theorem windowWritesStoreFourBytes : Obligations.WindowWritesStoreFourBytes := by
  intro s m w hb hwf
  have hword : ∀ k, 4 * m = 4 * (k / 4) ↔ k / 4 = m := fun k => by omega
  refine ⟨fun hm => ⟨putWord s.key (4 * m) w, ?_, fun k hk => ?_⟩,
    fun hm => ⟨putWord s.nonce (4 * m) w, ?_, fun k hk => ?_⟩, memWriteWord s.dbuf (4 * m) w, ?_, fun a => ?_⟩
  · exact hostWrite_of_standsAt hb (by omega) (l := .key (4 * m)) ⟨rfl, by omega⟩ w
  · simp only [elt_putWord_aligned s.key (show 4 * m % 4 = 0 by omega) w hk, hword, byteOf]
  · exact hostWrite_of_standsAt hb (by omega) (l := .nonce (4 * m)) ⟨rfl, by omega⟩ w
  · simp only [elt_putWord_aligned s.nonce (show 4 * m % 4 = 0 by omega) w hk, hword, byteOf]
  · exact hostWrite_of_standsAt hb (by omega) (l := .dbuf (4 * m)) rfl w
  · simp only [memRead_memWriteWord_aligned hwf (show 4 * m % 4 = 0 by omega) w a, hword, byteOf]

/-! ## Breaches of the host protocol (rules R60, R61, R273) -/

theorem hostTurn_of_breach {s : State} {addr : Nat} {w : Word} {rest : List HostOp} {f : Fault}
    (hs : s.script = .rd addr :: rest ∨ s.script = .wr addr w :: rest) (h : resolve s.params addr = .error f) :
    hostTurn s = .fault f := by
  obtain hs | hs := hs
  · simp [hostTurn, hs, hostReadOp, h]
  · simp [hostTurn, hs, hostWriteOp, h]

/-- Settles O14: such an address resolves to no place. -/
theorem protocolBreachesHaveNoStep : Obligations.ProtocolBreachesHaveNoStep := by
  intro s addr w rest hs
  refine ⟨fun hout => hostTurn_of_breach hs ?_, fun hbase hspan h4 => hostTurn_of_breach hs ?_⟩
  · rw [resolve, spanBytes, registerBlockBytes, if_pos (by omega)]
  · rw [resolve, spanBytes, registerBlockBytes, if_neg (by omega), if_pos h4]

/-! ## poll (rule R88) -/

/-- Settles O15: the poll reads STATUS, whose bit 0 is BUSY. -/
theorem pollReadsStatusUntilIdle : Obligations.PollReadsStatusUntilIdle := by
  intro s rest hs
  simp only [hostTurn, hs, hostPollOp, hostRead_status, statusWord_bit0]
  rfl

/-! ## What is left to read after ZEROIZE (rule R109) -/

theorem le32_replicate_zero {n : Nat} (o : Nat) : le32 (Vector.replicate n (0 : Byte)) o = 0 := by
  have hzero : ∀ k, elt (Vector.replicate n (0 : Byte)) k = 0 := elt_replicate_zero
  simp only [le32, hzero]
  rfl

/-- Settles O25: every place at these offsets is zero, idle as the engine is. -/
theorem zeroizeLeavesNothingToRead : Obligations.ZeroizeLeavesNothingToRead := by
  intro s t off hexec hoff h4
  rw [exec_zeroize] at hexec
  cases hexec
  rw [hostRead_of_idle rfl]
  have hat := locate_standsAt h4
  generalize locate off = l at hat
  cases l
  case olen | rabbitCarry | reserved => rfl
  case status => simp [idleRead, statusWord, zeroizeBody, errCode]
  case rc4Ij => simp [idleRead, rc4IjWord, zeroizeBody]
  case key o | nonce o | ks o | s o => exact le32_replicate_zero o
  case x k | c k => exact elt_replicate_zero k
  all_goals simp only [standsAt] at hat; omega

end Sys2Proof.Machine
end

section
/-! PROOFS. ChaCha20 and Salsa20 (42_chacha20.md, 43_salsa20.md): the input states, the blocks in the KS window,
CHACHA_CRYPT and SALSA_CRYPT, and messages split into chunks. -/

namespace Sys2Proof.Machine

/-! ## The input states (rules R161, R190, R191) -/

/-- Settles O39: the words as listed. -/
theorem chachaInitialStateLayout : Obligations.ChachaInitialStateLayout := by
  intro K N ctr
  refine ⟨fun m hm => ?_, fun m hm => ?_, rfl, fun m hm => ?_⟩ <;> interval_cases m <;> rfl

/-- Settles O40: the words as listed, the counter's halves in naturals. -/
theorem salsaInitialStateLayout : Obligations.SalsaInitialStateLayout := by
  intro K N ctr
  refine ⟨rfl, rfl, rfl, rfl, fun m hm => ?_, rfl, rfl, lo32_toNat ctr, hi32_toNat ctr⟩
  interval_cases m <;> exact ⟨rfl, rfl⟩

/-! ## The KS window after a BLOCK command (rules R65, R166, R196) -/

/-- A block's word m: word m of the rounds' result plus word m of the input state. -/
theorem elt_addStates (W ST : Vector Word 16) {m : Nat} (hm : m < 16) :
    elt (addStates W ST) m = elt W m + elt ST m := elt_build_inside _ m hm

theorem hostRead_ks_word {t : State} (hb : t.busy = false) {m : Nat} (hm : m < 16) :
    hostRead t (locate (0x240 + 4 * m)) = le32 t.ks (4 * m) :=
  hostRead_of_standsAt hb (by omega) (l := .ks (4 * m)) ⟨rfl, by omega⟩

/-- The KS window over a serialised sum of states. -/
theorem hostRead_ks_ser {t : State} (hb : t.busy = false) {W ST : Vector Word 16} (hks : t.ks = ser (addStates W ST))
    {m : Nat} (hm : m < 16) : hostRead t (locate (0x240 + 4 * m)) = elt W m + elt ST m := by
  rw [hostRead_ks_word hb hm, hks, le32_ser _ m hm, elt_addStates W ST hm]

/-- Settles O43: each command leaves its serialised block in KS. -/
theorem keystreamWindowReadsTheBlockWords : Obligations.KeystreamWindowReadsTheBlockWords :=
  ⟨fun _ hruns => ⟨_, exec_of_runs hruns, fun _ => hostRead_ks_ser rfl rfl⟩,
    fun _ hruns => ⟨_, exec_of_runs hruns, fun _ => hostRead_ks_ser rfl rfl⟩⟩

/-! ## CHACHA_CRYPT and SALSA_CRYPT (rules R171, R202) -/

theorem finish_blockCryptBody (tile : Nat → Vector Byte 64) (s : State) :
    finish .ok (blockCryptBody tile s) = { s with
      ks := (blockCryptBody tile s).ks, dbuf := (blockCryptBody tile s).dbuf, olen := s.dlen
      err := .ok, busy := false } := rfl

/-- The number of the last tile. -/
theorem tileCount_sub_one {T len : Nat} (hT : 0 < T) (hlen : 0 < len) : tileCount T len - 1 = (len - 1) / T := by
  rw [tileCount, show len + T - 1 = len - 1 + T by omega, Nat.add_div_right _ hT, Nat.add_sub_cancel]

/-- Settles O44: the driver's state, its last block at the counter in naturals, and its data in DBUF. -/
theorem chachaCryptXorsTheBlocks : Obligations.ChachaCryptXorsTheBlocks := by
  intro s hruns hwf
  refine ⟨_, exec_of_runs hruns, finish_blockCryptBody _ s, fun hzero => if_pos hzero, fun hlen => ?_,
    memRead_commandBody (i := .chachaCrypt) hwf rfl⟩
  rw [finish_ks, commandBody_chachaCrypt_ks hlen, chachaTile, tileCount_sub_one (by decide) hlen, add_ofNat_eq]

/-- Settles O45: the driver's state, its last block at the counter in naturals, and its data in DBUF. -/
theorem salsaCryptXorsTheBlocks : Obligations.SalsaCryptXorsTheBlocks := by
  intro s hruns hwf
  refine ⟨_, exec_of_runs hruns, finish_blockCryptBody _ s, fun hzero => if_pos hzero, fun hlen => ?_,
    memRead_commandBody (i := .salsaCrypt) hwf rfl⟩
  rw [finish_ks, commandBody_salsaCrypt_ks hlen, salsaTile, tileCount_sub_one (by decide) hlen, add_ofNat_eq,
    counter64_toNat]

/-! ## Chunks of whole tiles (rule R291) -/

theorem tileCount_tiles {T : Nat} (hT : 0 < T) (k : Nat) : tileCount T (T * k) = k := by
  have hnone : tileCount T 0 = 0 := by
    rw [tileCount, Nat.zero_add]; exact Nat.div_eq_of_lt (by omega)
  simpa [hnone] using tileCount_whole hT k 0

/-- The driver over `k` whole tiles and a rest is the driver over the tiles, then over the rest with the tile
numbers going on at `k`. -/
theorem xorTiles_split {σ : Type} {T : Nat} (hT : 0 < T) (gen : Nat → σ → σ × Vector Byte T) (doff k rest : Nat)
    (g : σ) (m : Memory) : xorTiles gen doff (T * k + rest) g m =
      xorTiles (fun t => gen (k + t)) (doff + T * k) rest (xorTiles gen doff (T * k) g m).1
        (xorTiles gen doff (T * k) g m).2 := by
  rw [xorTiles, tileCount_whole hT, xorTilesFrom_add, xorTilesFrom_whole gen doff k rest k 0 (by omega),
    show 0 + k = k + 0 by omega, xorTilesFrom_shift]
  simp only [xorTiles, tileCount_tiles hT]

/-- The same for DBUF and KS under the counter-mode driver. `s1` holds the first part's range, `s2` the rest's. -/
theorem blockCryptBody_split {tile tile1 tile2 : Nat → Vector Byte 64} {s s1 s2 : State} {k m : Nat}
    (hlen : dataLen s = 64 * k + m) (htile1 : tile1 = tile) (htile2 : tile2 = fun t => tile (k + t))
    (hoff1 : dataOff s1 = dataOff s) (hlen1 : dataLen s1 = 64 * k) (hdbuf1 : s1.dbuf = s.dbuf) (hks1 : s1.ks = s.ks)
    (hoff2 : dataOff s2 = dataOff s + 64 * k) (hlen2 : dataLen s2 = m)
    (hdbuf2 : s2.dbuf = (blockCryptBody tile1 s1).dbuf) (hks2 : s2.ks = (blockCryptBody tile1 s1).ks) :
    (blockCryptBody tile2 s2).dbuf = (blockCryptBody tile s).dbuf ∧
    (blockCryptBody tile2 s2).ks = (blockCryptBody tile s).ks := by
  subst htile1 htile2
  constructor
  · simp only [blockCryptBody, setOlen_dbuf, setKs_dbuf, setDbuf_dbuf] at hdbuf2 ⊢
    rw [hlen, xorTiles_split (by decide), hoff2, hlen2, hdbuf2, hoff1, hlen1, hdbuf1]
  · simp only [blockCryptBody, setOlen_ks, setKs_ks, hlen, hlen1, hlen2, hks1] at hks2 ⊢
    rw [hks2]
    by_cases hm : m = 0
    · subst hm
      rw [if_pos rfl, Nat.add_zero]
    · have hcount : 0 < tileCount 64 m := Nat.div_pos (by omega) (by decide)
      rw [if_neg hm, if_neg (by omega), tileCount_whole (by decide), Nat.add_sub_assoc hcount]

/-- A counter-mode CRYPT command that runs over a range runs over every part of it, whatever the counter. -/
theorem runs_withRange {i : Instr} {s t : State} {off len : Nat} (hi : i = .chachaCrypt ∨ i = .salsaCrypt)
    (hsize : s.params.dbufBytes < 2 ^ 32) (hklen : t.klen = s.klen) (hnlen : t.nlen = s.nlen)
    (hparams : t.params = s.params) (hrange : off + len ≤ s.params.dbufBytes) (hruns : runs i s = true) :
    runs i (withRange off len t) = true := by
  obtain ⟨hkey, hnonce, -⟩ := (runs_iff i s).1 hruns
  have hdoff : (withRange off len t).doff.toNat = off := withRange_doff_toNat (by omega) t
  have hdlen : (withRange off len t).dlen.toNat = len := withRange_dlen_toNat (by omega) t
  have hin : (withRange off len t).doff.toNat + (withRange off len t).dlen.toNat ≤ t.params.dbufBytes := by
    rw [hdoff, hdlen, hparams]; exact hrange
  have hkey' : keyMeets i (withRange off len t) = true := by
    rw [← hkey]; unfold keyMeets; rw [show (withRange off len t).klen = s.klen from hklen]
  have hnonce' : nonceMeets i (withRange off len t) = true := by
    rw [← hnonce]; unfold nonceMeets; rw [show (withRange off len t).nlen = s.nlen from hnlen]
  obtain rfl | rfl := hi <;> exact (runs_iff _ _).2 ⟨hkey', hnonce', decide_eq_true hin, rfl⟩

/-- Counting on by `k` tiles adds `k` to CTR_LO (rule R170). -/
theorem chachaTile_advance {s t : State} {k : Nat} (hkey : t.key = s.key) (hnonce : t.nonce = s.nonce)
    (hctr : t.ctrLo = s.ctrLo + BitVec.ofNat 32 k) : chachaTile t = fun n => chachaTile s (k + n) := by
  funext n
  simp only [chachaTile, hkey, hnonce, hctr, BitVec.ofNat_add, BitVec.add_assoc]

/-- The 64-bit counter advanced by `k`, its low word carrying into its high one (rule R199). -/
theorem counter64_advance {s t : State} {k : Nat}
    (hlo : t.ctrLo = BitVec.ofNat 32 ((salsaCounter s + k) % 2 ^ 32))
    (hhi : t.ctrHi = BitVec.ofNat 32 ((salsaCounter s + k) / 2 ^ 32)) :
    counter64 t = counter64 s + BitVec.ofNat 64 k := by
  rw [add_ofNat_eq, counter64_eq_ofNat t, counter64_toNat, salsaCounter, hlo, hhi, BitVec.toNat_ofNat,
    BitVec.toNat_ofNat]
  congr 1
  omega

theorem salsaTile_advance {s t : State} {k : Nat} (hkey : t.key = s.key) (hnonce : t.nonce = s.nonce)
    (hctr : counter64 t = counter64 s + BitVec.ofNat 64 k) : salsaTile t = fun n => salsaTile s (k + n) := by
  funext n
  simp only [salsaTile, hkey, hnonce, hctr, BitVec.ofNat_add, BitVec.add_assoc]

/-- Both parts of a split range lie in DBUF, and their bounds fit in a register. -/
theorem chunks_inRange {i : Instr} {s : State} {k m : Nat} (hwf : s.params.wf = true)
    (hlen : s.dlen.toNat = 64 * k + m) (hout : outLen i s = some s.dlen.toNat) (hruns : runs i s = true) :
    s.params.dbufBytes < 2 ^ 32 ∧ s.doff.toNat + 64 * k ≤ s.params.dbufBytes ∧
      s.doff.toNat + 64 * k + m ≤ s.params.dbufBytes := by
  obtain ⟨-, -, -, hsize⟩ := (paramsWf_iff s.params).1 hwf
  have hrange := outRange_of_runs hruns hout
  exact ⟨Nat.lt_of_le_of_lt hsize (by decide), by omega, by omega⟩

/-- Settles O46: the second command's tiles are the whole message's from tile `k` on. -/
theorem chachaChunksJoin : Obligations.ChachaChunksJoin := by
  intro s k m hruns hwf hlen
  obtain ⟨hsize, hfirst, hsecond⟩ := chunks_inRange hwf hlen rfl hruns
  have hruns1 := runs_withRange (t := s) (.inl rfl) hsize rfl rfl rfl hfirst hruns
  refine ⟨_, _, _, exec_of_runs hruns1,
    exec_of_runs (runs_withRange (.inl rfl) hsize rfl rfl rfl hsecond hruns), exec_of_runs hruns, rfl, ?_⟩
  exact blockCryptBody_split (tile := chachaTile s) hlen rfl (chachaTile_advance rfl rfl rfl)
    (withRange_doff_toNat s.doff.isLt _) (withRange_dlen_toNat (by omega) _) rfl rfl
    (withRange_doff_toNat (by omega) _) (withRange_dlen_toNat (by omega) _) rfl rfl

/-- Settles O47: the second command's tiles are the whole message's from tile `k` on. -/
theorem salsaChunksJoin : Obligations.SalsaChunksJoin := by
  intro s k m hruns hwf hlen
  obtain ⟨hsize, hfirst, hsecond⟩ := chunks_inRange hwf hlen rfl hruns
  have hruns1 := runs_withRange (t := s) (.inr rfl) hsize rfl rfl rfl hfirst hruns
  refine ⟨_, _, _, exec_of_runs hruns1,
    exec_of_runs (runs_withRange (.inr rfl) hsize rfl rfl rfl hsecond hruns), exec_of_runs hruns, rfl, ?_⟩
  exact blockCryptBody_split (tile := salsaTile s) hlen rfl (salsaTile_advance rfl rfl (counter64_advance rfl rfl))
    (withRange_doff_toNat s.doff.isLt _) (withRange_dlen_toNat (by omega) _) rfl rfl
    (withRange_doff_toNat (by omega) _) (withRange_dlen_toNat (by omega) _) rfl rfl

end Sys2Proof.Machine
end

section
/-! PROOFS. Rabbit (44_rabbit.md): the CANONICAL counter system as one wide addition, key and IV setup, RABBIT_CRYPT,
and the streaming commands. -/

namespace Sys2Proof.Machine

/-! ## The CANONICAL counter system (rules R223, R226) -/

/-- The number whose `n` lowest 32-bit digits are the lanes below `n`. -/
def laneNumber (C : Vector Word 8) (n : Nat) : Nat :=
  ((List.range n).map fun k => (elt C k).toNat * 2 ^ (32 * k)).sum

theorem laneNumber_succ (C : Vector Word 8) (n : Nat) :
    laneNumber C (n + 1) = laneNumber C n + (elt C n).toNat * 2 ^ (32 * n) := by
  simp [laneNumber, List.range_succ]

/-- A lane is no digit of the number of the lanes below it. -/
theorem laneNumber_put {n j : Nat} (C : Vector Word 8) (v : Word) (hj : j ≤ n) :
    laneNumber (put C n v) j = laneNumber C j := by
  induction j with
  | zero => rfl
  | succ j ih =>
    rw [laneNumber_succ, laneNumber_succ, ih (by omega), elt_put_other C v (by omega)]

/-- A lane's sum is its new digit and the carry out. -/
theorem laneSum_digits (C : Vector Word 8) (b : Bool) (k : Nat) : laneSum C b k =
    (BitVec.ofNat 32 (laneSum C b k)).toNat + (decide (2 ^ 32 ≤ laneSum C b k)).toNat * 2 ^ 32 := by
  have hc : (elt C k).toNat < 2 ^ 32 := (elt C k).isLt
  have ha : (elt rabbitA k).toNat < 2 ^ 32 := (elt rabbitA k).isLt
  have hb : b.toNat ≤ 1 := Bool.toNat_le b
  have hsum : laneSum C b k = (elt C k).toNat + (elt rabbitA k).toNat + b.toNat := rfl
  rw [BitVec.toNat_ofNat]
  by_cases hcarry : 2 ^ 32 ≤ laneSum C b k
  · rw [decide_eq_true hcarry, Bool.toNat_true]; omega
  · rw [decide_eq_false hcarry, Bool.toNat_false]; omega

/-- The first `n` lanes' passes: a sum of `n` digits with carry in and out, the lanes from `n` on untouched. -/
theorem canonLanes_sum (C : Vector Word 8) (b : Bool) {n : Nat} (hn : n ≤ 8) :
    (∀ k, n ≤ k → elt ((List.range n).foldl canonLane (C, b)).1 k = elt C k) ∧
    laneNumber ((List.range n).foldl canonLane (C, b)).1 n +
        ((List.range n).foldl canonLane (C, b)).2.toNat * 2 ^ (32 * n) =
      laneNumber C n + laneNumber rabbitA n + b.toNat := by
  induction n with
  | zero => exact ⟨fun _ _ => rfl, by simp [laneNumber]⟩
  | succ n ih =>
    obtain ⟨hkept, hsum⟩ := ih (by omega)
    rw [List.range_succ, List.foldl_append, List.foldl_cons, List.foldl_nil]
    generalize (List.range n).foldl canonLane (C, b) = st at hkept hsum ⊢
    have hdigits := laneSum_digits st.1 st.2 n
    have hlane : laneSum st.1 st.2 n = (elt C n).toNat + (elt rabbitA n).toNat + st.2.toNat := by
      rw [laneSum, hkept n (Nat.le_refl n)]
    refine ⟨fun k hk => ?_, ?_⟩
    · rw [canonLane, elt_put_other _ _ (by omega), hkept k (by omega)]
    · rw [laneNumber_succ, laneNumber_succ, laneNumber_succ, canonLane, laneNumber_put _ _ (Nat.le_refl n),
        elt_put_same _ _ _ (by omega), Nat.mul_succ, Nat.pow_add]
      have hscaled := congrArg (· * 2 ^ (32 * n)) (hlane.symm.trans hdigits)
      simp only [Nat.add_mul] at hscaled
      linarith

/-- In CANONICAL mode the next state mixes the g-values over the CANONICAL counter system's counters. -/
theorem nextState_canonical (r : Rabbit) :
    nextState true r = { counterCanon r with x := mix (gValues (counterCanon r)) } := rfl

theorem counterCanon_eq_lanes (r : Rabbit) :
    (counterCanon r).c = ((List.range 8).foldl canonLane (r.c, r.carry)).1 ∧
    (counterCanon r).carry = ((List.range 8).foldl canonLane (r.c, r.carry)).2 := by
  simp only [counterCanon, and_self]

/-- All eight lanes: one 256-bit addition with carry in and out. -/
theorem counterCanon_sum (r : Rabbit) :
    laneNumber (counterCanon r).c 8 + (counterCanon r).carry.toNat * 2 ^ (32 * 8) =
      laneNumber r.c 8 + laneNumber rabbitA 8 + r.carry.toNat := by
  obtain ⟨hc, hcarry⟩ := counterCanon_eq_lanes r
  obtain ⟨-, hsum⟩ := canonLanes_sum r.c r.carry (Nat.le_refl 8)
  rw [hc, hcarry, hsum]

/-- Settles O49: the sum over all lanes, written out digit by digit. -/
theorem canonicalCounterIsOneWideAddition : Obligations.CanonicalCounterIsOneWideAddition :=
  fun r => ⟨counterCanon_x r, counterCanon_sum r, nextState_canonical r⟩

/-! ## RABBIT_INIT and RABBIT_INIT_IV (rules R229 to R231, R234, R235) -/

/-- What RABBIT_INIT leaves where the key length is right. -/
theorem exec_rabbitInit_of_lengths {s : State} (hkey : s.klen.toNat = 16) : exec .rabbitInit s = .next { s with
    rabbit := keyedRabbit s, rabbitValid := true, err := .ok, busy := false } := by
  have hruns : runs .rabbitInit s = true := runs_of_lengths rfl rfl (decide_eq_true hkey) rfl
  rw [exec_of_runs hruns, commandBody]
  simp only [rabbitInitBody, setRabbit, setRabbitValid, finish]

/-- What RABBIT_INIT_IV leaves where the lengths are right. -/
theorem exec_rabbitInitIv_of_lengths {s : State} (hkey : s.klen.toNat = 16) (hnonce : s.nlen.toNat = 8) :
    exec .rabbitInitIv s = .next { s with
      rabbit := keyedIvRabbit s, rabbitValid := true, err := .ok, busy := false } := by
  have hruns : runs .rabbitInitIv s = true :=
    runs_of_lengths rfl rfl (decide_eq_true hkey) (decide_eq_true hnonce)
  rw [exec_of_runs hruns, commandBody]
  simp only [rabbitInitIvBody, setRabbit, setRabbitValid, finish]

/-- Key setup: four steps, and the re-initialisation of the counters where the mode or the parameter asks for it. -/
theorem keySetup_fields (origCreinit canon : Bool) (K : Vector Byte 256) :
    (keySetup origCreinit canon K).x = (rabbitAfter canon 4 (expandKey K)).x ∧
    (keySetup origCreinit canon K).carry = (rabbitAfter canon 4 (expandKey K)).carry ∧
    ∀ k, k < 8 → elt (keySetup origCreinit canon K).c k =
      if canon = true ∨ origCreinit = true then
        elt (rabbitAfter canon 4 (expandKey K)).c k ^^^ elt (rabbitAfter canon 4 (expandKey K)).x ((k + 4) % 8)
      else elt (rabbitAfter canon 4 (expandKey K)).c k := by
  simp only [keySetup, Bool.or_eq_true, rabbitAfter]
  split
  · exact ⟨rfl, rfl, fun k hk => elt_build_inside _ k hk⟩
  · exact ⟨rfl, rfl, fun _ _ => rfl⟩

/-- Settles O51: the keyed state is key setup's. -/
theorem rabbitInitRunsKeySetup : Obligations.RabbitInitRunsKeySetup := fun s hkey =>
  ⟨_, _, rfl, exec_rabbitInit_of_lengths hkey, rfl, keySetup_fields s.params.origCreinit s.rabbitCanon s.key⟩

theorem ivWord_eq (V : Vector Byte 16) (k : Nat) : ivWord V k =
    if k % 4 = 0 then le32 V 0
    else if k % 4 = 1 then (le32 V 0 >>> 16) ||| (le32 V 4 &&& 0xFFFF0000)
    else if k % 4 = 2 then le32 V 4
    else (le32 V 4 <<< 16) ||| (le32 V 0 &&& 0x0000FFFF) := by
  have hk : k % 4 = 0 ∨ k % 4 = 1 ∨ k % 4 = 2 ∨ k % 4 = 3 := by omega
  unfold ivWord
  obtain hk | hk | hk | hk := hk <;> rw [hk] <;> rfl

/-- Settles O52: IV setup XORs the IV words into the keyed state's counters and makes four steps. -/
theorem rabbitInitIvRunsIvSetup : Obligations.RabbitInitIvRunsIvSetup := by
  intro s hkey hnonce
  refine ⟨_, _, mixIV s.nonce (keyedRabbit s), exec_rabbitInit_of_lengths hkey,
    exec_rabbitInitIv_of_lengths hkey hnonce, rfl, rfl, rfl, fun k hk => ?_, rfl⟩
  rw [← ivWord_eq]
  exact elt_build_inside _ k hk

/-! ## RABBIT_CRYPT (rules R238 to R240) -/

/-- What RABBIT_CRYPT leaves where its requirements are met, KS and DBUF aside. -/
theorem finish_rabbitCryptBody (s : State) : finish .ok (rabbitCryptBody s) = { s with
    rabbit := rabbitAfter s.rabbitCanon ((s.dlen.toNat + 15) / 16) (cryptRabbit s), rabbitValid := true
    ks := (rabbitCryptBody s).ks, dbuf := (rabbitCryptBody s).dbuf, olen := s.dlen, err := .ok, busy := false } := by
  have htiles : tileCount 16 s.dlen.toNat = (s.dlen.toNat + 15) / 16 := rfl
  simp only [rabbitCryptBody, setRabbit, setRabbitValid, setKs, setDbuf, setOlen, finish, xorTiles_state,
    tileState_rabbit, dataLen, htiles]

/-- Settles O54: the body's state, the block of its last X in KS, and its data in DBUF. -/
theorem rabbitCryptXorsTheBlocks : Obligations.RabbitCryptXorsTheBlocks := by
  intro s hruns hwf
  refine ⟨_, cryptRabbit s, rfl, exec_of_runs hruns, finish_rabbitCryptBody s, fun hzero => if_pos hzero,
    fun hlen => ⟨fun k hk => ?_, fun k hk => elt_rabbitCryptBody_ks_past s hk⟩,
    memRead_commandBody (i := .rabbitCrypt) hwf rfl⟩
  rw [finish_ks, commandBody_rabbitCrypt_ks hlen, elt_putBlock16_inside _ _ hk, finish_rabbit]

/-! ## The streaming commands (rules R236 to R238) -/

/-- `n` RABBIT_NEXT commands from a valid state make `n` steps and keep KS. -/
theorem execAll_rabbitNext (n : Nat) (is : List Instr) {s : State} (hvalid : s.rabbitValid = true) :
    ∃ t, execAll (List.replicate n .rabbitNext ++ is) s = execAll is t ∧
      t.rabbit = rabbitAfter s.rabbitCanon n s.rabbit ∧ t.ks = s.ks ∧ t.rabbitValid = true := by
  induction n generalizing s with
  | zero => exact ⟨s, rfl, rfl, rfl, hvalid⟩
  | succ n ih =>
    obtain ⟨t, hexec, hrabbit, hks, hvalid'⟩ := ih (s := finish .ok (commandBody .rabbitNext s)) hvalid
    have hruns : runs .rabbitNext s = true := runs_of_lengths rfl hvalid rfl rfl
    refine ⟨t, ?_, hrabbit, hks, hvalid'⟩
    rw [List.replicate_succ, List.cons_append, execAll_cons_of_runs hruns, hexec]

/-- The setup command a stream begins with leaves RABBIT_CRYPT's starting state, and KS as it was. -/
theorem execAll_rabbitSetup {s : State} (hruns : runs .rabbitCrypt s = true) (is : List Instr) :
    ∃ t, execAll ((if s.nlen.toNat = 8 then .rabbitInitIv else .rabbitInit) :: is) s = execAll is t ∧
      t.rabbit = cryptRabbit s ∧ t.ks = s.ks ∧ t.rabbitValid = true ∧ t.rabbitCanon = s.rabbitCanon := by
  obtain ⟨hkey, -⟩ := (runs_iff _ _).1 hruns
  by_cases hnonce : s.nlen.toNat = 8
  · have hinit : runs .rabbitInitIv s = true := runs_of_lengths rfl rfl hkey (decide_eq_true hnonce)
    rw [if_pos hnonce, execAll_cons_of_runs hinit]
    exact ⟨_, rfl, (if_pos hnonce).symm, rfl, rfl, rfl⟩
  · have hinit : runs .rabbitInit s = true := runs_of_lengths rfl rfl hkey rfl
    rw [if_neg hnonce, execAll_cons_of_runs hinit]
    exact ⟨_, rfl, (if_neg hnonce).symm, rfl, rfl, rfl⟩

/-- Settles O55: setup leaves the state RABBIT_CRYPT starts from, each RABBIT_NEXT makes one tile's step, and
RABBIT_EXTRACT writes the last tile's block. -/
theorem rabbitStreamEqualsOneCrypt : Obligations.RabbitStreamEqualsOneCrypt := by
  intro s n hruns hlo hhi
  have hlen : 0 < s.dlen.toNat := by omega
  have htiles : tileCount 16 (dataLen s) = n + 1 := by
    simp only [tileCount, dataLen]; omega
  obtain ⟨t0, hsetup, hrabbit0, hks0, hvalid0, hcanon0⟩ :=
    execAll_rabbitSetup hruns (List.replicate (n + 1) .rabbitNext ++ [.rabbitExtract])
  obtain ⟨t, hnext, hrabbit, hks, hvalid⟩ := execAll_rabbitNext (n + 1) [.rabbitExtract] hvalid0
  have hextract : runs .rabbitExtract t = true := runs_of_lengths rfl hvalid rfl rfl
  have hsame : t.rabbit = (commandBody .rabbitCrypt s).rabbit := by
    rw [hrabbit, hcanon0, hrabbit0, commandBody_rabbitCrypt_rabbit, htiles]
  refine ⟨_, _, exec_of_runs hruns, hsetup.trans (hnext.trans (execAll_cons_of_runs hextract [])), hsame, ?_⟩
  rw [finish_ks, finish_ks, commandBody_rabbitCrypt_ks hlen, ← hsame, ← hks0, ← hks]
  rfl

end Sys2Proof.Machine
end

section
/-! PROOFS. Steps (70_reset_and_hazards.md): the engine's turn, finished runs, reset, the parameters, and that an issued
command is performed. -/

namespace Sys2Proof.Machine

/-! ## Single turns (rules R281, R286, R295) -/

/-- Settles O5: the engine moves by itself or on its listed turn, and performs the decoded command. -/
theorem engineStepRunsTheDecodedCommand : Obligations.EngineStepRunsTheDecodedCommand := by
  intro s i hb hdec
  refine ⟨fun hturns => ?_, fun rest hturns => ?_⟩
  · rw [step_busy hturns hb, perform_of_decode hdec]
  · rw [step_engine hturns, engineTurn_busy (by exact hb), perform_of_decode (by exact hdec)]

theorem hostTurn_of_no_script {s : State} (hs : s.script = []) : hostTurn s = .next s := by
  simp [hostTurn, hs]

/-- Settles O18: the idle engine leaves the turn to a host with nothing to do. -/
theorem finishedRunsStandStill : Obligations.FinishedRunsStandStill := by
  intro s hover hturns
  obtain ⟨hscript, hb⟩ : s.script = [] ∧ s.busy = false := by simpa [runOver] using hover
  rw [step_idle hturns hb, hostTurn_of_no_script hscript]

/-- Settles O60: a reset turn leaves what is not engine state, its own place in the list aside. -/
theorem platformResetKeepsTheHost : Obligations.PlatformResetKeepsTheHost := fun _ _ hturns =>
  ⟨_, step_reset hturns, rfl, rfl, rfl, rfl⟩

/-! ## The parameters (rule R8) -/

theorem perform_params {s t : State} (h : perform s = .next t) : t.params = s.params := by
  cases hdec : decode s.pending with
  | error e =>
    rw [perform_of_illegal hdec] at h
    cases h
    rfl
  | ok i =>
    rw [perform_of_decode hdec] at h
    obtain ⟨-, rfl⟩ | ⟨-, -, rfl⟩ := exec_cases h
    · exact commandBody_params i s
    · rfl

theorem engineTurn_params {s t : State} (h : engineTurn s = .next t) : t.params = s.params := by
  cases hb : s.busy with
  | true => rw [engineTurn_busy hb] at h; exact perform_params h
  | false => rw [engineTurn_idle hb] at h; cases h; rfl

theorem hostTurn_params {s t : State} (h : hostTurn s = .next t) : t.params = s.params := by
  obtain ⟨-, ht⟩ | ⟨addr, rest, -, -, ht⟩ | ⟨addr, w, rest, -, -, ht⟩ | ⟨rest, -, ht⟩ | ⟨_, _, _, -, -, ht⟩ :=
    hostTurn_cases h <;> cases ht
  · rfl
  · rfl
  · obtain ⟨-, -, -, -, -, -, -, hparams, -⟩ := hostWrite_keeps (locate (addr - s.params.base)) w s
    exact hparams
  · rfl

/-- Settles O19: no agent's turn writes them. -/
theorem parametersNeverChange : Obligations.ParametersNeverChange := by
  intro s t hstep
  obtain ⟨rest, -, hs⟩ | ⟨rest, -, hs⟩ | ⟨rest, -, hs⟩ | ⟨-, -, hs⟩ | ⟨-, -, hs⟩ := step_cases s <;>
    rw [hs] at hstep
  · exact hostTurn_params (s := setTurns rest s) hstep
  · exact engineTurn_params (s := setTurns rest s) hstep
  · cases hstep; rfl
  · exact perform_params hstep
  · exact hostTurn_params hstep

/-! ## Issued commands (rules R286, R294) -/

/-- A run goes on from where its first step leads. -/
theorem core_run_succ {s s' : State} (h : step s = .next s') (k : Nat) : core.run (k + 1) s = core.run k s' := by
  have hcore : core.step s = .next s' := h
  simp [Host.Core.run, hcore]

/-- Performing a word ends with BUSY = 0. -/
theorem perform_completes (s : State) : ∃ t, perform s = .next t ∧ t.busy = false := by
  cases hdec : decode s.pending with
  | error e => exact ⟨_, perform_of_illegal hdec, rfl⟩
  | ok i =>
    obtain ⟨t, hexec, -⟩ := exec_reports_expectedCode i s
    exact ⟨t, (perform_of_decode hdec).trans hexec, exec_idle hexec⟩

/-- While the engine is busy a host that keeps the protocol moves its own side only. -/
theorem hostTurn_of_busy {s : State} (hb : s.busy = true) (hduty : hostDuty s = true) :
    ∃ script reads, hostTurn s = .next { s with script := script, reads := reads } ∧
      script.all (opOk s.params) = true := by
  unfold hostDuty at hduty
  cases hs : s.script with
  | nil => exact ⟨s.script, s.reads, hostTurn_of_no_script hs, hduty⟩
  | cons op rest =>
    rw [hs, List.all_cons, Bool.and_eq_true] at hduty
    obtain ⟨hop, hrest⟩ := hduty
    cases op with
    | rd addr => exact ⟨rest, _, hostTurn_rd hs hop, hrest⟩
    | wr addr w => exact ⟨rest, s.reads, by rw [hostTurn_wr hs hop, hostWrite_of_busy hb]; rfl, hrest⟩
    | poll =>
      refine ⟨.poll :: rest, s.reads ++ [statusWord s], ?_, by rw [List.all_cons, hrest]; rfl⟩
      rw [pollReadsStatusUntilIdle s rest hs, hb]
      rfl

/-- The same for a listed host turn. -/
theorem step_host_of_busy {s : State} {rest : List Turn} (hturns : s.turns = .host :: rest) (hb : s.busy = true)
    (hduty : hostDuty s = true) :
    ∃ s', step s = .next s' ∧ s' = { s with script := s'.script, reads := s'.reads, turns := rest } ∧
      hostDuty s' = true := by
  obtain ⟨script, reads, hturn, hall⟩ := hostTurn_of_busy (s := setTurns rest s) hb hduty
  exact ⟨_, (step_host hturns).trans hturn, rfl, hall⟩

/-- With no reset listed: host turns leave the command pending until the engine's turn performs it. -/
theorem performed_of_no_reset {turns : List Turn} {s : State} (hturns : s.turns = turns) (hb : s.busy = true)
    (hduty : hostDuty s = true) (hreset : Turn.reset ∉ turns) :
    ∃ k u t, k ≤ turns.length ∧ core.run k s = .next u ∧
      u = { s with script := u.script, reads := u.reads, turns := u.turns } ∧
      step u = perform { u with turns := u.turns.tail } ∧ perform { u with turns := u.turns.tail } = .next t ∧
      core.run (k + 1) s = .next t ∧ t.busy = false := by
  induction turns generalizing s with
  | nil =>
    obtain ⟨t, ht, hidle⟩ := perform_completes { s with turns := s.turns.tail }
    have hstep : step s = perform { s with turns := s.turns.tail } := by
      rw [step_busy hturns hb, hturns, List.tail_nil, ← hturns]
    exact ⟨0, s, t, Nat.le_refl 0, rfl, rfl, hstep, ht, core_run_succ (hstep.trans ht) 0, hidle⟩
  | cons turn rest ih =>
    rw [List.mem_cons, not_or] at hreset
    cases turn with
    | reset => exact absurd rfl hreset.1
    | engine =>
      obtain ⟨t, ht, hidle⟩ := perform_completes { s with turns := s.turns.tail }
      have hstep : step s = perform { s with turns := s.turns.tail } := by
        rw [step_engine hturns, engineTurn_busy (by exact hb), hturns]
        rfl
      exact ⟨0, s, t, Nat.zero_le _, rfl, rfl, hstep, ht, core_run_succ (hstep.trans ht) 0, hidle⟩
    | host =>
      obtain ⟨s', hstep, hs', hduty'⟩ := step_host_of_busy hturns hb hduty
      have hb' : s'.busy = true := by rw [hs']; exact hb
      obtain ⟨k, u, t, hk, hrun, hu, hperform, ht, hrun', hidle⟩ :=
        ih (by rw [hs']) hb' hduty' hreset.2
      refine ⟨k + 1, u, t, Nat.succ_le_succ hk, (core_run_succ hstep k).trans hrun, ?_, hperform, ht,
        (core_run_succ hstep (k + 1)).trans hrun', hidle⟩
      rw [hu, hs']

/-- Under any list of turns: a reset, or else the perform step, leaves the engine idle. -/
theorem idle_within_turns {turns : List Turn} {s : State} (hturns : s.turns = turns) (hb : s.busy = true)
    (hduty : hostDuty s = true) :
    ∃ k t, k ≤ turns.length + 1 ∧ core.run k s = .next t ∧ t.busy = false := by
  induction turns generalizing s with
  | nil =>
    obtain ⟨t, ht, hidle⟩ := perform_completes s
    exact ⟨1, t, Nat.le_refl 1, core_run_succ ((step_busy hturns hb).trans ht) 0, hidle⟩
  | cons turn rest ih =>
    cases turn with
    | reset => exact ⟨1, _, by simp, core_run_succ (step_reset hturns) 0, rfl⟩
    | engine =>
      obtain ⟨t, ht, hidle⟩ := perform_completes (setTurns rest s)
      have hstep : step s = perform (setTurns rest s) := (step_engine hturns).trans (engineTurn_busy hb)
      exact ⟨1, t, by simp, core_run_succ (hstep.trans ht) 0, hidle⟩
    | host =>
      obtain ⟨s', hstep, hs', hduty'⟩ := step_host_of_busy hturns hb hduty
      obtain ⟨k, t, hk, hrun, hidle⟩ := ih (s := s') (by rw [hs']) (by rw [hs']; exact hb) hduty'
      exact ⟨k + 1, t, Nat.succ_le_succ hk, (core_run_succ hstep k).trans hrun, hidle⟩

/-- Settles O17: by induction on the listed turns, in both clauses. -/
theorem issuedCommandsArePerformed : Obligations.IssuedCommandsArePerformed :=
  ⟨fun _ => performed_of_no_reset rfl, fun _ => idle_within_turns rfl⟩

end Sys2Proof.Machine
end
